-- ==== Sys2Proof/Word.lean ====
section
/-! DEFINITION. The word types of the machine: 64-bit words (R5 `MXLEN` = 64, D1), bytes, and the numbers of the
32 general registers (R60). -/

namespace Sys2Proof

/-- A register or CSR value: `MXLEN` = 64 bits (R5, R60). -/
abbrev Word := BitVec 64

/-- One byte of memory or of the trace stream. -/
abbrev Byte := BitVec 8

/-- The number of a general register, 0 to 31 (R60, R121). -/
abbrev Reg := Fin 32

end Sys2Proof
end

