-- ==== Sys2Proof/Config.lean ====
section
/-! DEFINITION. What an implementation fixes (the parameters of R5 and of 92_eei_decisions.md section 2), the types the
uninterpreted parameters speak about (trace items, the asynchronous memory buffer), and the free values: constants
without a body, of which nothing in Lean can prove a value. -/

namespace Sys2Proof

/-! ## Kinds and modes -/

/-- `TRACE_KIND` (R5): which extension pair is implemented, `Smstrce1p0`/`Ssstrce1p0` or `Smstrcn1p0`/`Ssstrcn1p0`. -/
inductive TraceKind where
  | etrace
  | ntrace
deriving DecidableEq, Repr, Inhabited

/-- `priv` of R8: the privilege level of the hart. -/
inductive Priv where
  | user
  | supervisor
  | machine
deriving DecidableEq, Repr, Inhabited

/-! ## The parameters of an implementation -/

/-- The E-trace parameter table of R195, one field per row, in the table's order. `contextWidth`, `iaddressWidth` are
in bits. They reach the decoder only (R196, R197): no CSR depends on them. -/
structure EtraceParams where
  arch : Nat
  blocks : Nat
  bpredSize : Nat
  cacheSize : Nat
  callCounterSize : Nat
  ctypeWidth : Nat
  contextWidth : Nat
  timeWidth : Nat
  ecauseWidth : Nat
  ecauseChoice : Nat
  f0sWidth : Nat
  filterContext : Nat
  filterTime : Nat
  filterExcint : Nat
  filterPrivilege : Nat
  filterTval : Nat
  iaddressLsb : Nat
  iaddressWidth : Nat
  iretireWidth : Nat
  ilastsizeWidth : Nat
  itypeWidth : Nat
  nocontext : Nat
  notime : Nat
  privilegeWidth : Nat
  retires : Nat
  returnStackSize : Nat
  sijump : Nat
  impdefWidth : Nat
deriving DecidableEq, Repr, Inhabited

/-- The "allowed value" column of R195; a row that is "Any" or "Implementation-defined" is not constrained. The bound
of `call_counter_size_p` and `return_stack_size_p` is taken on the exponent, the weaker reading (U15). -/
abbrev EtraceParams.Allowed (p : EtraceParams) : Prop :=
  p.arch = 0 ∧ p.callCounterSize ≤ 64 ∧ p.ctypeWidth = 2 ∧ p.contextWidth = 64 ∧ p.ecauseWidth = 6 ∧ p.f0sWidth = 2 ∧
  p.filterPrivilege = 1 ∧ p.iaddressLsb = 1 ∧ p.iaddressWidth = 64 ∧ p.nocontext = 0 ∧ p.notime = 0 ∧
  p.privilegeWidth = 3 ∧ p.returnStackSize ≤ 64

/-- The parameters that R5 leaves OPEN and one machine fixes. A record of plain data, so that a state can carry it
(exec has no other argument) and every statement about every state speaks of every implementation. -/
structure Config where
  /-- `TRACE_KIND`. -/
  kind : TraceKind
  /-- `HAS_H`: the hypervisor extension is implemented. -/
  hasH : Bool
  /-- `HAS_SMSTATEEN`: Smstateen is implemented. -/
  hasSmstateen : Bool
  /-- `IMPL_ITEN` to `IMPL_EAM`: the optional fields of `mstrcctl` (R6). -/
  implIten : Bool
  implSten : Bool
  implNta : Bool
  implEsj : Bool
  implEir : Bool
  implEbp : Bool
  implEtc : Bool
  implErh : Bool
  implEaj : Bool
  implEam : Bool
  /-- `SMOD_IMPL`: which of the sync mechanisms 1, 2, 3 are implemented (R29). -/
  smodImpl1 : Bool
  smodImpl2 : Bool
  smodImpl3 : Bool
  /-- `smod_legalize` at 1, 2 and 3 (D17). -/
  smodLegalize1 : BitVec 2
  smodLegalize2 : BitVec 2
  smodLegalize3 : BitVec 2
  /-- `HCONTEXT_BITS`, `SCONTEXT_BITS`: implemented low bits of the context CSRs (R53, R54). -/
  hcontextBits : Nat
  scontextBits : Nat
  /-- `GUEST_CTX_HIDES_HCONTEXT` (R181, D25). -/
  guestCtxHidesHcontext : Bool
  /-- `TE_BUF_CAP`: capacity in bytes of the internal trace buffers (R57). -/
  bufCap : Nat
  /-- The five open CSR numbers (R104). -/
  csrMstrcctl : Nat
  csrSstrcctl : Nat
  csrVsstrcctl : Nat
  csrSstrcambcs : Nat
  csrSstrcambaddr : Nat
  /-- `STRC_SE_BIT`: index of the STRC bit in `mstateen0` and `hstateen0` (D3). -/
  strcSeBit : Nat
  /-- The E-trace parameters of R195. -/
  etrace : EtraceParams
  /-- Whether the trap value holds the instruction's bits (true) or zero (R240, R241). -/
  tvalHoldsInstr : Bool
  /-- The implementation-defined reset vector (R272). -/
  resetVector : Word
  /-- TCI values that R227 and R230 leave to the implementation: `trTsMode`, `trTsWidth`, `trTeCompType`,
  `trTeProtocolMajor`, `trTeProtocolMinor`. -/
  tciTsMode : Nat
  tciTsWidth : Nat
  tciCompType : Nat
  tciProtocolMajor : Nat
  tciProtocolMinor : Nat
deriving DecidableEq, Repr, Inhabited

/-- An E-trace parameter set that R195 allows; the unconstrained rows hold small example values (DESIGN CHOICE). -/
def EtraceParams.reference : EtraceParams where
  arch := 0
  blocks := 1
  bpredSize := 0
  cacheSize := 0
  callCounterSize := 0
  ctypeWidth := 2
  contextWidth := 64
  timeWidth := 40
  ecauseWidth := 6
  ecauseChoice := 0
  f0sWidth := 2
  filterContext := 0
  filterTime := 0
  filterExcint := 0
  filterPrivilege := 1
  filterTval := 0
  iaddressLsb := 1
  iaddressWidth := 64
  iretireWidth := 1
  ilastsizeWidth := 1
  itypeWidth := 3
  nocontext := 0
  notime := 0
  privilegeWidth := 3
  retires := 1
  returnStackSize := 0
  sijump := 0
  impdefWidth := 0

/-- The implementation called "full" in 95_test_vectors.md, with its example CSR numbers. DESIGN CHOICE: the
configuration of `State.reset`; statements about every state do not depend on it. -/
def Config.full : Config where
  kind := .etrace
  hasH := true
  hasSmstateen := true
  implIten := true
  implSten := true
  implNta := true
  implEsj := true
  implEir := true
  implEbp := true
  implEtc := true
  implErh := true
  implEaj := true
  implEam := true
  smodImpl1 := true
  smodImpl2 := true
  smodImpl3 := true
  smodLegalize1 := 0
  smodLegalize2 := 0
  smodLegalize3 := 0
  hcontextBits := 32
  scontextBits := 32
  guestCtxHidesHcontext := false
  bufCap := 256
  csrMstrcctl := 0x7C0
  csrSstrcctl := 0x5C0
  csrVsstrcctl := 0x6C0
  csrSstrcambcs := 0x5C1
  csrSstrcambaddr := 0x5C2
  strcSeBit := 55
  etrace := EtraceParams.reference
  tvalHoldsInstr := true
  resetVector := 0
  tciTsMode := 1
  tciTsWidth := 40
  tciCompType := 1
  tciProtocolMajor := 1
  tciProtocolMinor := 0

/-- The implementation called "mini" in 95_test_vectors.md: no optional field, `SMOD_IMPL` = {1}, and
`smod_legalize(2) = smod_legalize(3) = l`. -/
def Config.mini (l : BitVec 2) : Config :=
  { Config.full with
    implIten := false, implSten := false, implNta := false, implEsj := false, implEir := false, implEbp := false,
    implEtc := false, implErh := false, implEaj := false, implEam := false, smodImpl2 := false, smodImpl3 := false,
    smodLegalize2 := l, smodLegalize3 := l }

/-! ## Trace items (R159) and the asynchronous memory buffer (R82): the types the open parameters speak about -/

/-- The eight feature fields of `mstrcctl` that shape what the encoder emits (R200). -/
structure Features where
  nta : Bool
  esj : Bool
  eir : Bool
  ebp : Bool
  etc : Bool
  erh : Bool
  eaj : Bool
  eam : Bool
deriving DecidableEq, Repr, Inhabited

/-- How a retired instruction moves control, as far as the feature fields of R200 distinguish it. What a `Flow` item
tells of a control transfer is left to the trace specifications (R159, R162); these kinds are the model's (DESIGN
CHOICE, log entry 57). -/
inductive FlowKind where
  | sequential
  | branch (taken : Bool)
  /-- A direct jump, whose target the program binary gives. -/
  | jumpInferable
  /-- A jump whose target follows from the instruction before it: "sequentially inferable" (ESJ). -/
  | jumpSequentiallyInferable
  | jumpUninferable
  /-- A direct call (`inferable`), or one whose target is computed. -/
  | call (inferable : Bool)
  | functionReturn
  | trapReturn
deriving DecidableEq, Repr, Inhabited

/-- A retired instruction as the trace encoder sees it: its address, its length in 16-bit half-words (1 or 2, R61),
how it moved control, and where to. The trace records addresses, not instruction bytes (R91). -/
structure Retired where
  pc : Word
  halfwords : Nat
  kind : FlowKind
  target : Word
deriving DecidableEq, Repr, Inhabited

/-- The context reported with CEN = 1 (R180), and the VMID reported beside it (R165). R165 and N13 do not say where in the
trace the VMID stands; it stands here, beside the context of a record, and nowhere else (DESIGN CHOICE, log entry 60). -/
structure ContextReport where
  value : BitVec 64
  vmid : BitVec 14
deriving DecidableEq, Repr, Inhabited

/-- The timestamp of an item (R174). For E-trace its two parts are reported apart (R176): `high` is
timestamp[time_width_p-1:16], in format 3 packets, `low` is timestamp[15:0], in the encapsulation. -/
inductive Timestamp where
  | etrace (high : Word) (low : BitVec 16)
  | ntrace (value : Word)
deriving DecidableEq, Repr, Inhabited

/-- The kinds of trace item of R159. -/
inductive Item where
  /-- `Sync`: an instruction trace synchronization message/packet. -/
  | sync
  /-- `Support(start)` (`atEnd` false) or `Support(end)` (`atEnd` true), R197. -/
  | support (atEnd : Bool)
  /-- `Flow` of a retired instruction. -/
  | flow (r : Retired)
  /-- `Flow` that marks where tracing stopped (`resumed` false) or restarted (R160, last sentence). -/
  | boundary (resumed : Bool) (pc : Word)
  /-- `Trap`: an exception or an interrupt, its cause in 6 bits (R243); `handler` is absent when NTA = 1 (R31). -/
  | trap (interrupt : Bool) (cause : BitVec 6) (epc : Word) (handler : Option Word)
  /-- `Context(value)`. -/
  | context
  /-- `TriggerNotify` (R166). -/
  | triggerNotify
  /-- `Overflow` (R172). -/
  | overflow
  /-- `EncapSync`: the encapsulation's synchronization sequence (R187). -/
  | encapSync
deriving DecidableEq, Repr, Inhabited

/-- One element of the encoder's abstract output (R159): an item with the privilege mode it reports (R165), its
timestamp when TSEN = 1 (R174) and the context when CEN = 1 (R180). -/
structure Record where
  item : Item
  priv : Priv
  virt : Bool
  time : Option Timestamp
  context : Option ContextReport
deriving DecidableEq, Repr, Inhabited

/-- The items the encoder is free to emit without an instruction that requires them (R160, R163 b, R168, R169, R172,
D23, U19). -/
inductive ExtraItem where
  | sync
  | support (atEnd : Bool)
  | context
  | overflow
  | boundary (resumed : Bool)
deriving DecidableEq, Repr, Inhabited

/-- The registers of the asynchronous memory buffer, its own state (R82, D13). What Ssamb keeps in them is not in the
source (N1): every operation of the AMB is a free function that may change all of them, so a field stands here for what
the AMB's own state says at the moment. -/
structure AmbRegs where
  /-- A code of the contents of `sstrcambcs`: the type `CsT` of R82 is opaque. -/
  cs : Nat
  /-- A code of the contents of `sstrcambaddr`: the type `AddrT` of R82 is opaque. -/
  addr : Nat
  /-- A code of whatever else the AMB holds. -/
  hidden : Nat
  /-- `accept` (R82): whether it can take a byte now; backpressure when false. -/
  ready : Bool
  /-- The buffer's size is `2^(12 + this)` bytes: a power of two, at least 4 KiB (R83). -/
  extraSize : Nat
  /-- The buffer starts at this multiple of its size: it is naturally aligned (R83). -/
  index : Nat
  /-- Whether the buffer is used circularly (R83). -/
  wraps : Bool
  /-- The place in the stream of the next byte it takes (R86, D8). -/
  position : Nat
deriving DecidableEq, Repr, Inhabited

/-- The asynchronous memory buffer (R82): its registers, and the memory writes it has taken on and not yet performed,
oldest first, each the address of a trace byte, before translation (R85), and the byte. -/
structure Amb where
  regs : AmbRegs
  pending : List (Word × Byte)
deriving DecidableEq, Repr, Inhabited

/-! ## Free values and uninterpreted parameters

None of these has a body: a statement that holds, holds for every value of them. -/

/-- Which of the two counters of State numbers a draw: their draws are of different constants. -/
inductive DrawOf where
  /-- `State.draws`. -/
  | machine
  /-- `Encoder.drawn`. -/
  | encoder
deriving DecidableEq, Repr

/-- A free bit (`draw`, R8): the model applies it to a counter of State. -/
opaque Config.freeBool : DrawOf → Nat → Bool

/-- A free natural number (`draw`, R8). -/
opaque Config.freeNat : DrawOf → Nat → Nat

/-- A free 64-bit value (`draw`, R8). -/
opaque Config.freeWord : Nat → Word

/-- A free byte (`draw`, R8; D18). -/
opaque Config.freeByte : Nat → Byte

/-- Free trace bytes (the internal buffers after the debugger's bit has returned to 0, U16). -/
opaque Config.freeBytes : Nat → List Byte

/-- Free registers of the AMB (after the debugger's bit has returned to 0, U16). -/
opaque Config.freeAmb : Nat → AmbRegs

/-- The items, besides a Support packet, that the encoder appends to close a trace session (R163 b: "may append"). -/
opaque Config.freeClosing : Nat → List ExtraItem

/-- What the bits the spec does not describe of a host CSR (its number), holding `old`, become when `w` is written:
they follow their own specifications (R146, N2, N8). -/
opaque Config.hostWarl : (csr : Nat) → (old w : Word) → Word

/-- The legal value MPP takes when the reserved encoding 2 is written to it (R9: a deterministic, legal result). -/
opaque Config.mppWarl : Word → Priv

/-- `encode` of R159 (D23): the bytes an item becomes, given the implementation's parameters (a Support packet reports
some of them, R197), the features and the compression state (R59). -/
opaque Config.encode : Config → Features → (compression : Nat) → Record → List Byte

/-- The encoder's compression state after an item (R59, N4, N5). -/
opaque Config.compress : Config → Features → (compression : Nat) → Record → Nat

/-- Byte `i` of the encapsulation's synchronization sequence (R187, R188; its bytes are not in the source, N4). -/
opaque Config.encapSyncByte : Nat → Byte

/-- The byte the encapsulation fills a 4 KiB block with when the next packet does not fit in it (R187, N4). -/
opaque Config.encapFillByte : Byte

/-- Whether the packet that a record becomes reports the control transfers that no packet has reported yet (R178): the
trace specifications say which packets do (N4, N5). -/
opaque Config.reportsTransfers : Config → Features → (compression : Nat) → Record → Bool

/-- `csr_read(sstrcambcs)`: "the value the AMB parameter gives for sambcs" (R140). -/
opaque Config.ambReadCs : Amb → Word

/-- `csr_read(sstrcambaddr)` (R140). -/
opaque Config.ambReadAddr : Amb → Word

/-- `csr_write(sstrcambcs, w)`: what the AMB does with `w` (R145). -/
opaque Config.ambWriteCs : Amb → Word → AmbRegs

/-- `csr_write(sstrcambaddr, w)` (R145). -/
opaque Config.ambWriteAddr : Amb → Word → AmbRegs

/-- The registers after `push` (R82). -/
opaque Config.ambPush : Amb → Byte → AmbRegs

/-- The registers after `drain` has performed the writes of `n` bytes (R82). -/
opaque Config.ambDrain : Amb → (n : Nat) → AmbRegs

/-- `privCtx` (R82, R85): the translation context that (STRCS, STRCV) select. Nothing is assumed of it. -/
opaque Config.ambPrivCtx : (strcs strcv : Bool) → Nat

/-- The address translation of trace writes under a translation context (R85, N8). Under one context it never changes:
no page table or register is an argument of it (DESIGN CHOICE, log entry 55). -/
opaque Config.ambTranslate : (ctx : Nat) → Word → Word

/-- What a fault of a trace write makes of the AMB's registers (R242: an outcome of `drain` with no meaning of its own). -/
opaque Config.ambFaulted : Amb → AmbRegs

/-- Whether the pending write of a position in the list, oldest first, survives a fault of a trace write (R242). -/
opaque Config.ambFaultKeeps : Amb → Nat → Bool

/-- `trTeFormat` of an E-trace implementation, 0 or 1; an N-trace implementation has the other (R227, U17). -/
opaque Config.etraceFormat : BitVec 1

/-- `trTeActive` while EN = 0 and EMPTY = 1, in the debugger's read of a given number: the implementation's choice (R225,
U4). -/
opaque Config.teActiveIdle : Nat → Bool

/-- `trTsActive` in the debugger's read of a given number: "Implementation-defined" (R230, U5). -/
opaque Config.tsActive : Nat → Bool

/-- `trTsCount` in the debugger's read of a given number: "Implementation-defined" (R230, U5). -/
opaque Config.tsCount : Nat → Bool

end Sys2Proof
end

