-- ==== Sys2Proof/Syntax.lean ====
section
/-! DEFINITION. The instructions of spec/opcode_table.json: the six CSR access instructions (R103). The extension adds
no instruction of its own (R100). -/

namespace Sys2Proof

/-- One constructor per row of spec/opcode_table.json. `csr` is the CSR number "as it stands, 0 to 4095" (R102); `rd`,
`rs1` are register numbers, `uimm` is the 5-bit immediate. -/
inductive Instr where
  /-- `csrrw rd, csr, rs1`: atomic read/write CSR (R121). -/
  | csrrw (rd : Reg) (csr : Nat) (rs1 : Reg)
  /-- `csrrs rd, csr, rs1`: atomic read and set bits (R122). -/
  | csrrs (rd : Reg) (csr : Nat) (rs1 : Reg)
  /-- `csrrc rd, csr, rs1`: atomic read and clear bits (R123). -/
  | csrrc (rd : Reg) (csr : Nat) (rs1 : Reg)
  /-- `csrrwi rd, csr, uimm` (R124). -/
  | csrrwi (rd : Reg) (csr : Nat) (uimm : BitVec 5)
  /-- `csrrsi rd, csr, uimm` (R125). -/
  | csrrsi (rd : Reg) (csr : Nat) (uimm : BitVec 5)
  /-- `csrrci rd, csr, uimm` (R126). -/
  | csrrci (rd : Reg) (csr : Nat) (uimm : BitVec 5)
deriving DecidableEq, Repr

end Sys2Proof
end

