-- ==== Sys2Proof/WellFormed.lean ====
section
/-! DEFINITION. Which instruction terms an encoding can carry. -/

namespace Sys2Proof

/-- The CSR number an instruction names. -/
def Instr.csrNumber : Instr → Nat
  | .csrrw _ csr _ => csr
  | .csrrs _ csr _ => csr
  | .csrrc _ csr _ => csr
  | .csrrwi _ csr _ => csr
  | .csrrsi _ csr _ => csr
  | .csrrci _ csr _ => csr

/-- An instruction is well formed when its CSR number fits the 12-bit field `csr`, bits 31:20 (R101, R102). The other
operands fit their fields by their types. -/
abbrev Instr.WellFormed (i : Instr) : Prop := i.csrNumber < 4096

end Sys2Proof
end

