-- ==== Sys2Proof/Decode.lean ====
section
/-! DEFINITION. The decoder of the CSR access instructions, total on any bytes and rejecting by name, and the encoder,
both from the encoding tables of R101 to R103. -/

namespace Sys2Proof

/-- Why the decoder reads no instruction of the opcode table. -/
inductive DecodeError where
  /-- Fewer than four bytes were given. -/
  | truncated
  /-- `bits[1:0] = 11` and `bits[4:2] != 111` does not hold: not a 32-bit instruction (R101). -/
  | notThirtyTwoBits
  /-- The opcode, bits 6:0, is not SYSTEM (R101): an instruction of the base ISA, which is not in the spec (N7). -/
  | notSystem
  /-- Opcode SYSTEM with `funct3` 000 or 100: "not CSR instructions ... outside this spec" (R103). -/
  | notCsrAccess
deriving DecidableEq, Repr

/-! ## The fields of the I-type format (R101) -/

def fieldCsr (w : BitVec 32) : Nat := (w.extractLsb' 20 12).toNat
def fieldRs1 (w : BitVec 32) : Reg := (w.extractLsb' 15 5).toFin
def fieldUimm (w : BitVec 32) : BitVec 5 := w.extractLsb' 15 5
def fieldFunct3 (w : BitVec 32) : BitVec 3 := w.extractLsb' 12 3
def fieldRd (w : BitVec 32) : Reg := (w.extractLsb' 7 5).toFin
def fieldOpcode (w : BitVec 32) : BitVec 7 := w.extractLsb' 0 7

/-- The opcode of the CSR access instructions, `1110011` (SYSTEM, R101). -/
def opcodeSystem : BitVec 7 := 0b1110011#7

/-- `funct3` selects the instruction (R103). -/
def decodeFunct3 (w : BitVec 32) : Except DecodeError Instr :=
  match (fieldFunct3 w).toNat with
  | 1 => .ok (.csrrw (fieldRd w) (fieldCsr w) (fieldRs1 w))
  | 2 => .ok (.csrrs (fieldRd w) (fieldCsr w) (fieldRs1 w))
  | 3 => .ok (.csrrc (fieldRd w) (fieldCsr w) (fieldRs1 w))
  | 5 => .ok (.csrrwi (fieldRd w) (fieldCsr w) (fieldUimm w))
  | 6 => .ok (.csrrsi (fieldRd w) (fieldCsr w) (fieldUimm w))
  | 7 => .ok (.csrrci (fieldRd w) (fieldCsr w) (fieldUimm w))
  | _ => .error .notCsrAccess

/-- Decoding of one 32-bit instruction word (R101, R103). -/
def decodeWord (w : BitVec 32) : Except DecodeError Instr :=
  if w.extractLsb' 0 2 ≠ 3#2 ∨ w.extractLsb' 2 3 = 7#3 then .error .notThirtyTwoBits
  else if fieldOpcode w ≠ opcodeSystem then .error .notSystem
  else decodeFunct3 w

/-- The 32-bit word of four bytes fetched little-endian (R101): the first byte is bits 7:0. -/
def wordOfBytes (b0 b1 b2 b3 : Byte) : BitVec 32 := b3 ++ b2 ++ b1 ++ b0

/-- Decoding of a byte sequence: the instruction and the bytes that follow it. -/
def decodeBytes : List Byte → Except DecodeError (Instr × List Byte)
  | b0 :: b1 :: b2 :: b3 :: rest => (decodeWord (wordOfBytes b0 b1 b2 b3)).map (fun i => (i, rest))
  | _ => .error .truncated

/-- Byte `k` of a 32-bit word in its little-endian layout. -/
def byteOfWord (w : BitVec 32) (k : Nat) : Byte := w.extractLsb' (8 * k) 8

/-- The bytes of a 32-bit word, the one for the lowest address first. -/
def bytesOfWord (w : BitVec 32) : List Byte := [byteOfWord w 0, byteOfWord w 1, byteOfWord w 2, byteOfWord w 3]

/-- The I-type word `(csr << 20) | (rs1_or_uimm << 15) | (funct3 << 12) | (rd << 7) | 0x73` (R103). -/
def encodeFields (csr : Nat) (src : BitVec 5) (funct3 : BitVec 3) (rd : Reg) : BitVec 32 :=
  BitVec.ofNat 12 csr ++ src ++ funct3 ++ (BitVec.ofFin rd : BitVec 5) ++ opcodeSystem

/-- The word of an instruction (R103). -/
def encode : Instr → BitVec 32
  | .csrrw rd csr rs1 => encodeFields csr (BitVec.ofFin rs1) 1#3 rd
  | .csrrs rd csr rs1 => encodeFields csr (BitVec.ofFin rs1) 2#3 rd
  | .csrrc rd csr rs1 => encodeFields csr (BitVec.ofFin rs1) 3#3 rd
  | .csrrwi rd csr uimm => encodeFields csr uimm 5#3 rd
  | .csrrsi rd csr uimm => encodeFields csr uimm 6#3 rd
  | .csrrci rd csr uimm => encodeFields csr uimm 7#3 rd

/-- The instruction the decoder reads from an instruction whose bits, numbered as the opcode table numbers them, are
`w`: the word's bytes are laid out little-endian and given to the decoder. A row has one 32-bit word; bits of `w` at or
above `nbits` are 0. -/
def decodeTableWord (nbits w : Nat) : Option Instr :=
  match decodeBytes (bytesOfWord (BitVec.ofNat 32 (w % 2 ^ nbits))) with
  | .ok (i, _) => some i
  | .error _ => none

end Sys2Proof
end

