-- ==== Sys2Proof/Machine/State.lean ====
section
/-! DEFINITION. The state of one hart with its trace encoder and its trace sink (R10), as plain data; the reasons a step
can stop; and the state after reset. -/

namespace Sys2Proof.Machine

/-! ## Trace control -/

/-- The stored fields of `mstrcctl` (R21), in the order of their bits. EMPTY (bit 1) is not stored: it is computed from
the internal trace buffers (R23). The `WPRI` ranges hold no state (R43). -/
structure StrcCtl where
  en : Bool
  it : Bool
  cen : Bool
  iten : Bool
  stof : Bool
  sten : Bool
  smod : BitVec 2
  smax : BitVec 4
  nta : Bool
  esj : Bool
  eir : Bool
  ebp : Bool
  etc : Bool
  erh : Bool
  eaj : Bool
  eam : Bool
  tsen : Bool
  u : Bool
  s : Bool
  m : Bool
deriving DecidableEq, Repr, Inhabited

/-- The two bits of state `vsstrcctl` has of its own: bit 62 enables VS-mode, bit 61 enables VU-mode (R45, D4). -/
structure VsStrcCtl where
  s : Bool
  u : Bool
deriving DecidableEq, Repr, Inhabited

/-! ## Environment, state-enable and context registers -/

/-- The registers in which the extension owns or reads single bits (R46, R47, R50, R51, R52), the context CSRs (R53,
R54) and `htimedelta` (R55). Each `…Rest` holds the bits of its CSR that the spec does not describe. -/
structure EnvRegs where
  /-- `menvcfg`.STRCS, bit 58. -/
  strcs : Bool
  menvcfgRest : Word
  /-- The stored `henvcfg`.STRCV, bit 58. -/
  strcv : Bool
  henvcfgRest : Word
  /-- The stored `mstateen0`.STRC, bit `STRC_SE_BIT`. -/
  mstrc : Bool
  /-- `mstateen0`[57]. -/
  mctx : Bool
  mstateen0Rest : Word
  /-- The stored `hstateen0`.STRC. -/
  hstrc : Bool
  /-- The stored `hstateen0`[57]. -/
  hctx : Bool
  hstateen0Rest : Word
  scontext : BitVec 32
  hcontext : BitVec 32
  htimedelta : Word
deriving DecidableEq, Repr, Inhabited

/-! ## Trap registers (R246) -/

/-- `mstatus`: the fields R246 and R272 name, and the bits the spec does not describe. -/
structure MStatus where
  sie : Bool
  mie : Bool
  spie : Bool
  mpie : Bool
  /-- SPP: the trap into S-mode came from S-mode (true) or U-mode (false). -/
  spp : Bool
  mpp : Priv
  mprv : Bool
  mpv : Bool
  rest : Word
deriving DecidableEq, Repr, Inhabited

/-- `vsstatus`: the virtual-supervisor copy of the fields a trap saves into (R246). -/
structure VsStatus where
  sie : Bool
  spie : Bool
  spp : Bool
  rest : Word
deriving DecidableEq, Repr, Inhabited

/-- `hstatus`: SPV saves the virtualization mode on a trap into HS-mode. -/
structure HStatus where
  spv : Bool
  rest : Word
deriving DecidableEq, Repr, Inhabited

/-- The trap registers R246 names: the machine set, the supervisor set, the virtual-supervisor set, and the delegation
registers. -/
structure TrapRegs where
  mstatus : MStatus
  mtvec : Word
  mepc : Word
  mcause : Word
  mtval : Word
  medeleg : Word
  mideleg : Word
  stvec : Word
  sepc : Word
  scause : Word
  stval : Word
  hstatus : HStatus
  hedeleg : Word
  hideleg : Word
  vsstatus : VsStatus
  vstvec : Word
  vsepc : Word
  vscause : Word
  vstval : Word
deriving DecidableEq, Repr, Inhabited

/-! ## The trace encoder (R159) -/

/-- An item that has been generated and waits for space: its record, and the bytes it has become (R170, R171). -/
structure Waiting where
  record : Record
  body : List Byte
deriving DecidableEq, Repr, Inhabited

/-- The state of the trace encoder: the internal trace buffers (R57), the sync event counter (R58), the compression
state (R59), whether a trace session has started and not yet ended (R159), and its abstract output.
Of the model's own: `transferTime` (the timestamp of the last control transfer that no packet has reported, R178),
`dropping` (an overflow is under way, R170: "and possibly later ones"), `owed` (items that wait for space while
STEN = 1, R171), `held` (the bytes of the item of the instruction that is stalled, none when the hart is not stalled by
an instruction, R171), `produced` (how many bytes of the stream the encoder has produced, R187) and `drawn` (how many free
values it has used). -/
structure Encoder where
  buffer : List Byte
  syncCount : Nat
  compression : Nat
  active : Bool
  transferTime : Option Timestamp
  dropping : Bool
  owed : List Waiting
  held : List Byte
  produced : Nat
  drawn : Nat
  /-- The abstract sequence of trace items, oldest first. -/
  trace : List Record
deriving DecidableEq, Repr, Inhabited

/-! ## Inputs and the other agents' turns -/

/-- The trace actions of Sdtrig triggers (R166). -/
inductive TriggerAction where
  | traceOn
  | traceOff
  | notify
deriving DecidableEq, Repr

/-- What an instruction of the base ISA, which is not in the spec (N7), does when it retires: an input to the model. -/
inductive HostOp where
  /-- A sequential instruction that writes `rd` (also `wfi`, which is an ordinary retired instruction, D19). -/
  | compute (rd : Reg) (value : Word)
  /-- An 8-byte load (program P2), in the byte order of the hart's data accesses (R86). -/
  | load (rd : Reg) (addr : Word)
  /-- A store of a value given by its bytes, the least significant first, in the byte order of the hart's data accesses
  (R86). -/
  | store (addr : Word) (bytes : List Byte)
  /-- A control transfer that writes `rd` and goes to `target`. -/
  | transfer (kind : FlowKind) (rd : Reg) (value target : Word)
  /-- `mret`, the return from a trap into M-mode (R246). -/
  | mret
  /-- `sret`, the return from a trap into HS-mode or VS-mode (R246). -/
  | sret
deriving DecidableEq, Repr

/-- What the hart does next, where it is not an instruction of the opcode table fetched from memory. An entry stays the
next one until the hart has done it: a stalled instruction retires later (R171), and nothing overtakes it (U10). -/
inductive HartInput where
  /-- An instruction of the opcode table, fetched at the pc. -/
  | table
  /-- One instruction of the base ISA, 2 bytes long when `compressed`. -/
  | retire (compressed : Bool) (op : HostOp)
  /-- An exception of a base instruction, or an interrupt (R244, R246). Every cause code has 6 bits (DESIGN CHOICE, log
  entry 61). -/
  | trap (interrupt : Bool) (cause : BitVec 6) (tval : Word)
deriving DecidableEq, Repr

/-- One entry of the agenda: whose turn it is, and the input that comes with the turn. -/
inductive Action where
  /-- The hart's turn. -/
  | hart
  /-- An Sdtrig trigger with a trace action fires (R166). -/
  | trigger (action : TriggerAction)
  /-- The external debugger writes `trTeControl.trTeDisSelfHosted` (R220). -/
  | debuggerSetDis (value : Bool)
  /-- The hart enters or leaves Debug Mode (D21). -/
  | debugMode (value : Bool)
  /-- The encoder emits an item it is free to emit. -/
  | encoderItem (item : ExtraItem)
  /-- The encoder hands one byte to the sink (R82 `push`). -/
  | handOver
  /-- The memory system makes the sink able, or unable, to accept a byte (R82 `accept`). -/
  | sinkReady (value : Bool)
  /-- The sink performs the writes of `n` of the bytes it holds (R82 `drain`). -/
  | drain (n : Nat)
  /-- A memory write of the sink faults (R242). -/
  | drainFault
  /-- One hart clock cycle, of the clock of the `cycle` counter (R55), spent `waiting` (in a `wfi`, R257) or not. -/
  | hartClock (waiting : Bool)
  /-- The `time` counter advances (R55, R253). -/
  | timeAdvance (n : Word)
  /-- The host hart's VMID changes (N13). -/
  | vmidChange (value : BitVec 14)
deriving DecidableEq, Repr

/-! ## Stops -/

/-- Why the machine stops with a fault. -/
inductive Fault where
  /-- Raised by the fetch when the program counter is odd: instruction addresses are multiples of 2 (R61, R87), and no
  reachable state of the model has an odd one. Safe: the model stops where the spec describes no machine. -/
  | pcMisaligned
deriving DecidableEq, Repr

/-- Why the model gives an instruction no meaning. -/
inductive Refusal where
  /-- An instruction of the opcode table whose meaning has not been written. Safe. -/
  | notModelled (mnemonic : String)
  /-- Raised by the hart's turn when the fetched word is no instruction of spec/opcode_table.json: the base ISA is out of
  scope (00_scope.md section 3, N7). Safe: the model says nothing about it; `HartInput.retire` stands for it. -/
  | outsideTable (reason : DecodeError)
deriving DecidableEq, Repr

/-! ## CSR names -/

/-- The CSRs the spec names. -/
inductive CsrId where
  | mstrcctl
  | sstrcctl
  | vsstrcctl
  | sstrcambcs
  | sstrcambaddr
  | menvcfg
  | henvcfg
  | mstateen0
  | hstateen0
  | scontext
  | hcontext
  | htimedelta
  | cycle
  | time
  | mstatus
  | medeleg
  | mideleg
  | mtvec
  | mepc
  | mcause
  | mtval
  | sstatus
  | stvec
  | sepc
  | scause
  | stval
  | hstatus
  | hedeleg
  | hideleg
  | vsstatus
  | vstvec
  | vsepc
  | vscause
  | vstval
deriving DecidableEq, Repr

/-- The two exceptions the extension raises (R240, R241, R242). -/
inductive Exc where
  | illegalInstruction
  | virtualInstruction
deriving DecidableEq, Repr

/-! ## The state -/

/-- The machine: one hart, its trace encoder and its trace sink. -/
structure State where
  /-- The implementation's parameters (R5). No step changes them. -/
  cfg : Config
  /-- The general registers x0 to x31 (R60). -/
  x : Vector Word 32
  pc : Word
  priv : Priv
  /-- V, the virtualization mode (R8). -/
  virt : Bool
  /-- Whether the hart is in Debug Mode (D21). -/
  debugMode : Bool
  trap : TrapRegs
  env : EnvRegs
  /-- The `time` counter (R55). -/
  time : Word
  /-- The `cycle` counter (R55). -/
  cycle : Word
  /-- The hart's VMID (R165, N13). -/
  vmid : BitVec 14
  ctl : StrcCtl
  vsctl : VsStrcCtl
  /-- `trTeControl.trTeDisSelfHosted` (R56). -/
  dis : Bool
  enc : Encoder
  amb : Amb
  /-- The data memory (R80): the listed bytes, addresses strictly rising; an unlisted address reads as zero. -/
  mem : List Host.Cell
  /-- The turns and inputs to come, in order. When none is left, it is the hart's turn. -/
  agenda : List Action
  /-- What the hart does at its turns, in order. When none is left, it executes instructions of the opcode table. -/
  hartInputs : List HartInput
  /-- The model's own: how many of the sink's oldest pending writes were handed to it before a read of EMPTY = 1, and are
  therefore to be visible to the loads that follow that read (R84). -/
  promised : Nat
  /-- How many free values the machine has used. -/
  draws : Nat
deriving DecidableEq, Repr

/-! ## Reset -/

/-- `RESET_*` of 92_eei_decisions.md section 2: the values the source leaves to each implementation (R62, R270). -/
structure ResetValues where
  ctl : StrcCtl
  vsctl : VsStrcCtl
  strcs : Bool
  strcv : Bool
  mstrc : Bool
  hstrc : Bool
  scontext : BitVec 32
  hcontext : BitVec 32
  amb : AmbRegs
  dis : Bool
deriving DecidableEq, Repr, Inhabited

/-- Every reset value zero. DESIGN CHOICE (R62, R270 give none); `mstrc` = 0 is the family's value (PRESUMED). -/
def ResetValues.zero : ResetValues where
  ctl := ⟨false, false, false, false, false, false, 0, 0, false, false, false, false, false, false, false, false, false,
    false, false, false⟩
  vsctl := ⟨false, false⟩
  strcs := false
  strcv := false
  mstrc := false
  hstrc := false
  scontext := 0
  hcontext := 0
  amb := ⟨0, 0, 0, true, 0, 0, false, 0⟩
  dis := false

/-- The trap registers after reset: MIE = 0 and MPRV = 0 (R272); the rest are the family's values (PRESUMED, log entry 6):
zero, but for UXL = SXL = VSXL = 2 on a hart with `MXLEN` = 64. -/
def TrapRegs.reset : TrapRegs where
  mstatus := ⟨false, false, false, false, false, .user, false, false, 0x0000_000A_0000_0000⟩
  mtvec := 0
  mepc := 0
  mcause := 0
  mtval := 0
  medeleg := 0
  mideleg := 0
  stvec := 0
  sepc := 0
  scause := 0
  stval := 0
  hstatus := ⟨false, 0x0000_0002_0000_0000⟩
  hedeleg := 0
  hideleg := 0
  vsstatus := ⟨false, false, false, 0x0000_0002_0000_0000⟩
  vstvec := 0
  vsepc := 0
  vscause := 0
  vstval := 0

/-- The machine right after reset, for an implementation and its reset values: M-mode, V = 0, `pc` at the reset vector
(R272), the internal buffers empty, no session unless EN resets to 1, memory with nothing listed. The encoder's hidden
state starts afresh too, also where EN resets to 1, which the spec does not say (DESIGN CHOICE, log entry 3): no overflow
under way, no control transfer waiting to be reported, no item waiting, stream position 0. -/
def State.resetWith (c : Config) (r : ResetValues) : State where
  cfg := c
  x := Vector.replicate 32 0
  pc := c.resetVector
  priv := .machine
  virt := false
  debugMode := false
  trap := TrapRegs.reset
  env :=
    { strcs := r.strcs, menvcfgRest := 0, strcv := r.strcv, henvcfgRest := 0, mstrc := r.mstrc, mctx := false,
      mstateen0Rest := 0, hstrc := r.hstrc, hctx := false, hstateen0Rest := 0, scontext := r.scontext,
      hcontext := r.hcontext, htimedelta := 0 }
  time := 0
  cycle := 0
  vmid := 0
  ctl := r.ctl
  vsctl := r.vsctl
  dis := r.dis
  enc :=
    { buffer := [], syncCount := 0, compression := 0, active := r.ctl.en, transferTime := none, dropping := false,
      owed := [], held := [], produced := 0, drawn := 0, trace := [] }
  amb := { regs := r.amb, pending := [] }
  mem := []
  agenda := []
  hartInputs := []
  promised := 0
  draws := 0

/-- The machine right after reset. -/
def State.reset : State := State.resetWith Config.full ResetValues.zero

end Sys2Proof.Machine
end

