-- ==== Sys2Proof/Machine/Ops.lean ====
section
/-! DEFINITION. The named operations over memory, general registers, the program counter and the status registers; taking
a trap (R246) as one shared operation, and the returns from one beside it. -/

namespace Sys2Proof.Machine

open Host

/-! ## Memory (R80) -/

/-- What a byte of memory that nothing has written reads as. DESIGN CHOICE: the spec gives no reset contents. -/
def unlistedByte : Byte := 0

/-- The byte at an address. -/
def memRead : List Cell → Nat → Byte
  | [], _ => unlistedByte
  | (k, b) :: rest, a => if k = a then b else memRead rest a

/-- Memory with one byte written, in canonical form: addresses strictly rising, no entry equal to what an unlisted
address reads as. -/
def memWrite : List Cell → Nat → Byte → List Cell
  | [], a, v => if v = unlistedByte then [] else [(a, v)]
  | (k, b) :: rest, a, v =>
    if a < k then (if v = unlistedByte then (k, b) :: rest else (a, v) :: (k, b) :: rest)
    else if a = k then (if v = unlistedByte then rest else (a, v) :: rest)
    else (k, b) :: memWrite rest a v

/-- The canonical form of memory, over the 64-bit address space. -/
abbrev memWf (m : List Cell) : Prop :=
  m.Pairwise (fun c d => c.1 < d.1) ∧ ∀ c ∈ m, c.2 ≠ unlistedByte ∧ c.1 < 2 ^ 64

/-- The memory key of byte `i` of an access at `addr`: addresses wrap at 2^64. -/
def byteAddr (addr : Word) (i : Nat) : Nat := (addr + BitVec.ofNat 64 i).toNat

/-- `MemWrite(addr, n, v)` of R8, its bytes given in rising address order. -/
def memWriteBytes : List Cell → Word → List Byte → List Cell
  | m, _, [] => m
  | m, addr, b :: bs => memWriteBytes (memWrite m addr.toNat b) (addr + 1) bs

/-- The 32-bit word at an address, fetched little-endian (R101). -/
def fetchWord (m : List Cell) (pc : Word) : BitVec 32 :=
  wordOfBytes (memRead m (byteAddr pc 0)) (memRead m (byteAddr pc 1)) (memRead m (byteAddr pc 2)) (memRead m (byteAddr pc 3))

/-! ## General registers and the program counter (R8) -/

/-- `x[i]`: "`x[0]` reads 0" (R8). -/
def State.readReg (s : State) (r : Reg) : Word := if r = 0 then 0 else s.x[r]

/-- `x[i] <- v`: "a write to `x[0]` is discarded" (R8). -/
def State.writeReg (s : State) (r : Reg) (v : Word) : State :=
  if r = 0 then s else { s with x := s.x.set r v }

/-- `pc <- t`. -/
def State.setPc (s : State) (t : Word) : State := { s with pc := t }

/-- A code address with bit 0 clear: instructions are aligned to 2 bytes (R61, R87). -/
def evenAddr (t : Word) : Word := t &&& ~~~(1#64)

/-- The address in a trap vector register: its bits 1:0 are not address bits (PRESUMED, the family's MODE field). -/
def vectorAddr (t : Word) : Word := t &&& ~~~(3#64)

/-! ## Bits of a word -/

/-- The word that holds the field `v` with its least significant bit at position `i`, and 0 elsewhere. -/
def fieldAt {n : Nat} (i : Nat) (v : BitVec n) : Word := v.setWidth 64 <<< i

/-- The word that holds the bit `b` at position `i`, and 0 elsewhere. -/
def bitAt (i : Nat) (b : Bool) : Word := fieldAt i (BitVec.ofBool b)

/-- A word with bit `i` set to `b`. -/
def putBit (w : Word) (i : Nat) (b : Bool) : Word :=
  (w &&& ~~~bitAt i true) ||| bitAt i b

/-! ## Taking a trap (R246) -/

/-- The mode a trap is taken in. -/
inductive TrapTarget where
  | machine
  | supervisor
  | virtualSupervisor
deriving DecidableEq, Repr

/-- Whether a delegation register hands `cause` down. -/
def delegated (deleg : Word) (cause : BitVec 6) : Bool := deleg.getLsbD cause.toNat

/-- The cause code of an illegal-instruction exception (R240). -/
def causeIllegal : BitVec 6 := 2

/-- The cause code of a virtual-instruction exception (R241). -/
def causeVirtual : BitVec 6 := 22

/-- Where a trap goes: to M-mode, or to HS-mode when `medeleg`/`mideleg` delegates it, or to VS-mode when, from V = 1,
`hedeleg`/`hideleg` delegates it further (R246). A trap from M-mode stays in M-mode, and a virtual-instruction exception
is "never delegated to VS-mode" (R241). -/
def trapTarget (s : State) (interrupt : Bool) (cause : BitVec 6) : TrapTarget :=
  let mdeleg := if interrupt then s.trap.mideleg else s.trap.medeleg
  let hdeleg := if interrupt then s.trap.hideleg else s.trap.hedeleg
  if s.priv = .machine || !delegated mdeleg cause then .machine
  else if s.virt && delegated hdeleg cause && (interrupt || cause ≠ causeVirtual) then .virtualSupervisor
  else .supervisor

/-- A cause register: the interrupt bit (63) and the cause code (R246), of 6 bits (DESIGN CHOICE, log entry 61). -/
def causeWord (interrupt : Bool) (cause : BitVec 6) : Word := BitVec.ofBool interrupt ++ 0#57 ++ cause

/-- Trap entry into M-mode (R246). -/
def enterMachine (s : State) (interrupt : Bool) (cause : BitVec 6) (tval : Word) : State :=
  { s with
    pc := vectorAddr s.trap.mtvec
    priv := .machine
    virt := false
    trap := { s.trap with
      mepc := s.pc
      mcause := causeWord interrupt cause
      mtval := tval
      mstatus := { s.trap.mstatus with mpp := s.priv, mpv := s.virt, mpie := s.trap.mstatus.mie, mie := false } } }

/-- Trap entry into HS-mode (S-mode without H): "in the same way", with the supervisor registers (R246). -/
def enterSupervisor (s : State) (interrupt : Bool) (cause : BitVec 6) (tval : Word) : State :=
  { s with
    pc := vectorAddr s.trap.stvec
    priv := .supervisor
    virt := false
    trap := { s.trap with
      sepc := s.pc
      scause := causeWord interrupt cause
      stval := tval
      mstatus := { s.trap.mstatus with spp := s.priv ≠ .user, spie := s.trap.mstatus.sie, sie := false }
      hstatus := { s.trap.hstatus with spv := s.virt } } }

/-- Trap entry into VS-mode, with the `vs*` registers, "in the same way" (R246). The cause is the trap's own code, also for
a VS-level interrupt, whose code the family would lower by 1 (DESIGN CHOICE, log entry 59). -/
def enterVirtualSupervisor (s : State) (interrupt : Bool) (cause : BitVec 6) (tval : Word) : State :=
  { s with
    pc := vectorAddr s.trap.vstvec
    priv := .supervisor
    trap := { s.trap with
      vsepc := s.pc
      vscause := causeWord interrupt cause
      vstval := tval
      vsstatus := { s.trap.vsstatus with spp := s.priv ≠ .user, spie := s.trap.vsstatus.sie, sie := false } } }

/-- Taking a trap (R246): the saved registers of the mode it goes to, the status, the mode and the pc. No STRC CSR
changes. -/
def takeTrap (s : State) (interrupt : Bool) (cause : BitVec 6) (tval : Word) : State :=
  match trapTarget s interrupt cause with
  | .machine => enterMachine s interrupt cause tval
  | .supervisor => enterSupervisor s interrupt cause tval
  | .virtualSupervisor => enterVirtualSupervisor s interrupt cause tval

/-- The cause code of an exception of R240, R241. -/
def excCause : Exc → BitVec 6
  | .illegalInstruction => causeIllegal
  | .virtualInstruction => causeVirtual

/-- The trap value of such an exception: "the instruction's bits or zero" (R240, R241), as the implementation has it. -/
def excTval (c : Config) (word : BitVec 32) : Word := if c.tvalHoldsInstr then word.setWidth 64 else 0

/-- `raise IllegalInstruction`, `raise VirtualInstruction` (R8): the instruction at `pc`, whose bits are `word`, does not
complete, and the hart takes the exception. -/
def raiseExc (s : State) (e : Exc) (word : BitVec 32) : State := takeTrap s false (excCause e) (excTval s.cfg word)

/-! ## Returning from a trap (R246: "`mret` and `sret` reverse this") -/

/-- The privilege level SPP names. -/
def sppPriv (spp : Bool) : Priv := if spp then .supervisor else .user

/-- `mret` in M-mode: the mode and interrupt enable come back from `mstatus`, the pc from `mepc`. That MPIE becomes 1,
MPP becomes U, MPV becomes 0 and MPRV is cleared on leaving M-mode is PRESUMED (the family's rule). -/
def returnMachine (s : State) : State :=
  let st := s.trap.mstatus
  { s with
    pc := s.trap.mepc
    priv := st.mpp
    virt := s.cfg.hasH && st.mpv && st.mpp ≠ .machine
    trap := { s.trap with
      mstatus := { st with mie := st.mpie, mpie := true, mpp := .user, mpv := false,
                           mprv := st.mprv && st.mpp = .machine } } }

/-- `sret` with V = 0: out of a trap into HS-mode. -/
def returnSupervisor (s : State) : State :=
  let st := s.trap.mstatus
  { s with
    pc := s.trap.sepc
    priv := sppPriv st.spp
    virt := s.cfg.hasH && s.trap.hstatus.spv
    trap := { s.trap with
      mstatus := { st with sie := st.spie, spie := true, spp := false, mprv := false }
      hstatus := { s.trap.hstatus with spv := false } } }

/-- `sret` with V = 1: out of a trap into VS-mode. -/
def returnVirtualSupervisor (s : State) : State :=
  let st := s.trap.vsstatus
  { s with
    pc := s.trap.vsepc
    priv := sppPriv st.spp
    trap := { s.trap with vsstatus := { st with sie := st.spie, spie := true, spp := false } } }

/-- `sret` in the mode it is executed in. -/
def returnFromTrap (s : State) : State := if s.virt then returnVirtualSupervisor s else returnSupervisor s

end Sys2Proof.Machine
end

