-- ==== Sys2Proof/Machine/Flags.lean ====
section
/-! DEFINITION. The status and enable bits the extension computes from state. RISC-V has no flags or condition codes
(R60); what stands here is EMPTY (R23), the effective values of the bits that read 0 under a condition (R51, R131, R136,
R220), the guest configuration (R165), and when an instruction is traced (R160, R161). -/

namespace Sys2Proof.Machine

/-! ## Effective enable bits -/

/-- `mSTRC`: `mstateen0`.STRC, "taken as 1 when `HAS_SMSTATEEN` is false" (R136), read-only 0 while
`trTeDisSelfHosted` = 1 (R220 b, d). -/
def State.mSTRC (s : State) : Bool := !s.dis && (!s.cfg.hasSmstateen || s.env.mstrc)

/-- `hSTRC`: `hstateen0`.STRC; it "reads 0 when `mSTRC` = 0" (R136). -/
def State.hSTRC (s : State) : Bool := s.mSTRC && (!s.cfg.hasSmstateen || s.env.hstrc)

/-- `m57`: `mstateen0`[57], taken as 1 when `HAS_SMSTATEEN` is false (R136). -/
def State.m57 (s : State) : Bool := !s.cfg.hasSmstateen || s.env.mctx

/-- `h57`: `hstateen0`[57]; it "reads 0 when `m57` = 0" (R136). -/
def State.h57 (s : State) : Bool := s.m57 && (!s.cfg.hasSmstateen || s.env.hctx)

/-- `menvcfg`.STRCS as every reader sees it: read-only 0 while `trTeDisSelfHosted` = 1 (R46, R220 b). -/
def State.strcs (s : State) : Bool := !s.dis && s.env.strcs

/-- `henvcfg`.STRCV as every reader sees it: it exists only with H (R47) and is read-only 0 while `mstateen0`.STRC = 0
(R131, D15) or `trTeDisSelfHosted` = 1 (R220 b). -/
def State.strcv (s : State) : Bool := s.cfg.hasH && s.mSTRC && s.env.strcv

/-- `guest_cfg` (R165): "self-hosted trace is configured for use by a guest". -/
def State.guestCfg (s : State) : Bool := s.strcs && s.strcv

/-! ## EMPTY -/

/-- EMPTY: 1 if and only if the internal trace buffers hold no trace data (R23, R164). An item that waits for space
(`owed`) is trace data the encoder holds. -/
def State.empty (s : State) : Bool := s.enc.buffer.isEmpty && s.enc.owed.isEmpty

/-! ## When trace is generated -/

/-- The privilege mode filter: the mode of the retiring instruction selects one enable bit (R161). -/
def State.modeEnabled (s : State) : Bool :=
  match s.priv, s.virt with
  | .machine, _ => s.ctl.m
  | .supervisor, false => s.ctl.s
  | .user, false => s.ctl.u
  | .supervisor, true => s.vsctl.s
  | .user, true => s.vsctl.u

/-- Instruction trace is generated for an instruction that retires in this state (R160); none in Debug Mode (D21). -/
def State.generating (s : State) : Bool :=
  !s.dis && s.ctl.en && s.ctl.it && s.modeEnabled && !s.debugMode

/-- A trace session is running, so the encoder may emit the items it is free to emit (R160, R163 a). -/
def State.sessionOpen (s : State) : Bool := !s.dis && s.ctl.en && !s.debugMode

end Sys2Proof.Machine
end

