-- ==== Sys2Proof/Machine/Fields.lean ====
section
/-! DEFINITION. `mstrcctl` field by field: its layout (R21), what a write stores (R141), the two views of it (R44, R45). -/

namespace Sys2Proof.Machine

/-- The features of R200. -/
def StrcCtl.features (c : StrcCtl) : Features := ⟨c.nta, c.esj, c.eir, c.ebp, c.etc, c.erh, c.eaj, c.eam⟩

/-- The 64 bits of `mstrcctl` (R21): each stored field at its position, EMPTY at bit 1, every `WPRI` bit 0 (R43, R140). -/
def mstrcctlWord (c : StrcCtl) (empty : Bool) : Word :=
  bitAt 0 c.en ||| bitAt 1 empty ||| bitAt 2 c.it ||| bitAt 8 c.cen ||| bitAt 10 c.iten ||| bitAt 11 c.stof |||
  bitAt 12 c.sten ||| fieldAt 15 c.smod ||| fieldAt 19 c.smax ||| bitAt 32 c.nta ||| bitAt 33 c.esj ||| bitAt 34 c.eir |||
  bitAt 35 c.ebp ||| bitAt 36 c.etc ||| bitAt 37 c.erh ||| bitAt 38 c.eaj ||| bitAt 39 c.eam ||| bitAt 60 c.tsen |||
  bitAt 61 c.u ||| bitAt 62 c.s ||| bitAt 63 c.m

/-- Whether an SMOD value is legal: 0, or in `SMOD_IMPL` (R29). -/
def smodLegal (c : Config) (v : BitVec 2) : Bool :=
  match v.toNat with
  | 0 => true
  | 1 => c.smodImpl1
  | 2 => c.smodImpl2
  | _ => c.smodImpl3

/-- `smod_legalize` (D17). -/
def smodLegalize (c : Config) (v : BitVec 2) : BitVec 2 :=
  match v.toNat with
  | 0 => 0
  | 1 => c.smodLegalize1
  | 2 => c.smodLegalize2
  | _ => c.smodLegalize3

/-- What a write of an SMOD value stores (R29, R141). -/
def smodStored (c : Config) (v : BitVec 2) : BitVec 2 := if smodLegal c v then v else smodLegalize c v

/-- What `csr_write(mstrcctl, w)` stores (R141): each field from its bits, an unimplemented optional field 0, EMPTY and
the `WPRI` bits of `w` ignored. -/
def mstrcctlFields (c : Config) (w : Word) : StrcCtl where
  en := w.getLsbD 0
  it := w.getLsbD 2
  cen := w.getLsbD 8
  iten := c.implIten && w.getLsbD 10
  stof := w.getLsbD 11
  sten := c.implSten && w.getLsbD 12
  smod := smodStored c (w.extractLsb' 15 2)
  smax := w.extractLsb' 19 4
  nta := c.implNta && w.getLsbD 32
  esj := c.implEsj && w.getLsbD 33
  eir := c.implEir && w.getLsbD 34
  ebp := c.implEbp && w.getLsbD 35
  etc := c.implEtc && w.getLsbD 36
  erh := c.implErh && w.getLsbD 37
  eaj := c.implEaj && w.getLsbD 38
  eam := c.implEam && w.getLsbD 39
  tsen := w.getLsbD 60
  u := w.getLsbD 61
  s := w.getLsbD 62
  m := w.getLsbD 63

/-- `csr_read(mstrcctl)` (R140). -/
def State.readMstrcctl (s : State) : Word := mstrcctlWord s.ctl s.empty

/-- `csr_read(sstrcctl)`: bit 63 is read-only 0 (R44, R140). -/
def State.readSstrcctl (s : State) : Word := s.readMstrcctl &&& 0x7FFF_FFFF_FFFF_FFFF#64

/-- `csr_read(vsstrcctl)` = { 0, vsstrcctl.S, vsstrcctl.U, mstrcctl_value[60:0] } (R45, R140). -/
def State.readVsstrcctl (s : State) : Word :=
  0#1 ++ BitVec.ofBool s.vsctl.s ++ BitVec.ofBool s.vsctl.u ++ s.readMstrcctl.extractLsb' 0 61

/-- `csr_write(mstrcctl, w)` (R141). Its effects on the encoder (R144) are the encoder's reaction to the change of EN,
in the same step: `encoderReacts` of Encoder.lean. -/
def State.writeMstrcctl (s : State) (w : Word) : State := { s with ctl := mstrcctlFields s.cfg w }

/-- `csr_write(sstrcctl, w)` is `csr_write(mstrcctl, {old.M, w[62:0]})` (R142). -/
def State.writeSstrcctl (s : State) (w : Word) : State :=
  s.writeMstrcctl (BitVec.ofBool s.ctl.m ++ w.extractLsb' 0 63)

/-- `csr_write(vsstrcctl, w)` (R143): its own S and U, and bits 60:0 of `mstrcctl`, whose M, S and U keep their values. -/
def State.writeVsstrcctl (s : State) (w : Word) : State :=
  { s with vsctl := { s := w.getLsbD 62, u := w.getLsbD 61 } }.writeMstrcctl
    (BitVec.ofBool s.ctl.m ++ BitVec.ofBool s.ctl.s ++ BitVec.ofBool s.ctl.u ++ w.extractLsb' 0 61)

end Sys2Proof.Machine
end

