-- ==== Sys2Proof/Machine/Operands.lean ====
section
/-! DEFINITION. The operand forms of the CSR access instructions (R102, R121 to R126): the source operand, whether the
form writes the CSR (`is_write`, R120), and the new value it writes. -/

namespace Sys2Proof.Machine

/-- The register source operand `x[rs1]` (R121 to R123). -/
def regOperand (s : State) (rs1 : Reg) : Word := s.readReg rs1

/-- The immediate source operand `zext_64(uimm)`; "it is never sign-extended" (R102). -/
def immOperand (uimm : BitVec 5) : Word := uimm.setWidth 64

/-- `is_write` of `csrrs` and `csrrc`: "when `rs1 != 0` (the register number, not its value)" (R120). -/
def regWrites (rs1 : Reg) : Bool := rs1 ≠ 0

/-- `is_write` of `csrrsi` and `csrrci`: "when `uimm != 0`" (R120). -/
def immWrites (uimm : BitVec 5) : Bool := uimm ≠ 0

/-- The value the set forms write: `t | v` (R122, R125). -/
def setBits (t v : Word) : Word := t ||| v

/-- The value the clear forms write: `t & ~v` (R123, R126). -/
def clearBits (t v : Word) : Word := t &&& ~~~v

end Sys2Proof.Machine
end

