-- ==== Sys2Proof/Machine/Csr.lean ====
section
/-! DEFINITION. The CSRs: their numbers (R104, R105), the substitution when V = 1 (R137), the access check (R128 to
R136), and what a read (R140) and a write (R141 to R146) of each does. -/

namespace Sys2Proof.Machine

/-! ## CSR numbers -/

/-- The numbers of the CSRs the spec reads but does not define (R105), and of the trap registers R246 names, whose
numbers the spec does not give (PRESUMED: the family's). -/
def hostCsrTable : List (Nat × CsrId) :=
  [(0x30A, .menvcfg), (0x60A, .henvcfg), (0x30C, .mstateen0), (0x60C, .hstateen0), (0x5A8, .scontext),
   (0x6A8, .hcontext), (0x605, .htimedelta), (0xC00, .cycle), (0xC01, .time)] ++
  [(0x300, .mstatus), (0x302, .medeleg), (0x303, .mideleg), (0x305, .mtvec), (0x341, .mepc), (0x342, .mcause),
   (0x343, .mtval), (0x100, .sstatus), (0x105, .stvec), (0x141, .sepc), (0x142, .scause), (0x143, .stval),
   (0x600, .hstatus), (0x602, .hedeleg), (0x603, .hideleg), (0x200, .vsstatus), (0x205, .vstvec), (0x241, .vsepc),
   (0x242, .vscause), (0x243, .vstval)]

/-- The CSR a number names in an instruction, before the substitution of R137; none when the hart has no such CSR. -/
def csrOf (c : Config) (n : Nat) : Option CsrId :=
  if n = c.csrMstrcctl then some .mstrcctl
  else if n = c.csrSstrcctl then some .sstrcctl
  else if n = c.csrVsstrcctl then some .vsstrcctl
  else if n = c.csrSstrcambcs then some .sstrcambcs
  else if n = c.csrSstrcambaddr then some .sstrcambaddr
  else hostCsrTable.lookup n

/-- `resolve` (R137): "When V=1, `vsstrcctl` substitutes for the usual `sstrcctl`"; no other STRC CSR is substituted.
That the supervisor trap registers have VS copies which substitute in the same way is R246's and N2's (PRESUMED). -/
def resolveCsr (id : CsrId) (virt : Bool) : CsrId :=
  if virt then
    match id with
    | .sstrcctl => .vsstrcctl
    | .sstatus => .vsstatus
    | .stvec => .vstvec
    | .sepc => .vsepc
    | .scause => .vscause
    | .stval => .vstval
    | other => other
  else id

/-! ## Access control -/

/-- `strc_s` of R136: supervisor STRC state (`sstrc*`). -/
def CsrId.isStrcS : CsrId → Bool
  | .sstrcctl | .sstrcambcs | .sstrcambaddr => true
  | _ => false

/-- The five STRC CSRs (R128). -/
def CsrId.isStrc : CsrId → Bool
  | .mstrcctl | .vsstrcctl => true
  | id => id.isStrcS

/-- The CSRs that show `mstrcctl`: itself and its two views (R44, R45). -/
def CsrId.isControl : CsrId → Bool
  | .mstrcctl | .sstrcctl | .vsstrcctl => true
  | _ => false

/-- The context CSRs (R134). -/
def CsrId.isContext : CsrId → Bool
  | .scontext | .hcontext => true
  | _ => false

/-- Whether the hart implements a CSR that is not an STRC CSR: the hypervisor and VS registers need H, `mstateen0` and
`hstateen0` need Smstateen (R47, R50, R51); `hcontext` is required in every configuration (R54). -/
def hostCsrExists (c : Config) : CsrId → Bool
  | .henvcfg | .htimedelta | .hstatus | .hedeleg | .hideleg | .vsstatus | .vstvec | .vsepc | .vscause | .vstval => c.hasH
  | .mstateen0 => c.hasSmstateen
  | .hstateen0 => c.hasH && c.hasSmstateen
  | _ => true

/-- `csr[11:10] = 11`: a read-only CSR (R104). -/
def csrReadOnly (n : Nat) : Bool := n / 1024 % 4 = 3

/-- `csr[9:8]`: the lowest privilege level that may access the CSR (R104). -/
def csrLevel (n : Nat) : Nat := n / 256 % 4

/-- The access check of R136 for the STRC CSRs and the context CSRs, its steps in its order. -/
def checkStrcAccess (s : State) (id : CsrId) : Option Exc :=
  -- 1. existence (R128)
  if id.isStrc && s.dis then some .illegalInstruction
  else if id = .vsstrcctl && !s.cfg.hasH then some .illegalInstruction
  -- 2. machine-level register (R129)
  else if id = .mstrcctl then (if s.priv = .machine then none else some .illegalInstruction)
  else if s.priv = .machine then none
  -- 3. machine-level state enable (R131, R134)
  else if (id.isStrcS || id = .vsstrcctl) && !s.mSTRC then some .illegalInstruction
  else if id.isContext && !s.mSTRC && !s.m57 then some .illegalInstruction
  -- 4. privilege by CSR number (R129)
  else if !s.virt && s.priv = .user then some .illegalInstruction
  else if s.virt && (id = .vsstrcctl || id = .hcontext) then some .virtualInstruction
  else if s.virt && s.priv = .user then some .virtualInstruction
  -- 5. hypervisor-level state enable (R133, R135)
  else if s.virt && id.isStrcS && !s.hSTRC then some .virtualInstruction
  else if s.virt && id = .scontext && !s.hSTRC && !s.h57 then some .virtualInstruction
  else none

/-- The access check for the other CSRs: existence (R106), then read-only (R104) and privilege by CSR number (R104,
R129). -/
def checkHostAccess (s : State) (id : CsrId) (n : Nat) (isWrite : Bool) : Option Exc :=
  if !hostCsrExists s.cfg id then some .illegalInstruction
  else if csrReadOnly n && isWrite then some .illegalInstruction
  else if s.priv = .machine then none
  else if csrLevel n = 3 then some .illegalInstruction
  else if csrLevel n = 0 then none
  else if !s.virt then (if s.priv = .user then some .illegalInstruction else none)
  else if csrLevel n = 2 || s.priv = .user then some .virtualInstruction
  else none

/-- `check_access` (R136) of an instruction that names the CSR number `n`; none when the access is allowed. A number
the hart does not implement raises an illegal-instruction exception (R106). -/
def checkAccess (s : State) (n : Nat) (isWrite : Bool) : Option Exc :=
  match csrOf s.cfg n with
  | none => some .illegalInstruction
  | some id => if id.isStrc || id.isContext then checkStrcAccess s id else checkHostAccess s id n isWrite

/-! ## Reads -/

/-- `mstatus` as a 64-bit register. The positions of its fields are PRESUMED (the family's). -/
def mstatusWord (m : MStatus) : Word :=
  putBit (putBit (putBit (putBit (putBit (putBit (putBit (putBit (putBit m.rest 1 m.sie) 3 m.mie) 5 m.spie) 7 m.mpie)
    8 m.spp) 11 (m.mpp ≠ .user)) 12 (m.mpp = .machine)) 17 m.mprv) 39 m.mpv

/-- The bits the spec does not describe that `sstatus` shows of `mstatus` (PRESUMED: UBE, VS, FS, XS, SUM, MXR, UXL,
SD). -/
def sstatusRestMask : Word := 0x8000_0003_000D_E640#64

/-- `sstatus`, the supervisor's view of `mstatus`. -/
def sstatusWord (m : MStatus) : Word :=
  putBit (putBit (putBit (m.rest &&& sstatusRestMask) 1 m.sie) 5 m.spie) 8 m.spp

/-- `vsstatus` as a 64-bit register. -/
def vsstatusWord (v : VsStatus) : Word := putBit (putBit (putBit v.rest 1 v.sie) 5 v.spie) 8 v.spp

/-- `hstatus` as a 64-bit register; SPV is bit 7 (PRESUMED). -/
def hstatusWord (h : HStatus) : Word := putBit h.rest 7 h.spv

/-- `csr_read(c)` of the CSR an access resolves to. For the STRC CSRs it is R140's table; `henvcfg` and `hstateen0` show
STRCV and STRC as 0 while `mstateen0`.STRC = 0 (R140), and the bits of R220 (b) read 0 while `trTeDisSelfHosted` = 1. A
read of `time` with V = 1 returns `time + htimedelta` (R55). A read has no side effect. -/
def csrRead (s : State) : CsrId → Word
  | .mstrcctl => s.readMstrcctl
  | .sstrcctl => s.readSstrcctl
  | .vsstrcctl => s.readVsstrcctl
  | .sstrcambcs => Config.ambReadCs s.amb
  | .sstrcambaddr => Config.ambReadAddr s.amb
  | .menvcfg => putBit s.env.menvcfgRest 58 s.strcs
  | .henvcfg => putBit s.env.henvcfgRest 58 s.strcv
  | .mstateen0 => putBit (putBit s.env.mstateen0Rest 57 s.env.mctx) s.cfg.strcSeBit s.mSTRC
  | .hstateen0 => putBit (putBit s.env.hstateen0Rest 57 s.h57) s.cfg.strcSeBit s.hSTRC
  | .scontext => s.env.scontext.setWidth 64
  | .hcontext => s.env.hcontext.setWidth 64
  | .htimedelta => s.env.htimedelta
  | .cycle => s.cycle
  | .time => if s.virt then s.time + s.env.htimedelta else s.time
  | .mstatus => mstatusWord s.trap.mstatus
  | .medeleg => s.trap.medeleg
  | .mideleg => s.trap.mideleg
  | .mtvec => s.trap.mtvec
  | .mepc => s.trap.mepc
  | .mcause => s.trap.mcause
  | .mtval => s.trap.mtval
  | .sstatus => sstatusWord s.trap.mstatus
  | .stvec => s.trap.stvec
  | .sepc => s.trap.sepc
  | .scause => s.trap.scause
  | .stval => s.trap.stval
  | .hstatus => hstatusWord s.trap.hstatus
  | .hedeleg => s.trap.hedeleg
  | .hideleg => s.trap.hideleg
  | .vsstatus => vsstatusWord s.trap.vsstatus
  | .vstvec => s.trap.vstvec
  | .vsepc => s.trap.vsepc
  | .vscause => s.trap.vscause
  | .vstval => s.trap.vstval

/-! ## Writes -/

/-- The value a context CSR with `bits` implemented low bits stores (R53, R54, D20). -/
def contextStored (bits : Nat) (w : Word) : BitVec 32 := BitVec.ofNat 32 (w.toNat % 2 ^ bits)

/-- A write of `menvcfg` (R146): STRCS from bit 58, read-only 0 while `trTeDisSelfHosted` = 1. -/
def writeMenvcfg (s : State) (w : Word) : State :=
  { s with env := { s.env with
      strcs := if s.dis then s.env.strcs else w.getLsbD 58
      menvcfgRest := Config.hostWarl 0x30A s.env.menvcfgRest w } }

/-- A write of `henvcfg` (R146): STRCV from bit 58 when `mstateen0`.STRC = 1, ignored otherwise. -/
def writeHenvcfg (s : State) (w : Word) : State :=
  { s with env := { s.env with
      strcv := if s.mSTRC then w.getLsbD 58 else s.env.strcv
      henvcfgRest := Config.hostWarl 0x60A s.env.henvcfgRest w } }

/-- A write of `mstateen0` (R146). When STRC goes from 0 to 1, STRCV and `hstateen0`.STRC become free values: what they
hold "after `mstateen0`.STRC returns to 1, if not written since, is a `draw`" (D15, R51, R283). The same is done for
`hstateen0`[57] when bit 57 goes from 0 to 1. -/
def writeMstateen0 (s : State) (w : Word) : State :=
  let strc := if s.dis then s.env.mstrc else w.getLsbD s.cfg.strcSeBit
  let ctx := w.getLsbD 57
  { s with
    draws := s.draws + 3
    env := { s.env with
      mstrc := strc
      mctx := ctx
      mstateen0Rest := Config.hostWarl 0x30C s.env.mstateen0Rest w
      strcv := if strc && !s.env.mstrc then Config.freeBool .machine s.draws else s.env.strcv
      hstrc := if strc && !s.env.mstrc then Config.freeBool .machine (s.draws + 1) else s.env.hstrc
      hctx := if ctx && !s.env.mctx then Config.freeBool .machine (s.draws + 2) else s.env.hctx } }

/-- A write of `hstateen0` (R146): STRC when `mstateen0`.STRC = 1, bit 57 when `mstateen0`[57] = 1, ignored otherwise. -/
def writeHstateen0 (s : State) (w : Word) : State :=
  { s with env := { s.env with
      hstrc := if s.mSTRC then w.getLsbD s.cfg.strcSeBit else s.env.hstrc
      hctx := if s.m57 then w.getLsbD 57 else s.env.hctx
      hstateen0Rest := Config.hostWarl 0x60C s.env.hstateen0Rest w } }

/-- The legal privilege level a write of MPP stores: U = 0, S = 1, M = 3; the reserved 2 becomes a legal value that
nothing constrains. -/
def mppStored (w : Word) : Priv :=
  match (w.extractLsb' 11 2).toNat with
  | 0 => .user
  | 1 => .supervisor
  | 3 => .machine
  | _ => Config.mppWarl w

/-- A write of `mstatus`. MPV exists only with H. -/
def writeMstatus (s : State) (w : Word) : State :=
  { s with trap := { s.trap with mstatus :=
      { sie := w.getLsbD 1, mie := w.getLsbD 3, spie := w.getLsbD 5, mpie := w.getLsbD 7, spp := w.getLsbD 8,
        mpp := mppStored w, mprv := w.getLsbD 17, mpv := s.cfg.hasH && w.getLsbD 39,
        rest := Config.hostWarl 0x300 s.trap.mstatus.rest w } } }

/-- A write of `sstatus`: the fields of `mstatus` it shows. -/
def writeSstatus (s : State) (w : Word) : State :=
  { s with trap := { s.trap with mstatus := { s.trap.mstatus with
      sie := w.getLsbD 1
      spie := w.getLsbD 5
      spp := w.getLsbD 8
      rest := (s.trap.mstatus.rest &&& ~~~sstatusRestMask) |||
        (Config.hostWarl 0x100 s.trap.mstatus.rest w &&& sstatusRestMask) } } }

/-- A write of `vsstatus`. -/
def writeVsstatus (s : State) (w : Word) : State :=
  { s with trap := { s.trap with vsstatus :=
      { sie := w.getLsbD 1, spie := w.getLsbD 5, spp := w.getLsbD 8,
        rest := Config.hostWarl 0x200 s.trap.vsstatus.rest w } } }

/-- A write of `hstatus`. -/
def writeHstatus (s : State) (w : Word) : State :=
  { s with trap := { s.trap with hstatus :=
      { spv := w.getLsbD 7, rest := Config.hostWarl 0x600 s.trap.hstatus.rest w } } }

/-- `csr_write(c, w)` of the CSR an access resolves to (R141 to R146). `cycle` and `time` are read-only (R105): the
access check lets no write through to them. A write of `htimedelta` stores all 64 bits: the spec gives the register's
number, level and use, and does not say what a write stores (R55, R105; PRESUMED, log entry 7). A write of `sstrcambcs`
or `sstrcambaddr` reaches the AMB also while EN = 1 or EMPTY = 0: R278 leaves open whether it is allowed then (DESIGN
CHOICE, log entry 41). -/
def csrWrite (s : State) (id : CsrId) (w : Word) : State :=
  match id with
  | .mstrcctl => s.writeMstrcctl w
  | .sstrcctl => s.writeSstrcctl w
  | .vsstrcctl => s.writeVsstrcctl w
  | .sstrcambcs => { s with amb := { s.amb with regs := Config.ambWriteCs s.amb w } }
  | .sstrcambaddr => { s with amb := { s.amb with regs := Config.ambWriteAddr s.amb w } }
  | .menvcfg => writeMenvcfg s w
  | .henvcfg => writeHenvcfg s w
  | .mstateen0 => writeMstateen0 s w
  | .hstateen0 => writeHstateen0 s w
  | .scontext => { s with env := { s.env with scontext := contextStored s.cfg.scontextBits w } }
  | .hcontext => { s with env := { s.env with hcontext := contextStored s.cfg.hcontextBits w } }
  | .htimedelta => { s with env := { s.env with htimedelta := w } }
  | .cycle => s
  | .time => s
  | .mstatus => writeMstatus s w
  | .medeleg => { s with trap := { s.trap with medeleg := w } }
  | .mideleg => { s with trap := { s.trap with mideleg := w } }
  | .mtvec => { s with trap := { s.trap with mtvec := w } }
  | .mepc => { s with trap := { s.trap with mepc := evenAddr w } }
  | .mcause => { s with trap := { s.trap with mcause := w } }
  | .mtval => { s with trap := { s.trap with mtval := w } }
  | .sstatus => writeSstatus s w
  | .stvec => { s with trap := { s.trap with stvec := w } }
  | .sepc => { s with trap := { s.trap with sepc := evenAddr w } }
  | .scause => { s with trap := { s.trap with scause := w } }
  | .stval => { s with trap := { s.trap with stval := w } }
  | .hstatus => writeHstatus s w
  | .hedeleg => { s with trap := { s.trap with hedeleg := w } }
  | .hideleg => { s with trap := { s.trap with hideleg := w } }
  | .vsstatus => writeVsstatus s w
  | .vstvec => { s with trap := { s.trap with vstvec := w } }
  | .vsepc => { s with trap := { s.trap with vsepc := evenAddr w } }
  | .vscause => { s with trap := { s.trap with vscause := w } }
  | .vstval => { s with trap := { s.trap with vstval := w } }

/-! ## One CSR access instruction (R120) -/

/-- The steps of R120 after the check: read, write when the form writes, `x[rd] <- t`, `pc + 4`. That `csrrw` and
`csrrwi` do not read when `rd = x0` (R121, R124) is unobservable: no read has a side effect and the value is discarded. -/
def csrPerform (s : State) (id : CsrId) (isWrite : Bool) (newValue : Word → Word) (rd : Reg) : State :=
  let t := csrRead s id
  let s1 := if isWrite then csrWrite s id (newValue t) else s
  (s1.writeReg rd t).setPc (s.pc + 4)

/-- One CSR access instruction (R120): the check, which may raise, and then the access. `word` is the instruction's own
bits, for the trap value. -/
def csrAccess (s : State) (n : Nat) (isWrite : Bool) (newValue : Word → Word) (rd : Reg) (word : BitVec 32) : State :=
  match checkAccess s n isWrite with
  | some e => raiseExc s e word
  | none =>
    match csrOf s.cfg n with
    | none => raiseExc s .illegalInstruction word
    | some id => csrPerform s (resolveCsr id s.virt) isWrite newValue rd

end Sys2Proof.Machine
end

