-- ==== Sys2Proof/Machine/Zicsr.lean ====
section
/-! DEFINITION. The meanings of the six CSR access instructions (R121 to R126), over the shared steps of R120. -/

namespace Sys2Proof.Machine

/-- `csrrw rd, csr, rs1` (R121): `is_write` is true always, and the CSR is written with `x[rs1]`. -/
def execCsrrw (rd : Reg) (csr : Nat) (rs1 : Reg) (s : State) : Host.Outcome State Fault Refusal :=
  .next (csrAccess s csr true (fun _ => regOperand s rs1) rd (encode (.csrrw rd csr rs1)))

/-- `csrrs rd, csr, rs1` (R122): writes `t | x[rs1]` when `rs1 != 0`. -/
def execCsrrs (rd : Reg) (csr : Nat) (rs1 : Reg) (s : State) : Host.Outcome State Fault Refusal :=
  .next (csrAccess s csr (regWrites rs1) (fun t => setBits t (regOperand s rs1)) rd (encode (.csrrs rd csr rs1)))

/-- `csrrc rd, csr, rs1` (R123): writes `t & ~x[rs1]` when `rs1 != 0`. -/
def execCsrrc (rd : Reg) (csr : Nat) (rs1 : Reg) (s : State) : Host.Outcome State Fault Refusal :=
  .next (csrAccess s csr (regWrites rs1) (fun t => clearBits t (regOperand s rs1)) rd (encode (.csrrc rd csr rs1)))

/-- `csrrwi rd, csr, uimm` (R124): writes `zext_64(uimm)` always; `uimm = 0` is "write zero", not "no write". -/
def execCsrrwi (rd : Reg) (csr : Nat) (uimm : BitVec 5) (s : State) : Host.Outcome State Fault Refusal :=
  .next (csrAccess s csr true (fun _ => immOperand uimm) rd (encode (.csrrwi rd csr uimm)))

/-- `csrrsi rd, csr, uimm` (R125): writes `t | zext_64(uimm)` when `uimm != 0`. -/
def execCsrrsi (rd : Reg) (csr : Nat) (uimm : BitVec 5) (s : State) : Host.Outcome State Fault Refusal :=
  .next (csrAccess s csr (immWrites uimm) (fun t => setBits t (immOperand uimm)) rd (encode (.csrrsi rd csr uimm)))

/-- `csrrci rd, csr, uimm` (R126): writes `t & ~zext_64(uimm)` when `uimm != 0`. -/
def execCsrrci (rd : Reg) (csr : Nat) (uimm : BitVec 5) (s : State) : Host.Outcome State Fault Refusal :=
  .next (csrAccess s csr (immWrites uimm) (fun t => clearBits t (immOperand uimm)) rd (encode (.csrrci rd csr uimm)))

end Sys2Proof.Machine
end

