-- ==== Sys2Proof/Machine/Encoder.lean ====
section
/-! DEFINITION. The trace encoder (R159 to R203): what an item reports, how items become bytes in the internal trace
buffers, periodic synchronization, stall and overflow, and the encoder's reaction to an instruction. -/

namespace Sys2Proof.Machine

/-! ## What an item reports -/

/-- `reported_V` (R165): 0 in the guest configuration. -/
def State.reportedVirt (s : State) : Bool := !s.guestCfg && s.virt

/-- `reported_VMID` (R165): 0 in the guest configuration. -/
def State.reportedVmid (s : State) : BitVec 14 := if s.guestCfg then 0 else s.vmid

/-- The timestamp value (R174): `time` as read from the mode that STRCS and STRCV select, modulo 2^64. -/
def State.timestampValue (s : State) : Word := if s.guestCfg then s.time + s.env.htimedelta else s.time

/-- timestamp[time_width_p-1:16], reported in format 3 packets (R176). -/
def format3Time (timeWidth : Nat) (t : Word) : Word := BitVec.ofNat 64 (t.toNat % 2 ^ timeWidth / 2 ^ 16)

/-- timestamp[15:0], reported in the encapsulation (R176, R186, C13). -/
def encapTime (t : Word) : BitVec 16 := t.setWidth 16

/-- A timestamp value as an implementation reports it (R176, R177). -/
def timestampOf (c : Config) (t : Word) : Timestamp :=
  match c.kind with
  | .etrace => .etrace (format3Time c.etrace.timeWidth t) (encapTime t)
  | .ntrace => .ntrace t

/-- The timestamp reported with TSEN = 1, none with TSEN = 0 (R174). -/
def State.timestamp (s : State) : Option Timestamp :=
  if s.ctl.tsen then some (timestampOf s.cfg s.timestampValue) else none

/-- `context` = { zext_32(hcontext), zext_32(scontext) } (R180); its upper half is 0 in the guest configuration of an
implementation that hides `hcontext` (R181). -/
def State.contextValue (s : State) : BitVec 64 :=
  (if s.guestCfg && s.cfg.guestCtxHidesHcontext then 0#32 else s.env.hcontext) ++ s.env.scontext

/-- The context reported with CEN = 1, none with CEN = 0 (R180), and the VMID beside it (R165); its place is the model's
(DESIGN CHOICE, log entry 60). -/
def State.contextReport (s : State) : Option ContextReport :=
  if s.ctl.cen then some ⟨s.contextValue, s.reportedVmid⟩ else none

/-- The record of an item generated in this state. With CEN = 1 every record carries the context of its moment; which
packets report it is left to `Config.encode`, as R180 leaves it to the trace specifications (DESIGN CHOICE, log
entry 53). -/
def mkRecord (s : State) (item : Item) : Record :=
  { item := item, priv := s.priv, virt := s.reportedVirt, time := s.timestamp, context := s.contextReport }

/-! ## The timestamp of a packet that reports control transfers (R178) -/

/-- Whether an item is the retirement of a control transfer instruction. -/
def isTransfer : Item → Bool
  | .flow r => r.kind ≠ .sequential
  | _ => false

/-- The timestamp of the last control transfer that no packet has reported, the one of this record included. A transfer
that retired while TSEN was 0 has none (DESIGN CHOICE, log entry 27). -/
def lastTransfer (e : Encoder) (r : Record) : Option Timestamp := if isTransfer r.item then r.time else e.transferTime

/-- Whether the packet of this record reports the control transfers that wait to be reported. -/
def reports (c : Config) (f : StrcCtl) (e : Encoder) (r : Record) : Bool :=
  Config.reportsTransfers c f.features e.compression r

/-- The record with the timestamp its packet has: "associated with the retirement of the last control transfer operation
represented by the packet" (R178), its own when the packet represents none, or when the last one retired while TSEN was 0,
which the spec does not say (DESIGN CHOICE, log entry 27). -/
def stamp (c : Config) (f : StrcCtl) (e : Encoder) (r : Record) : Record :=
  match lastTransfer e r with
  | some t => if r.time.isSome && reports c f e r then { r with time := some t } else r
  | none => r

/-! ## Encapsulation (R185 to R189) -/

/-- T, the timestamp width in bytes (R176, R188). -/
def encapTimestampWidth : Nat := 2

/-- S, the srcID width: no srcID (R189). -/
def encapSrcIdWidth : Nat := 0

/-- N, the length in bytes of the synchronization sequence (R188). -/
def encapSyncLength : Nat := 33

/-- "The encapsulation must include a synchronization sequence every 4 KiB" (R187). -/
def encapBlock : Nat := 4096

/-- The bytes of the synchronization sequence (`EncapSync`). -/
def encapSyncBytes : List Byte := (List.range encapSyncLength).map Config.encapSyncByte

/-- The bytes an item becomes (R159). For E-trace a packet fits in a block after its synchronization sequence. -/
def packetBytes (c : Config) (f : StrcCtl) (e : Encoder) (r : Record) : List Byte :=
  let body := Config.encode c f.features e.compression r
  match c.kind with
  | .etrace => body.take (encapBlock - encapSyncLength)
  | .ntrace => body

/-- Whether a packet of `n` bytes at stream position `pos` begins a new 4 KiB block: it stands at a block's first byte,
or it does not fit in what is left of its block. -/
def opensBlock (pos n : Nat) : Bool := pos % encapBlock = 0 || encapBlock < pos % encapBlock + n

/-- The bytes that go to the stream for a packet at stream position `pos`: for E-trace every aligned 4 KiB block begins
with a synchronization sequence (R187), what is left of the block before it being filled; N-trace messages are written
as they are (R185). -/
def layOut (kind : TraceKind) (pos : Nat) (body : List Byte) : List Byte :=
  match kind with
  | .ntrace => body
  | .etrace =>
    if opensBlock pos body.length then
      List.replicate ((encapBlock - pos % encapBlock) % encapBlock) Config.encapFillByte ++ encapSyncBytes ++ body
    else body

/-! ## Periodic synchronization (R167 to R169) -/

/-- The threshold `2^(SMAX+4)` (R30, R168). -/
def syncThreshold (smax : BitVec 4) : Nat := 2 ^ (smax.toNat + 4)

/-- The sync event counter advanced by `n`, never past the threshold (R168). -/
def advanceCount (f : StrcCtl) (count n : Nat) : Nat := min (count + n) (syncThreshold f.smax)

/-- The counter after an item: 0 after a `Sync` (R168, R169), +1 after another message/packet with SMOD = 1 (R167). -/
def countAfterItem (f : StrcCtl) (count : Nat) (r : Record) (body : List Byte) : Nat :=
  if r.item = .sync then 0
  else if f.smod = 1 && !body.isEmpty then advanceCount f count 1
  else count

/-- Events of SMOD = 2 and 3 may count: EN = 1 (R167, U8). In Debug Mode they are events outside generation like others. -/
def State.counting (s : State) : Bool := !s.dis && s.ctl.en

/-- The counter after `n` events of SMOD = 2 or 3, which are `certain` to count or not. Where they are not, and EN = 1,
whether they are counted is a free value (U8, R257). -/
def countEvents (s : State) (e : Encoder) (n : Nat) (certain : Bool) : Encoder :=
  if certain then { e with syncCount := advanceCount s.ctl e.syncCount n }
  else if s.counting then
    if Config.freeBool .encoder e.drawn then
      { e with syncCount := advanceCount s.ctl e.syncCount n, drawn := e.drawn + 1 }
    else { e with drawn := e.drawn + 1 }
  else e

/-- The counter after a retired instruction of `n` half-words with SMOD = 3 (R167). -/
def countHalfwords (s : State) (e : Encoder) (n : Nat) : Encoder :=
  if s.ctl.smod = 3 then countEvents s e n s.generating else e

/-- The counter after one hart clock cycle with SMOD = 2 (R167). A cycle is certain to count when trace is generated and
the hart does not spend it waiting: nothing says whether a waiting hart's cycles count (R257; free, log entry 31). -/
def countCycle (s : State) (e : Encoder) (waiting : Bool) : Encoder :=
  if s.ctl.smod = 2 then countEvents s e 1 (s.generating && !waiting) else e

/-- A periodic `Sync` is due: the counter has reached the threshold (R168) and trace is being generated, or, with
SMOD = 1, the encoder may emit messages/packets of its own. -/
def syncDue (s : State) (e : Encoder) : Bool :=
  s.ctl.smod ≠ 0 && syncThreshold s.ctl.smax ≤ e.syncCount && (s.generating || (s.ctl.smod = 1 && s.sessionOpen))

/-- The counter after software has changed SMOD or SMAX: a free value within 0 to the new threshold (U9). -/
def retune (old new : StrcCtl) (e : Encoder) : Encoder :=
  if old.smod = new.smod && old.smax = new.smax then e
  else { e with syncCount := Config.freeNat .encoder e.drawn % (syncThreshold new.smax + 1), drawn := e.drawn + 1 }

/-! ## Into the internal trace buffers: stall or overflow (R170 to R172) -/

/-- The encoder with an item's bytes appended. Where the item opens a block, what fills the old block and the 33-byte
sequence go to the buffers with it (DESIGN CHOICE, log entry 29). -/
def appendItem (c : Config) (e : Encoder) (r : Record) (body : List Byte) : Encoder :=
  let bytes := layOut c.kind e.produced body
  { e with
    buffer := e.buffer ++ bytes
    produced := e.produced + bytes.length
    dropping := false
    trace := e.trace ++
      (if c.kind = .etrace && opensBlock e.produced body.length then [{ r with item := .encapSync }, r] else [r]) }

/-- Whether an item's bytes fit in the internal trace buffers: those of the item itself and, where it opens a block, of
the fill and the 33-byte sequence before it, all or none (DESIGN CHOICE, log entry 29). -/
def fitsBuffer (c : Config) (e : Encoder) (body : List Byte) : Bool :=
  e.buffer.length + (layOut c.kind e.produced body).length ≤ c.bufCap

/-- What an item moves whatever becomes of its bytes: the counter, the compression state, and the control transfers
that wait to be reported. That an item which an overflow drops moves them as a delivered one does is no rule of the spec
(R59, R172; DESIGN CHOICE, log entry 34). -/
def noteItem (c : Config) (f : StrcCtl) (e : Encoder) (r : Record) (body : List Byte) : Encoder :=
  { e with
    syncCount := countAfterItem f e.syncCount r body
    compression := Config.compress c f.features e.compression r
    transferTime := if !body.isEmpty && reports c f e r then none else lastTransfer e r }

/-- The bytes of the item of a record, stamped (R178). -/
def itemBytes (c : Config) (f : StrcCtl) (e : Encoder) (r : Record) : List Byte := packetBytes c f e (stamp c f e r)

/-- One item to the buffers (R170). The Bool says that trace has been dropped. An item of no bytes needs no space. With
`stall` (STEN = 1) an item that does not fit is not dropped: the answer is none. Without it, the item is dropped, and
possibly later ones: while an overflow is under way, whether a later item is taken is a free value. -/
def deliver (c : Config) (f : StrcCtl) (stall : Bool) (p : Encoder × Bool) (r : Record) : Option (Encoder × Bool) :=
  let r1 := stamp c f p.1 r
  let body := itemBytes c f p.1 r
  let e := noteItem c f p.1 r body
  if body.isEmpty then some ({ e with trace := e.trace ++ [r1] }, p.2)
  else if stall then
    if fitsBuffer c e body then some (appendItem c e r1 body, p.2) else none
  else if e.dropping then
    let e1 := { e with drawn := e.drawn + 1 }
    if fitsBuffer c e1 body && Config.freeBool .encoder e.drawn then some (appendItem c e1 r1 body, p.2)
    else some (e1, true)
  else if fitsBuffer c e body then some (appendItem c e r1 body, p.2)
  else some ({ e with dropping := true }, true)

/-! ## Items that are not an instruction's own

With STEN = 1 such an item waits when there is no space for it, and the hart stalls until it is delivered (R170,
R171). It is generated when it begins to wait: it is stamped, encoded and counted with the values of that moment. -/

/-- The item is generated, and so encoded and counted, and waits for space; backpressure has stalled the hart, so STOF is
to be set. -/
def waitFor (c : Config) (f : StrcCtl) (p : Encoder × Bool) (r : Record) : Encoder × Bool :=
  let w : Waiting := ⟨stamp c f p.1 r, itemBytes c f p.1 r⟩
  ({ noteItem c f p.1 r w.body with owed := p.1.owed ++ [w] }, true)

/-- An item generated in state `s`. The Bool says that trace has been dropped or waits. What waits is delivered first,
so the item waits behind it, also where STEN has been cleared since (DESIGN CHOICE, log entry 36). -/
def emit (s : State) (stall : Bool) (p : Encoder × Bool) (item : Item) : Encoder × Bool :=
  if p.1.owed.isEmpty then
    (deliver s.cfg s.ctl stall p (mkRecord s item)).getD (waitFor s.cfg s.ctl p (mkRecord s item))
  else waitFor s.cfg s.ctl p (mkRecord s item)

/-- The periodic `Sync`, if it is due (R168). -/
def syncAfter (s : State) (stall : Bool) (p : Encoder × Bool) : Encoder × Bool :=
  if syncDue s p.1 then emit s stall p .sync else p

/-- An item that closes a session. With SMOD = 1 it is counted, also where no `Sync` can follow it (it is the last, or the
hart is in Debug Mode): the `Sync` it would make due comes before it, so that the counter stays below the threshold
(R168). -/
def emitClosing (s : State) (stall : Bool) (p : Encoder × Bool) (item : Item) : Encoder × Bool :=
  let full := s.ctl.smod = 1 && syncThreshold s.ctl.smax ≤ p.1.syncCount + 1
  emit s stall (if full then emit s stall p .sync else p) item

/-- An item the encoder is free to emit: a Support packet is E-trace's (R197), a context needs CEN = 1 (R180). -/
def extraItem (s : State) : ExtraItem → Option Item
  | .sync => some .sync
  | .support atEnd => if s.cfg.kind = .etrace then some (.support atEnd) else none
  | .context => if s.ctl.cen then some .context else none
  | .overflow => some .overflow
  | .boundary resumed => some (.boundary resumed s.pc)

/-- The state with the encoder and STOF after items went to the buffers. -/
def State.withDelivery (s : State) (p : Encoder × Bool) : State :=
  { s with enc := p.1, ctl := { s.ctl with stof := s.ctl.stof || p.2 } }

/-- The state with the periodic `Sync` generated, if it is due in it. -/
def settleSync (s : State) : State := s.withDelivery (syncAfter s s.ctl.sten (s.enc, false))

/-! ## The encoder's reaction to an instruction -/

/-- The items of the trace end and the trace start that a write of EN makes (R144, R163 b, R197, D23). At the end, the
items that the encoder chooses to close the session with, and for E-trace a Support packet as the last; at the start,
for E-trace a Support packet. The encoder goes on where it was: the stream's positions, the compression state, the
control transfers that wait to be reported and an overflow under way do not restart with a session (DESIGN CHOICE, log
entry 54). -/
def sessionItems (s s' : State) (stall : Bool) (p : Encoder × Bool) : Encoder × Bool :=
  if s.ctl.en && !s'.ctl.en then
    let closing := (Config.freeClosing p.1.drawn).filterMap (extraItem s)
    (if s.cfg.kind = .etrace then closing ++ [.support true] else closing).foldl (emitClosing s stall)
      ({ p.1 with drawn := p.1.drawn + 1 }, p.2)
  else if !s.ctl.en && s'.ctl.en && s.cfg.kind = .etrace then emit s' stall p (.support false)
  else p

/-- STEN as it holds for the items of an instruction that takes the hart from `s` to `s'`: its value before the write
(R147), or, when the instruction starts a session, the value it writes. What waits with STEN = 1 goes on waiting, and
the hart goes on stalling, where the write has cleared STEN (DESIGN CHOICE, log entry 36). -/
def stallEnabled (s s' : State) : Bool := if s.ctl.en then s.ctl.sten else s'.ctl.sten

/-- A stalled hart: no retirement; "no CSR other than STOF changes" (R171). -/
def stalled (s : State) : State := { s with ctl := { s.ctl with stof := true } }

/-- The hart stalls an instruction because the bytes of its item do not fit: it stays stalled until they do (R171, U10),
whatever happens to trace generation meanwhile. -/
def stallOn (s : State) (body : List Byte) : State := stalled { s with enc := { s.enc with held := body } }

/-- The hart is stalled (R171): an item waits for space, or the bytes of the stalled instruction's item do not fit yet. -/
def State.hartHeld (s : State) : Bool :=
  !s.enc.owed.isEmpty || (!s.enc.held.isEmpty && !fitsBuffer s.cfg s.enc s.enc.held)

/-- The state after an instruction, with the encoder and the backpressure `p`: a changed SMOD or SMAX retunes the counter
(U9), the session is open while EN = 1 (D23), the hart is not stalled by it any more, and STOF is set by backpressure
(R170). -/
def reacted (s s' : State) (p : Encoder × Bool) : State :=
  { s' with
    enc := { retune s.ctl s'.ctl p.1 with active := s'.ctl.en, held := [] }
    ctl := { s'.ctl with stof := s'.ctl.stof || p.2 } }

/-- The instruction's own item to the buffers, none when it does not fit and STEN = 1. -/
def deliverOwn (s : State) (stall : Bool) (p : Encoder × Bool) (own : Option Item) : Option (Encoder × Bool) :=
  match own with
  | none => some p
  | some item => deliver s.cfg s.ctl stall p (mkRecord s item)

/-- The encoder's reaction to an instruction that takes the hart from `s` to `s'` and has the item `own`: the item and a
periodic `Sync`, judged with the values before the instruction's own write (R147); the end or start of a session (R144);
and a `Sync` that is due after it. None when the instruction's own item does not fit and STEN = 1. -/
def encoderReacts (s s' : State) (own : Option Item) (halfwords : Nat) : Option State :=
  let stall := stallEnabled s s'
  (deliverOwn s stall (countHalfwords s s.enc halfwords, false) own).map fun p =>
    settleSync (reacted s s' (sessionItems s s' stall (syncAfter s stall p)))

/-- The bytes of the instruction's own item. -/
def ownBytes (s : State) (own : Option Item) : List Byte :=
  match own with
  | none => []
  | some item => itemBytes s.cfg s.ctl s.enc (mkRecord s item)

/-- The machine after an instruction, with the encoder's reaction: the instruction completes, or the hart stalls and
nothing of the instruction happens (R171). -/
def observe (s s' : State) (own : Option Item) (halfwords : Nat) : State :=
  (encoderReacts s s' own halfwords).getD (stallOn s (ownBytes s own))

/-- The `Trap` item of a trap from `s` that leads to `s'` (R162, R243); with NTA = 1 without the handler address (R31). -/
def trapItem (s s' : State) (interrupt : Bool) (cause : BitVec 6) : Item :=
  .trap interrupt cause s.pc (if s.ctl.nta then none else some s'.pc)

/-- What an event in `s` contributes to the trace: its item when trace is generated in `s` (R160), else nothing. -/
def whenGenerating (s : State) (item : Item) : Option Item := if s.generating then some item else none

/-! ## Items without an instruction -/

/-- An item of the encoder's own in state `s`, taken or dropped or waiting. -/
def emitNow (s : State) (item : Item) : State := s.withDelivery (emit s s.ctl.sten (s.enc, false) item)

/-- An item the encoder is free to emit (R160, R168, R169, R172, D23, U19), while a session is open. -/
def emitExtra (s : State) (x : ExtraItem) : State :=
  match extraItem s x with
  | some item => if s.sessionOpen then emitNow s item else s
  | none => s

/-- A waiting item goes to the buffers, whatever their capacity. -/
def appendWaiting (c : Config) (e : Encoder) (w : Waiting) : Encoder :=
  if w.body.isEmpty then { e with trace := e.trace ++ [w.record] } else appendItem c e w.record w.body

/-- The waiting items that now fit, in order. They were encoded and counted when they were generated. -/
def settleOwed (c : Config) (e : Encoder) : List Waiting → Encoder
  | [] => { e with owed := [] }
  | w :: ws =>
    if w.body.isEmpty || fitsBuffer c e w.body then settleOwed c (appendWaiting c e w) ws else { e with owed := w :: ws }

/-- All bytes the encoder holds, those of waiting items after the internal buffers. -/
def heldBytes (c : Config) (e : Encoder) : List Byte := (e.owed.foldl (appendWaiting c) e).buffer

/-- A trigger with a trace action fires (R166). With ITEN = 0 nothing happens (R26), nor while `trTeDisSelfHosted` = 1
(R220). -/
def fireTrigger (s : State) (a : TriggerAction) : State :=
  if s.dis || !s.ctl.iten then s
  else match a with
    | .traceOn => { s with ctl := { s.ctl with it := true } }
    | .traceOff => { s with ctl := { s.ctl with it := false } }
    | .notify => if s.generating then emitNow s .triggerNotify else s

/-- One hart clock cycle: `cycle` advances (R55), and with SMOD = 2 the sync event counter (R167). There is no low-power
state, and the rest of the encoder's state stays while the hart waits (R257; DESIGN CHOICE, log entry 58). -/
def clockTick (s : State) (waiting : Bool) : State :=
  { s with cycle := s.cycle + 1, enc := countCycle s s.enc waiting }

end Sys2Proof.Machine
end

