-- ==== Sys2Proof/Machine/Sink.lean ====
section
/-! DEFINITION. The trace sink (R81 to R90): handing bytes over, writing them to memory, what a load sees of them; and
the debugger's bit (R220), which reaches every part. -/

namespace Sys2Proof.Machine

open Host

/-! ## Placement of the stream in memory -/

/-- The translation context of trace writes: `privCtx` of (STRCS, STRCV) (R85). -/
def State.sinkContext (s : State) : Nat := Config.ambPrivCtx s.strcs s.strcv

/-- The size of the buffer: a power of two, at least 4 KiB (R83). -/
def ambSize (r : AmbRegs) : Nat := 2 ^ (12 + r.extraSize)

/-- Where the buffer begins: a multiple of its size (R83, "naturally aligned"). -/
def ambBase (r : AmbRegs) : Word := BitVec.ofNat 64 (r.index * ambSize r)

/-- Where the next byte of the stream is stored: byte `k` at position `k` of the buffer, modulo its size if the AMB wraps
(R86, D8). A buffer that does not wrap has no place past its end. -/
def ambPlace (r : AmbRegs) : Option Word :=
  if r.wraps then some (ambBase r + BitVec.ofNat 64 (r.position % ambSize r))
  else if r.position < ambSize r then some (ambBase r + BitVec.ofNat 64 r.position)
  else none

/-- The registers an AMB operation leaves, with the buffer where it was and the position as given: "byte `k` of the
stream is stored at buffer position `k`" (R86), whatever else `push` and `drain` change. -/
def inBuffer (new old : AmbRegs) (position : Nat) : AmbRegs :=
  { new with extraSize := old.extraSize, index := old.index, wraps := old.wraps, position := position }

/-! ## `accept`, `push` and `drain` (R82) -/

/-- `accept` (R82): the AMB can take a byte now. It takes none that it has no place for, since every byte it takes can
be read from it later (R84). -/
def ambAccepts (a : Amb) : Bool := a.regs.ready && (ambPlace a.regs).isSome

/-- `push` (R82): the AMB takes a byte, whose place in the buffer is settled here (R86), the next byte's position being
one further, and its other registers become what the AMB makes of them. -/
def ambPushByte (a : Amb) (b : Byte) : Amb :=
  match ambPlace a.regs with
  | some addr =>
    { regs := inBuffer (Config.ambPush a b) a.regs (a.regs.position + 1), pending := a.pending ++ [(addr, b)] }
  | none => a

/-- Pending writes at their addresses in memory: the translation is the one that (STRCS, STRCV) select when the write
is performed (R82, R85). -/
def State.physical (s : State) (ws : List (Word × Byte)) : List (Word × Byte) :=
  ws.map fun w => (Config.ambTranslate s.sinkContext w.1, w.2)

/-- Memory with bytes written, in order. -/
def writePending (ws : List (Word × Byte)) (m : List Cell) : List Cell :=
  ws.foldl (fun m w => memWrite m w.1.toNat w.2) m

/-- `drain` (R82): the sink performs the writes of the `n` bytes it has held longest, or of all it holds. Nothing is
written to the buffer while `trTeDisSelfHosted` = 1 (R220 c). -/
def drainSink (s : State) (n : Nat) : State :=
  let k := min n s.amb.pending.length
  if s.dis || k = 0 then s
  else
    { s with
      mem := writePending (s.physical (s.amb.pending.take k)) s.mem
      amb :=
        { regs := inBuffer (Config.ambDrain s.amb k) s.amb.regs s.amb.regs.position
          pending := s.amb.pending.drop k }
      promised := s.promised - k }

/-- The sink becomes ready to take bytes, or ceases to be. While `trTeDisSelfHosted` = 1 nothing of the sink moves (DESIGN
CHOICE, log entry 47). -/
def sinkAccepts (s : State) (ready : Bool) : State :=
  if s.dis then s else { s with amb := { s.amb with regs := { s.amb.regs with ready := ready } } }

/-- The encoder hands the oldest byte of the internal buffers to the sink, if the sink accepts; records that waited for
space follow. Nothing is handed over while `trTeDisSelfHosted` = 1 (R220 c). -/
def handOverByte (s : State) : State :=
  if s.dis then s
  else
    match s.enc.buffer with
    | [] => { s with enc := settleOwed s.cfg s.enc s.enc.owed }
    | b :: bs =>
      if ambAccepts s.amb then
        { s with
          enc := settleOwed s.cfg { s.enc with buffer := bs } s.enc.owed
          amb := ambPushByte s.amb b }
      else s

/-! ## What a load of the hart sees (R84, R88) -/

/-- A read of a view of `mstrcctl` has returned EMPTY = 1: "all generated trace can be read from the trace sink" (R84).
The read changes nothing of the machine (R88); the model takes down that the writes pending now are to be visible. -/
def promiseAll (s : State) : State := { s with promised := s.amb.pending.length }

/-- The sink performs the writes that a read of EMPTY = 1 has promised (R84). It has done so before the hart does
anything after that read, so every later load comes after them. No fence is needed for that, which the source does not
say (R84, R275; DESIGN CHOICE, log entry 45). -/
def arrive (s : State) : State := drainSink s s.promised

/-- The pending writes that a fault of a trace write leaves: some of those there were. A fault makes no write that was not
pending. -/
def faultSurvivors (a : Amb) : List (Word × Byte) :=
  (a.pending.zipIdx.filter fun w => Config.ambFaultKeeps a w.2).map (·.1)

/-- The AMB after a fault of a trace write: like every outcome of `drain` it leaves the buffer and the position (R82, D8),
its other registers are free, and which pending writes are lost is free (DESIGN CHOICE, log entry 44). -/
def ambFault (a : Amb) : Amb :=
  { regs := inBuffer (Config.ambFaulted a) a.regs a.regs.position, pending := faultSurvivors a }

/-- A trace write faults, "an outcome of the AMB parameter's `drain` step" with no meaning of its own (R242). It may fault
also when it has no byte to write; but the writes promised to later loads are performed (R84; DESIGN CHOICE, log entry
44). While `trTeDisSelfHosted` = 1 the sink performs no write, and none faults (DESIGN CHOICE, log entry 47). -/
def drainFaults (s : State) : State :=
  if s.dis then s
  else { s with mem := (arrive s).mem, amb := ambFault (arrive s).amb, promised := 0 }

/-- The writes under way: those the sink has taken on, and those of the bytes the encoder still holds, at the places the
sink will give them. -/
def State.inFlight (s : State) : List (Word × Byte) :=
  if s.dis then [] else s.physical ((heldBytes s.cfg s.enc).foldl ambPushByte s.amb).pending

/-- One byte as a load of the hart sees it. A byte whose write is under way is a free value (R88, D18): the one order is
that of `arrive` (R84, R90), and it needs no fence (DESIGN CHOICE, log entry 45). -/
def loadByte (s : State) (i : Nat) (addr : Nat) : Byte :=
  if s.inFlight.any (fun w => w.1.toNat = addr) then Config.freeByte (s.draws + i) else memRead s.mem addr

/-- The mode whose rules a load or store of the hart follows: with MPRV = 1 in M-mode the one in MPP and MPV (PRESUMED,
log entry 19). -/
def State.dataMode (s : State) : Priv × Bool :=
  if s.priv = .machine && s.trap.mstatus.mprv then
    (s.trap.mstatus.mpp, s.cfg.hasH && s.trap.mstatus.mpv && s.trap.mstatus.mpp ≠ .machine)
  else (s.priv, s.virt)

/-- Whether data accesses are big-endian: "little-endian unless the `MBE`/`SBE`/`UBE` bits of `mstatus` select
big-endian" (R86). Their positions, and that with V = 1 `hstatus`.VSBE and `vsstatus`.UBE select, are PRESUMED (the
family's, log entry 19). -/
def State.bigEndian (s : State) : Bool :=
  match s.dataMode with
  | (.machine, _) => s.trap.mstatus.rest.getLsbD 37
  | (.supervisor, false) => s.trap.mstatus.rest.getLsbD 36
  | (.user, false) => s.trap.mstatus.rest.getLsbD 6
  | (.supervisor, true) => s.trap.hstatus.rest.getLsbD 5
  | (.user, true) => s.trap.vsstatus.rest.getLsbD 6

/-- An 8-byte load (program P2), in the byte order of data accesses. -/
def loadWord (s : State) (addr : Word) : Word :=
  let b (i : Nat) : Byte := loadByte s i (byteAddr addr i)
  if s.bigEndian then b 0 ++ b 1 ++ b 2 ++ b 3 ++ b 4 ++ b 5 ++ b 6 ++ b 7
  else b 7 ++ b 6 ++ b 5 ++ b 4 ++ b 3 ++ b 2 ++ b 1 ++ b 0

/-- A store of a value given by its bytes, the least significant first, in the byte order of data accesses. -/
def storeBytes (s : State) (addr : Word) (bytes : List Byte) : State :=
  { s with mem := memWriteBytes s.mem addr (if s.bigEndian then bytes.reverse else bytes) }

/-! ## `trTeDisSelfHosted` (R220, U16) -/

/-- The bit goes to 1. The writes promised to later loads are performed (R84). What the encoder and the sink hold beside
them at that moment, items that wait for space among it, "may be flushed or lost" (U16): a free value decides. Nothing is
held any more. -/
def disableSelfHosted (s : State) : State :=
  let a := arrive s
  { s with
    dis := true
    draws := s.draws + 1
    promised := 0
    mem := if Config.freeBool .machine s.draws then writePending a.inFlight a.mem else a.mem
    amb := { a.amb with pending := [] }
    enc := { s.enc with buffer := [], owed := [], held := [] } }

/-- The bit returns to 0: every STRC field and the encoder's hidden state are free values, within their legal values
(R220, U16). No item waits for space then, which the spec does not say (DESIGN CHOICE, log entry 47). -/
def enableSelfHosted (s : State) : State :=
  let d := s.draws
  let ctl := mstrcctlFields s.cfg (Config.freeWord d)
  { s with
    dis := false
    draws := d + 8
    ctl := ctl
    vsctl := { s := Config.freeBool .machine d, u := Config.freeBool .machine (d + 1) }
    env := { s.env with
      strcs := Config.freeBool .machine (d + 2)
      strcv := Config.freeBool .machine (d + 3)
      mstrc := Config.freeBool .machine (d + 4)
      hstrc := Config.freeBool .machine (d + 5) }
    amb := { s.amb with regs := Config.freeAmb d }
    enc := { s.enc with
      buffer := (Config.freeBytes d).take s.cfg.bufCap
      syncCount := Config.freeNat .machine d % (syncThreshold ctl.smax + 1)
      compression := Config.freeNat .machine (d + 1)
      active := ctl.en
      transferTime :=
        if Config.freeBool .machine (d + 7) then some (timestampOf s.cfg (Config.freeWord (d + 1))) else none
      dropping := Config.freeBool .machine (d + 6)
      owed := []
      held := []
      produced := Config.freeNat .machine (d + 2) } }

/-- The debugger writes the bit; a write of the value it has changes nothing. -/
def setDis (s : State) (value : Bool) : State :=
  if value = s.dis then s else if value then disableSelfHosted s else enableSelfHosted s

end Sys2Proof.Machine
end

