-- ==== Sys2Proof/Machine/Agents.lean ====
section
/-! DEFINITION. The turns of the agents (R10): the hart's turn with the encoder's reaction to it, and the turns and
inputs of the others. -/

namespace Sys2Proof.Machine

open Host

/-! ## Instructions of the table -/

/-- `is_write` of an instruction (R120). -/
def instrWrites : Instr → Bool
  | .csrrw _ _ _ => true
  | .csrrs _ _ rs1 => regWrites rs1
  | .csrrc _ _ rs1 => regWrites rs1
  | .csrrwi _ _ _ => true
  | .csrrsi _ _ uimm => immWrites uimm
  | .csrrci _ _ uimm => immWrites uimm

/-- The exception an instruction raises in a state, if any (R136). -/
def instrRaises (i : Instr) (s : State) : Option Exc := checkAccess s i.csrNumber (instrWrites i)

/-- Whether an instruction reads its CSR: `csrrw` and `csrrwi` do not when `rd = x0` (R121, R124). -/
def instrReads : Instr → Bool
  | .csrrw rd _ _ => rd ≠ 0
  | .csrrwi rd _ _ => rd ≠ 0
  | _ => true

/-- Whether an instruction reads EMPTY = 1 from `mstrcctl`, `sstrcctl` or `vsstrcctl` in a state. -/
def readsEmpty (i : Instr) (s : State) : Bool :=
  instrReads i && s.empty && (instrRaises i s).isNone && ((csrOf s.cfg i.csrNumber).map CsrId.isControl).getD false

/-- The state an instruction leaves, with the trace promised to later loads when the instruction has read EMPTY = 1
(R84). -/
def afterRead (i : Instr) (s s' : State) : State := if readsEmpty i s then promiseAll s' else s'

/-- The machine after the encoder has seen an instruction of the table take the hart from `s` to `s'`: a retired
instruction is 4 bytes long, two half-words (R61), and moves control sequentially; one that raises an exception does
not retire, and is a trap (R162). -/
def observeInstr (i : Instr) (s s' : State) : State :=
  match instrRaises i s with
  | none => observe s (afterRead i s s') (whenGenerating s (.flow ⟨s.pc, 2, .sequential, s'.pc⟩)) 2
  | some e => observe s s' (whenGenerating s (trapItem s s' false (excCause e))) 0

/-! ## Base instructions and traps of the host hart, as inputs (N7, N8) -/

/-- The bits of `mret` and `sret`, for the trap value (PRESUMED: the family's encodings). -/
def mretWord : BitVec 32 := 0x30200073#32
def sretWord : BitVec 32 := 0x10200073#32

/-- The length in bytes of a base instruction. -/
def hostLength (compressed : Bool) : Word := if compressed then 2 else 4

/-- A base instruction's effect: the machine after it, and how it moved control when it retires, or the exception it
takes. `mret` below M-mode and `sret` in U-mode are illegal, `sret` in VU-mode raises a virtual-instruction exception
(PRESUMED: the family's rules). -/
def hostEffect (s : State) (compressed : Bool) (op : HostOp) : State × Except Exc FlowKind :=
  let next := s.pc + hostLength compressed
  match op with
  | .compute rd v => ((s.writeReg rd v).setPc next, .ok .sequential)
  | .load rd addr => (({ s with draws := s.draws + 8 }.writeReg rd (loadWord s addr)).setPc next, .ok .sequential)
  | .store addr bytes => ((storeBytes s addr bytes).setPc next, .ok .sequential)
  | .transfer kind rd v target => ((s.writeReg rd v).setPc (evenAddr target), .ok kind)
  | .mret =>
    if s.priv = .machine then (returnMachine s, .ok .trapReturn)
    else (raiseExc s .illegalInstruction mretWord, .error .illegalInstruction)
  | .sret =>
    if s.priv = .user then
      if s.virt then (raiseExc s .virtualInstruction sretWord, .error .virtualInstruction)
      else (raiseExc s .illegalInstruction sretWord, .error .illegalInstruction)
    else (returnFromTrap s, .ok .trapReturn)

/-- The state when the hart has done the next of its inputs. -/
def State.nextInput (s : State) : State := { s with hartInputs := s.hartInputs.tail }

/-- A base instruction, with the encoder's reaction (R160, R162, R167). -/
def hostRetire (s : State) (compressed : Bool) (op : HostOp) : State :=
  let halfwords := if compressed then 1 else 2
  match hostEffect s.nextInput compressed op with
  | (s', .ok kind) => observe s s' (whenGenerating s (.flow ⟨s.pc, halfwords, kind, s'.pc⟩)) halfwords
  | (s', .error e) => observe s s' (whenGenerating s (trapItem s s' false (excCause e))) 0

/-- A trap of the host hart: an exception of a base instruction, or an interrupt, "reported in the trace as traps"
(R244). -/
def hostTrap (s : State) (interrupt : Bool) (cause : BitVec 6) (tval : Word) : State :=
  let s' := takeTrap s.nextInput interrupt cause tval
  observe s s' (whenGenerating s (trapItem s s' interrupt cause)) 0

/-! ## The hart's turn -/

/-- An instruction of the table: fetch at the pc, decode, execute, and the encoder's reaction. An odd pc is no
instruction address (R61). The fetch sees memory as the hart's own stores have left it, with no FENCE.I (DESIGN CHOICE,
log entry 56). Its entry in the list of inputs, if it has one, is gone when it has completed; while it
stalls it stays the next one (R171). -/
def tableTurn (s : State) : Outcome State Fault Refusal :=
  if s.pc.getLsbD 0 then .fault .pcMisaligned
  else
    match decodeWord (fetchWord s.mem s.pc) with
    | .error e => .refused (.outsideTable e)
    | .ok i =>
      match exec i s.nextInput with
      | .next s' => .next (observeInstr i s s')
      | .fault r => .fault r
      | .refused r => .refused r

/-- What the hart does when it is not stalled: the first of its inputs, or an instruction of the table. -/
def hartActs (s : State) : Outcome State Fault Refusal :=
  match s.hartInputs with
  | [] => tableTurn s
  | .table :: _ => tableTurn s
  | .retire compressed op :: _ => .next (hostRetire s compressed op)
  | .trap interrupt cause tval :: _ => .next (hostTrap s interrupt cause tval)

/-- The hart's turn. While it is stalled the hart does not retire (R171); otherwise the writes promised to it have
arrived before it goes on (R84). -/
def hartTurn (s : State) : Outcome State Fault Refusal :=
  if s.hartHeld then .next (stalled s) else hartActs (arrive s)

/-! ## One entry of the agenda -/

/-- What the entry itself does, the periodic `Sync` apart. -/
def actItself (s : State) (a : Action) : State :=
  match a with
  | .hart => s
  | .trigger t => fireTrigger s t
  | .debuggerSetDis v => setDis s v
  | .debugMode v => { s with debugMode := v }
  | .encoderItem x => emitExtra s x
  | .handOver => handOverByte s
  | .sinkReady v => sinkAccepts s v
  | .drain n => drainSink s n
  | .drainFault => drainFaults s
  | .hartClock waiting => clockTick s waiting
  | .timeAdvance n => { s with time := s.time + n }
  | .vmidChange v => { s with vmid := v }

/-- What one turn of the agenda does, the hart's own turn apart: the entry, and the periodic `Sync` that is due after it
(R168). -/
def act (s : State) (a : Action) : State := settleSync (actItself s a)

/-- One turn: the first entry of the agenda, or the hart when none is left. -/
def turn (s : State) : Outcome State Fault Refusal :=
  match s.agenda with
  | [] => hartTurn s
  | .hart :: rest => hartTurn { s with agenda := rest }
  | a :: rest => .next (act { s with agenda := rest } a)

/-! ## Placing an instruction -/

/-- The state with an instruction word stored at the pc and the hart's turn next: the agenda and the list of the
hart's inputs are emptied, no item waits for space, no instruction is stalled, and no write is to arrive before it. -/
def placeInstr (s : State) (word : BitVec 32) : State :=
  { s with
    mem := memWriteBytes s.mem s.pc (bytesOfWord word)
    agenda := []
    hartInputs := []
    promised := 0
    enc := { s.enc with owed := [], held := [] } }

end Sys2Proof.Machine
end

