-- ==== Sys2Proof/Machine/Tci.lean ====
section
/-! DEFINITION. The Trace Control Interface as a debugger reads it while self-hosted trace is in use (R223 to R231): a
view of the state, through which no hart reads or writes (R232). -/

namespace Sys2Proof.Machine

/-- A Bool as the value of a one-bit field. -/
def bit (b : Bool) : Nat := b.toNat

/-- The 65 rows of the appendix table. A row whose value is "N/A" is absent (none). -/
structure TciView where
  trTeActive : Nat
  trTeEnable : Nat
  trTeInstTracing : Nat
  trTeEmpty : Nat
  trTeInstMode : Nat
  trTeContext : Nat
  trTeDisSelfHosted : Nat
  trTeInstTrigEnable : Nat
  trTeInstStallOrOverflow : Nat
  trTeInstStallEna : Nat
  trTeInhibitSrc : Nat
  trTeInstSyncMode : Nat
  trTeInstSyncMax : Nat
  trTeFormat : Nat
  trTeVerMajor : Nat
  trTeVerMinor : Nat
  trTeCompType : Nat
  trTeProtocolMajor : Nat
  trTeProtocolMinor : Nat
  trTeInstNoAddrDiff : Nat
  trTeInstNoTrapAddr : Nat
  trTeInstEnSequentialJump : Nat
  trTeInstEnImplicitReturn : Nat
  trTeInstEnBranchPrediction : Nat
  trTeInstEnJumpTargetCache : Nat
  trTeInstImplicitReturnMode : Nat
  trTeInstEnRepeatedHistory : Nat
  trTeInstEnAllJumps : Nat
  trTeInstExtendAddrMSB : Nat
  trTeSrcID : Option Nat
  trTeSrcBits : Nat
  trTeInstFilters : Nat
  trTeData : Nat
  trTsActive : Nat
  trTsCount : Nat
  trTsReset : Nat
  trTsRunInDebug : Nat
  trTsMode : Nat
  trTsPrescale : Nat
  trTsEnable : Nat
  trTsWidth : Nat
  trTsCounterLow : BitVec 32
  trTsCounterHigh : BitVec 32
  trTeFilterEnable : Nat
  trTeFilterMatchPrivilege : Nat
  trTeFilterMatchEcause : Nat
  trTeFilterMatchInterrupt : Nat
  trTeFilterMatchComp1 : Nat
  trTeFilterComp1 : Nat
  trTeFilterMatchComp2 : Nat
  trTeFilterComp2 : Nat
  trTeFilterMatchComp3 : Nat
  trTeFilterComp3 : Nat
  trTeFilterMatchImpdef : Nat
  trTeFilterMatchDtype : Nat
  trTeFilterMatchDsize : Nat
  trTeFilterMatchChoicePrivilege : BitVec 8
  trTeFilterMatchValueInterrupt : Nat
  trTeFilter0MatchEcauseLow : Nat
  trTeFilter0MatchEcauseHigh : Nat
  trTeFilter0MatchValueImpdef : Nat
  trTeFilter0MatchMaskImpdef : Nat
  trTeFilter0MatchData : Nat
  trTeOtherFilters : Nat
  trTeComp : Nat
deriving DecidableEq, Repr

/-- The position of `trTeDisSelfHosted` in `trTeControl` (R220). -/
def trTeDisSelfHostedBit : Nat := 10

/-- {0, 0, vsstrcctl.S, vsstrcctl.U, mstrcctl.M, 0, mstrcctl.S, mstrcctl.U} (R231). Without H there is no `vsstrcctl`,
and bits 5:4 read 0, which the spec does not say (DESIGN CHOICE, log entry 50). -/
def State.privilegeChoice (s : State) : BitVec 8 :=
  0#1 ++ 0#1 ++ BitVec.ofBool (s.cfg.hasH && s.vsctl.s) ++ BitVec.ofBool (s.cfg.hasH && s.vsctl.u) ++
  BitVec.ofBool s.ctl.m ++ 0#1 ++ BitVec.ofBool s.ctl.s ++ BitVec.ofBool s.ctl.u

/-- The encoding of a privilege level: U = 0, S = 1, M = 3 (R231). -/
def privEncoding : Priv → BitVec 2
  | .user => 0
  | .supervisor => 1
  | .machine => 3

/-- The privilege input `{V, priv[1:0]}` of the hart-trace interface (R231). -/
def State.privilegeInput (s : State) : BitVec 3 := BitVec.ofBool s.virt ++ privEncoding s.priv

/-- `trTeActive` in the debugger's read numbered `read`: set any time trTeEnable = 1 or trTeEmpty = 0, else the
implementation's choice (R225). -/
def State.teActive (s : State) (read : Nat) : Bool := s.ctl.en || !s.empty || Config.teActiveIdle read

/-- `trTeFormat`: the source leaves its encoding open, but 0 and 1 tell the two formats apart (R227, U17). -/
def teFormat (k : TraceKind) : BitVec 1 :=
  match k with
  | .etrace => Config.etraceFormat
  | .ntrace => ~~~Config.etraceFormat

/-- The values of the table (R223 to R231) in the debugger's read numbered `read`: the number tells the free values of one
read from those of another (log entry 51). `trTsRunInDebug` = 0 says that the TCI's counter does not run in Debug Mode,
and the counter fields read `time` (R230); the spec does not say how the two go together. Here both fields follow `time`
in Debug Mode too, while `trTsCount`, which says whether the counter runs, stays a free value there (DESIGN CHOICE, log
entry 50). The table describes the interface while self-hosted trace is in use (R222, R225); with `trTeDisSelfHosted` = 1
the rows here go on showing the stored fields, which the spec does not say (DESIGN CHOICE, log entry 50). -/
def State.tci (s : State) (read : Nat) : TciView where
  trTeActive := bit (s.teActive read)
  trTeEnable := bit s.ctl.en
  trTeInstTracing := bit s.ctl.it
  trTeEmpty := bit s.empty
  trTeInstMode := 6
  trTeContext := bit s.ctl.cen
  trTeDisSelfHosted := bit s.dis
  trTeInstTrigEnable := bit s.ctl.iten
  trTeInstStallOrOverflow := bit s.ctl.stof
  trTeInstStallEna := bit s.ctl.sten
  trTeInhibitSrc := 1
  trTeInstSyncMode := s.ctl.smod.toNat
  trTeInstSyncMax := s.ctl.smax.toNat
  trTeFormat := (teFormat s.cfg.kind).toNat
  trTeVerMajor := 1
  trTeVerMinor := 0
  trTeCompType := s.cfg.tciCompType
  trTeProtocolMajor := s.cfg.tciProtocolMajor
  trTeProtocolMinor := s.cfg.tciProtocolMinor
  trTeInstNoAddrDiff := 0
  trTeInstNoTrapAddr := bit s.ctl.nta
  trTeInstEnSequentialJump := bit s.ctl.esj
  trTeInstEnImplicitReturn := bit s.ctl.eir
  trTeInstEnBranchPrediction := bit s.ctl.ebp
  trTeInstEnJumpTargetCache := bit s.ctl.etc
  trTeInstImplicitReturnMode := 3
  trTeInstEnRepeatedHistory := bit s.ctl.erh
  trTeInstEnAllJumps := bit s.ctl.eaj
  trTeInstExtendAddrMSB := bit s.ctl.eam
  trTeSrcID := none
  trTeSrcBits := 0
  trTeInstFilters := 1
  trTeData := 0
  trTsActive := bit (Config.tsActive read)
  trTsCount := bit (Config.tsCount read)
  trTsReset := 0
  trTsRunInDebug := 0
  trTsMode := s.cfg.tciTsMode
  trTsPrescale := 0
  trTsEnable := bit s.ctl.tsen
  trTsWidth := s.cfg.tciTsWidth
  trTsCounterLow := s.time.extractLsb' 0 32
  trTsCounterHigh := s.time.extractLsb' 32 32
  trTeFilterEnable := 1
  trTeFilterMatchPrivilege := 1
  trTeFilterMatchEcause := 0
  trTeFilterMatchInterrupt := 0
  trTeFilterMatchComp1 := 0
  trTeFilterComp1 := 0
  trTeFilterMatchComp2 := 0
  trTeFilterComp2 := 0
  trTeFilterMatchComp3 := 0
  trTeFilterComp3 := 0
  trTeFilterMatchImpdef := 0
  trTeFilterMatchDtype := 0
  trTeFilterMatchDsize := 0
  trTeFilterMatchChoicePrivilege := s.privilegeChoice
  trTeFilterMatchValueInterrupt := 0
  trTeFilter0MatchEcauseLow := 0
  trTeFilter0MatchEcauseHigh := 0
  trTeFilter0MatchValueImpdef := 0
  trTeFilter0MatchMaskImpdef := 0
  trTeFilter0MatchData := 0
  trTeOtherFilters := 0
  trTeComp := 0

end Sys2Proof.Machine
end

