-- ==== Sys2Proof/Safety.lean ====
section
/-! DEFINITION. The terms claims are stated in: which configurations are legal (R5, R29, R104), the invariant of the
machine, what stays the same from one state to another, and the kinds of stop. -/

namespace Sys2Proof.Machine

open Host

/-! ## Legal configurations -/

/-- The five STRC CSR numbers. -/
def strcNumbers (c : Config) : List Nat :=
  [c.csrMstrcctl, c.csrSstrcctl, c.csrVsstrcctl, c.csrSstrcambcs, c.csrSstrcambaddr]

/-- R104: the five numbers are pairwise distinct, differ from every other CSR number the hart implements, are 12-bit
numbers of read/write CSRs, and have the privilege level of their register in bits 9:8. -/
abbrev CsrNumbersLegal (c : Config) : Prop :=
  (strcNumbers c).Nodup ∧
  (∀ n ∈ strcNumbers c, n < 4096 ∧ csrReadOnly n = false ∧ hostCsrTable.lookup n = none) ∧
  csrLevel c.csrMstrcctl = 3 ∧ csrLevel c.csrSstrcctl = 1 ∧ csrLevel c.csrSstrcambcs = 1 ∧
  csrLevel c.csrSstrcambaddr = 1 ∧ csrLevel c.csrVsstrcctl = 2

/-- R29: `SMOD_IMPL` is not empty and `smod_legalize` answers legal values. -/
abbrev SmodLegal (c : Config) : Prop :=
  (c.smodImpl1 || c.smodImpl2 || c.smodImpl3) = true ∧
  smodLegal c c.smodLegalize1 = true ∧ smodLegal c c.smodLegalize2 = true ∧ smodLegal c c.smodLegalize3 = true

/-- The constraints R5 puts on the parameters. -/
abbrev Legal (c : Config) : Prop :=
  CsrNumbersLegal c ∧ SmodLegal c ∧ 22 ≤ c.hcontextBits ∧ c.hcontextBits ≤ 32 ∧ c.scontextBits ≤ 32 ∧ 1 ≤ c.bufCap ∧
  c.strcSeBit < 64 ∧ c.strcSeBit ≠ 57 ∧ c.strcSeBit ≠ 60 ∧ c.etrace.Allowed ∧ c.resetVector.getLsbD 0 = false

/-! ## The invariant -/

/-- The stored fields of `mstrcctl` are legal: unimplemented optional fields are hardcoded to 0, SMOD is legal (R21,
R29). -/
abbrev CtlLegal (c : Config) (f : StrcCtl) : Prop :=
  (f.iten = true → c.implIten = true) ∧ (f.sten = true → c.implSten = true) ∧ (f.nta = true → c.implNta = true) ∧
  (f.esj = true → c.implEsj = true) ∧ (f.eir = true → c.implEir = true) ∧ (f.ebp = true → c.implEbp = true) ∧
  (f.etc = true → c.implEtc = true) ∧ (f.erh = true → c.implErh = true) ∧ (f.eaj = true → c.implEaj = true) ∧
  (f.eam = true → c.implEam = true) ∧ smodLegal c f.smod = true

/-- The pc and every saved pc are instruction addresses: multiples of 2 (R61, R87). -/
abbrev PcsEven (s : State) : Prop :=
  s.pc.getLsbD 0 = false ∧ s.trap.mepc.getLsbD 0 = false ∧ s.trap.sepc.getLsbD 0 = false ∧
  s.trap.vsepc.getLsbD 0 = false

/-- V is 0 when `HAS_H` is false or `priv = M` (R8). -/
abbrev ModeLegal (s : State) : Prop := s.virt = true → s.cfg.hasH = true ∧ s.priv ≠ .machine

/-- The context CSRs hold no more than their implemented bits (R53, R54). -/
abbrev ContextFits (s : State) : Prop :=
  s.env.scontext.toNat < 2 ^ s.cfg.scontextBits ∧ s.env.hcontext.toNat < 2 ^ s.cfg.hcontextBits

/-- The encoder: the buffers are within their capacity (R57), the sync event counter within its threshold (R168), and a
session is open exactly while EN = 1 (R159, D23). -/
abbrev EncoderOk (s : State) : Prop :=
  s.enc.buffer.length ≤ s.cfg.bufCap ∧ s.enc.syncCount ≤ syncThreshold s.ctl.smax ∧ s.enc.active = s.ctl.en

/-- No periodic `Sync` is overdue (R168). -/
abbrev SyncSettled (s : State) : Prop := syncDue s s.enc = false

/-- The invariant of the machine. -/
structure Inv (s : State) : Prop where
  /-- The configuration is legal. -/
  legal : Legal s.cfg
  /-- Memory is in its canonical form. -/
  memory : memWf s.mem
  /-- The stored word of `x0` is 0 (R60). -/
  x0 : s.x[0] = 0
  pcs : PcsEven s
  mode : ModeLegal s
  ctl : CtlLegal s.cfg s.ctl
  context : ContextFits s
  encoder : EncoderOk s
  /-- No periodic `Sync` is overdue (R168). -/
  sync : SyncSettled s

/-! ## Frames -/

/-- Every byte of memory reads as before. -/
def SameMemory (s t : State) : Prop := ∀ a, memRead t.mem a = memRead s.mem a

/-- Every general register but `rd` reads as before. -/
def SameRegsBut (rd : Reg) (s t : State) : Prop := ∀ r, r ≠ rd → t.readReg r = s.readReg r

/-- Every general register reads as before. -/
def SameRegs (s t : State) : Prop := ∀ r, t.readReg r = s.readReg r

/-- The trace side of the state: `mstrcctl`, the own bits of `vsstrcctl`, the encoder, the sink, and the debugger's
bit. -/
abbrev SameTrace (s t : State) : Prop :=
  t.ctl = s.ctl ∧ t.vsctl = s.vsctl ∧ t.enc = s.enc ∧ t.amb = s.amb ∧ t.dis = s.dis

/-- What an instruction's own effect never changes: the parameters, the counters, the VMID, Debug Mode, the inputs to
come, and what a read of EMPTY = 1 has promised. -/
abbrev SameOutside (s t : State) : Prop :=
  t.cfg = s.cfg ∧ t.time = s.time ∧ t.cycle = s.cycle ∧ t.vmid = s.vmid ∧ t.debugMode = s.debugMode ∧
  t.agenda = s.agenda ∧ t.hartInputs = s.hartInputs ∧ t.promised = s.promised

/-- The privilege mode. -/
abbrev SameMode (s t : State) : Prop := t.priv = s.priv ∧ t.virt = s.virt

/-- An effect stands: `u` is `t` but for the encoder and for STOF, which is at most set. -/
def Completes (t u : State) : Prop :=
  u = { t with enc := u.enc, ctl := { t.ctl with stof := u.ctl.stof } } ∧ (t.ctl.stof = true → u.ctl.stof = true)

/-- The trace of `u` is that of `s` with records appended, one of which is such. -/
def Appends (s u : State) (such : Record → Prop) : Prop :=
  ∃ l, u.enc.trace = s.enc.trace ++ l ∧ ∃ r ∈ l, such r

/-- The bytes of a record do not fit in the internal trace buffers. -/
def NoRoom (c : Config) (f : StrcCtl) (e : Encoder) (r : Record) : Prop :=
  itemBytes c f e r ≠ [] ∧ fitsBuffer c e (itemBytes c f e r) = false

/-- From `e` to `e'` bytes are appended to the encoder's stream, and every aligned 4 KiB block that begins in them begins
with the synchronization sequence (R187). -/
def StreamsBlocks (e e' : Encoder) : Prop :=
  ∃ bytes, e'.buffer = e.buffer ++ bytes ∧ e'.produced = e.produced + bytes.length ∧
    ∀ k, e.produced ≤ 4096 * k → 4096 * k < e.produced + bytes.length →
      (bytes.drop (4096 * k - e.produced)).take 33 = encapSyncBytes

/-- A record that is lost (R170, R172): STEN is 0, an overflow is under way or its bytes do not fit, and STOF is set. -/
def Lost (c : Config) (f : StrcCtl) (e : Encoder) (r : Record) (u : State) : Prop :=
  f.sten = false ∧ u.ctl.stof = true ∧ (e.dropping = true ∨ NoRoom c f e r)

/-- A record that waits for space in `u` is such; STOF is set. -/
def Waits (u : State) (such : Record → Prop) : Prop := u.ctl.stof = true ∧ ∃ w ∈ u.enc.owed, such w.record

/-- A `Sync` is generated on the way from `s` to `u`: it is appended, or it waits for space, or an overflow has dropped
it, STEN being 0; STOF is then set. -/
def SyncGenerated (s u : State) : Prop :=
  Appends s u (·.item = .sync) ∨ Waits u (·.item = .sync) ∨
  (u.ctl.stof = true ∧ s.ctl.sten = false ∧ u.enc.dropping = true)

/-! ## Groups of CSRs -/

/-- The CSRs a write of which changes the environment, state-enable and context registers. -/
def CsrId.isEnv : CsrId → Bool
  | .menvcfg | .henvcfg | .mstateen0 | .hstateen0 | .scontext | .hcontext | .htimedelta => true
  | _ => false

/-- The trap registers. -/
def CsrId.isTrap : CsrId → Bool
  | .mstatus | .medeleg | .mideleg | .mtvec | .mepc | .mcause | .mtval | .sstatus | .stvec | .sepc | .scause | .stval
  | .hstatus | .hedeleg | .hideleg | .vsstatus | .vstvec | .vsepc | .vscause | .vstval => true
  | _ => false

/-- The CSRs a write of which reaches the sink. -/
def CsrId.isSink : CsrId → Bool
  | .sstrcambcs | .sstrcambaddr => true
  | _ => false

/-! ## Words for claims -/

/-- M-mode. -/
abbrev InM (s : State) : Prop := s.priv = .machine

/-- HS-mode (S-mode without H). -/
abbrev InHS (s : State) : Prop := s.priv = .supervisor ∧ s.virt = false

/-- U-mode with V = 0. -/
abbrev InU (s : State) : Prop := s.priv = .user ∧ s.virt = false

/-- VS-mode. -/
abbrev InVS (s : State) : Prop := s.priv = .supervisor ∧ s.virt = true

/-- VU-mode. -/
abbrev InVU (s : State) : Prop := s.priv = .user ∧ s.virt = true

end Sys2Proof.Machine
end

