-- ==== Sys2Proof/Certificates/Slice0/Obligations.lean ====
section
/-! DEFINITION. The statements for the provers. Each is about every state, so about every implementation: State carries
the parameters of R5. -/

section
open Sys2Proof Sys2Proof.Machine

/-! ## Encoding -/

/-- Decoding an encoded well-formed instruction gives it back (R101 to R103): no bit of an operand is dropped. -/
def Obligations.DecodeOfEncode : Prop :=
  ∀ i : Instr, i.WellFormed → decodeWord (encode i) = .ok i

/-- Every word the decoder accepts is the encoding of the well-formed instruction it reads (R101 to R103): no bit of a
word is ignored. -/
def Obligations.EncodeOfDecode : Prop :=
  ∀ (w : BitVec 32) (i : Instr), decodeWord w = .ok i → i.WellFormed ∧ encode i = w

/-- R103: the word of each of the six instructions, its masked bits, and that `funct3` 000 and 100 are no CSR access.
-/
def Obligations.EncodingLayout : Prop :=
  (∀ (rd rs1 : Reg) (uimm : BitVec 5) (csr : Nat), csr < 4096 →
    let word (src funct3 : Nat) : BitVec 32 :=
      (BitVec.ofNat 32 csr <<< 20) ||| (BitVec.ofNat 32 src <<< 15) ||| (BitVec.ofNat 32 funct3 <<< 12) |||
      (BitVec.ofNat 32 rd.val <<< 7) ||| 0x73#32
    encode (.csrrw rd csr rs1) = word rs1.val 1 ∧ encode (.csrrs rd csr rs1) = word rs1.val 2 ∧
    encode (.csrrc rd csr rs1) = word rs1.val 3 ∧ encode (.csrrwi rd csr uimm) = word uimm.toNat 5 ∧
    encode (.csrrsi rd csr uimm) = word uimm.toNat 6 ∧ encode (.csrrci rd csr uimm) = word uimm.toNat 7 ∧
    encode (.csrrw rd csr rs1) &&& 0x707F#32 = 0x1073#32 ∧ encode (.csrrs rd csr rs1) &&& 0x707F#32 = 0x2073#32 ∧
    encode (.csrrc rd csr rs1) &&& 0x707F#32 = 0x3073#32 ∧ encode (.csrrwi rd csr uimm) &&& 0x707F#32 = 0x5073#32 ∧
    encode (.csrrsi rd csr uimm) &&& 0x707F#32 = 0x6073#32 ∧
    encode (.csrrci rd csr uimm) &&& 0x707F#32 = 0x7073#32) ∧
  ∀ w : BitVec 32, w &&& 0x707F#32 = 0x0073#32 ∨ w &&& 0x707F#32 = 0x4073#32 → decodeWord w = .error .notCsrAccess

/-- Words written out from the encoding tables (T1, T4, T6, T15, T16 of 95_test_vectors.md) decode to the instruction
they stand for. A sanity statement. -/
def Obligations.SampleWordsDecode : Prop :=
  decodeWord 0x7C0312F3#32 = .ok (.csrrw 5 0x7C0 6) ∧ decodeWord 0x7C03A073#32 = .ok (.csrrs 0 0x7C0 7) ∧
  decodeWord 0x5C03B2F3#32 = .ok (.csrrc 5 0x5C0 7) ∧ decodeWord 0x7C0052F3#32 = .ok (.csrrwi 5 0x7C0 0) ∧
  decodeWord 0x5C02E073#32 = .ok (.csrrsi 0 0x5C0 5) ∧ decodeWord 0x5C1FFFF3#32 = .ok (.csrrci 31 0x5C1 31) ∧
  decodeWord 0x7C0F9FF3#32 = .ok (.csrrw 31 0x7C0 31)

/-! ## The machine -/

/-- When it is the hart's turn and its next input, if it has one, is an instruction of the table, the hart is not stalled,
the pc is even and the word there decodes to an instruction, the step is that instruction's `exec`, followed by the
encoder's reaction to it, what a read of EMPTY = 1 has promised having arrived before. Whose turn it is stands in the
agenda, and what the hart does in the list of its inputs (the model's choices, log entries 20 and 45). -/
def Obligations.StepRunsTheDecodedInstruction : Prop :=
  ∀ (s u v : State) (i : Instr),
    (s.agenda = [] ∧ u = arrive s) ∨ (∃ rest, s.agenda = .hart :: rest ∧ u = arrive { s with agenda := rest }) →
    (u.hartInputs = [] ∧ v = u) ∨ (∃ rest, u.hartInputs = .table :: rest ∧ v = { u with hartInputs := rest }) →
    s.hartHeld = false → u.pc.getLsbD 0 = false → decodeWord (fetchWord u.mem u.pc) = .ok i →
    ∃ t, exec i v = .next t ∧ step s = .next (observeInstr i u t)

/-- The hart's turn otherwise: while it is stalled it only sets STOF, whatever its next input is, and stays stalled; no
turn of another agent ends the stall but a hand-over of bytes and the debugger's bit (R171, R281, U10); an odd pc is no
instruction address (R61); a word outside the opcode table is refused (00_scope.md section 3). The model's choices are
log entries 22, 23, 36 and 37. -/
def Obligations.HartTurnStops : Prop :=
  (∀ s : State, s.agenda = [] →
    (s.hartHeld = true → step s = .next (stalled s) ∧ (stalled s).hartHeld = true) ∧
    (s.hartHeld = false → s.hartInputs = [] ∨ s.hartInputs.head? = some .table →
      (s.pc.getLsbD 0 = true → step s = .fault .pcMisaligned) ∧
      ∀ e, s.pc.getLsbD 0 = false → decodeWord (fetchWord (arrive s).mem s.pc) = .error e →
        step s = .refused (.outsideTable e))) ∧
  ∀ (s : State) (a : Action), s.hartHeld = true → a ≠ .handOver → (∀ v, a ≠ .debuggerSetDis v) →
    (act s a).hartHeld = true

/-- An instruction stored where the next step fetches is the one the next step runs. How a program is placed is the
model's choice (log entry 21). -/
def Obligations.PlacedInstructionRuns : Prop :=
  ∀ (s : State) (i : Instr), i.WellFormed → memWf s.mem → s.pc.getLsbD 0 = false →
    ∃ t, exec i (s.withFetchWord 32 (encode i).toNat) = .next t ∧
      step (s.withFetchWord 32 (encode i).toNat) = .next (observeInstr i (s.withFetchWord 32 (encode i).toNat) t)

/-- Every step keeps the invariant of the machine: the memory's canonical form, `x0` = 0, even instruction addresses,
a legal mode, legal trace control fields, context CSRs within their widths, the encoder's bounds, and no periodic
`Sync` overdue. That a session is open exactly while EN = 1 is D23's; the step in which a due `Sync` comes is the
model's choice (log entry 33). -/
def Obligations.StepKeepsInv : Prop :=
  ∀ s t : State, Inv s → step s = .next t → Inv t

/-- The reset state of every legal implementation, with legal reset values, meets the invariant. The values of
`State.reset` are the model's (log entries 1 to 6). -/
def Obligations.ResetMeetsInv : Prop :=
  Inv State.reset ∧
  ∀ (c : Config) (r : ResetValues), Legal c → CtlLegal c r.ctl → r.scontext.toNat < 2 ^ c.scontextBits →
    r.hcontext.toNat < 2 ^ c.hcontextBits → Inv (State.resetWith c r)

/-- After reset the hart is in M-mode with V = 0, `mstatus`.MIE = MPRV = 0 and the pc at the reset vector, and it may
access every STRC CSR whatever the state-enable bits hold, unless `trTeDisSelfHosted` = 1 (R272). -/
def Obligations.ResetReachesEveryStrcCsr : Prop :=
  ∀ (c : Config) (r : ResetValues), CsrNumbersLegal c →
    let s := State.resetWith c r
    s.priv = .machine ∧ s.virt = false ∧ s.pc = c.resetVector ∧ (csrRead s .mstatus).getLsbD 3 = false ∧
    (csrRead s .mstatus).getLsbD 17 = false ∧
    (r.dis = false → c.hasH = true → ∀ n ∈ strcNumbers c, ∀ b, checkAccess s n b = none)

/-! ## The six instructions -/

/-- R121. `csrrw` raises what the check says, or reads the CSR into `rd`, writes it with `x[rs1]` (the old value of
`x[rs1]`, also when `rd = rs1`), advances the pc by 4, and changes nothing else. -/
def Obligations.CsrrwSwaps : Prop :=
  ∀ (rd : Reg) (csr : Nat) (rs1 : Reg) (s : State),
    (∀ e, checkAccess s csr true = some e →
      exec (.csrrw rd csr rs1) s = .next (raiseExc s e (encode (.csrrw rd csr rs1)))) ∧
    (checkAccess s csr true = none → ∃ id t, csrOf s.cfg csr = some id ∧ exec (.csrrw rd csr rs1) s = .next t ∧
      t.pc = s.pc + 4 ∧ t.readReg rd = (if rd = 0 then 0 else csrRead s (resolveCsr id s.virt)) ∧
      SameRegsBut rd s t ∧
      t = { csrWrite s (resolveCsr id s.virt) (s.readReg rs1) with x := t.x, pc := t.pc })

/-- R122. `csrrs` reads the CSR into `rd`; with `rs1 ≠ x0` it writes the old value with the bits of `x[rs1]` set, with
`rs1 = x0` it writes nothing. -/
def Obligations.CsrrsSetsBits : Prop :=
  ∀ (rd : Reg) (csr : Nat) (rs1 : Reg) (s : State),
    (∀ e, checkAccess s csr (decide (rs1 ≠ 0)) = some e →
      exec (.csrrs rd csr rs1) s = .next (raiseExc s e (encode (.csrrs rd csr rs1)))) ∧
    (checkAccess s csr (decide (rs1 ≠ 0)) = none →
      ∃ id t, csrOf s.cfg csr = some id ∧ exec (.csrrs rd csr rs1) s = .next t ∧
      t.pc = s.pc + 4 ∧ t.readReg rd = (if rd = 0 then 0 else csrRead s (resolveCsr id s.virt)) ∧
      SameRegsBut rd s t ∧
      t = { (if rs1 = 0 then s
             else csrWrite s (resolveCsr id s.virt) (csrRead s (resolveCsr id s.virt) ||| s.readReg rs1)) with
            x := t.x, pc := t.pc })

/-- R123. `csrrc` reads the CSR into `rd`; with `rs1 ≠ x0` it writes the old value with the bits of `x[rs1]` cleared,
with `rs1 = x0` it writes nothing. -/
def Obligations.CsrrcClearsBits : Prop :=
  ∀ (rd : Reg) (csr : Nat) (rs1 : Reg) (s : State),
    (∀ e, checkAccess s csr (decide (rs1 ≠ 0)) = some e →
      exec (.csrrc rd csr rs1) s = .next (raiseExc s e (encode (.csrrc rd csr rs1)))) ∧
    (checkAccess s csr (decide (rs1 ≠ 0)) = none →
      ∃ id t, csrOf s.cfg csr = some id ∧ exec (.csrrc rd csr rs1) s = .next t ∧
      t.pc = s.pc + 4 ∧ t.readReg rd = (if rd = 0 then 0 else csrRead s (resolveCsr id s.virt)) ∧
      SameRegsBut rd s t ∧
      t = { (if rs1 = 0 then s
             else csrWrite s (resolveCsr id s.virt) (csrRead s (resolveCsr id s.virt) &&& ~~~s.readReg rs1)) with
            x := t.x, pc := t.pc })

/-- R124. `csrrwi` reads the CSR into `rd` and writes it with the zero-extended immediate, also when that is 0. -/
def Obligations.CsrrwiWritesImmediate : Prop :=
  ∀ (rd : Reg) (csr : Nat) (uimm : BitVec 5) (s : State),
    (∀ e, checkAccess s csr true = some e →
      exec (.csrrwi rd csr uimm) s = .next (raiseExc s e (encode (.csrrwi rd csr uimm)))) ∧
    (checkAccess s csr true = none → ∃ id t, csrOf s.cfg csr = some id ∧ exec (.csrrwi rd csr uimm) s = .next t ∧
      t.pc = s.pc + 4 ∧ t.readReg rd = (if rd = 0 then 0 else csrRead s (resolveCsr id s.virt)) ∧
      SameRegsBut rd s t ∧
      t = { csrWrite s (resolveCsr id s.virt) (uimm.setWidth 64) with x := t.x, pc := t.pc })

/-- R125. `csrrsi` reads the CSR into `rd`; with `uimm ≠ 0` it writes the old value with the bits of the immediate
set, with `uimm = 0` it writes nothing. -/
def Obligations.CsrrsiSetsImmediateBits : Prop :=
  ∀ (rd : Reg) (csr : Nat) (uimm : BitVec 5) (s : State),
    (∀ e, checkAccess s csr (decide (uimm ≠ 0)) = some e →
      exec (.csrrsi rd csr uimm) s = .next (raiseExc s e (encode (.csrrsi rd csr uimm)))) ∧
    (checkAccess s csr (decide (uimm ≠ 0)) = none →
      ∃ id t, csrOf s.cfg csr = some id ∧ exec (.csrrsi rd csr uimm) s = .next t ∧
      t.pc = s.pc + 4 ∧ t.readReg rd = (if rd = 0 then 0 else csrRead s (resolveCsr id s.virt)) ∧
      SameRegsBut rd s t ∧
      t = { (if uimm = 0 then s
             else csrWrite s (resolveCsr id s.virt) (csrRead s (resolveCsr id s.virt) ||| uimm.setWidth 64)) with
            x := t.x, pc := t.pc })

/-- R126. `csrrci` reads the CSR into `rd`; with `uimm ≠ 0` it writes the old value with the bits of the immediate
cleared, with `uimm = 0` it writes nothing. -/
def Obligations.CsrrciClearsImmediateBits : Prop :=
  ∀ (rd : Reg) (csr : Nat) (uimm : BitVec 5) (s : State),
    (∀ e, checkAccess s csr (decide (uimm ≠ 0)) = some e →
      exec (.csrrci rd csr uimm) s = .next (raiseExc s e (encode (.csrrci rd csr uimm)))) ∧
    (checkAccess s csr (decide (uimm ≠ 0)) = none →
      ∃ id t, csrOf s.cfg csr = some id ∧ exec (.csrrci rd csr uimm) s = .next t ∧
      t.pc = s.pc + 4 ∧ t.readReg rd = (if rd = 0 then 0 else csrRead s (resolveCsr id s.virt)) ∧
      SameRegsBut rd s t ∧
      t = { (if uimm = 0 then s
             else csrWrite s (resolveCsr id s.virt) (csrRead s (resolveCsr id s.virt) &&& ~~~(uimm.setWidth 64))) with
            x := t.x, pc := t.pc })

/-- The frame of the six instructions when the access is performed: every byte of memory, every register but `rd`, the
mode, the encoder, `trTeDisSelfHosted` and what only the environment changes stay as they were, and so does every
group of CSRs that the CSR named (after the substitution of R137) is not in. That `exec` leaves the encoder as it was
also when the instruction writes EN, its reaction coming after `exec` in the same step, is the model's choice (log entry
40); so is that `time` and `cycle` stay, which advance in turns of their own (log entry 25). -/
def Obligations.CsrAccessFrame : Prop :=
  ∀ (i : Instr) (s : State) (id : CsrId), instrRaises i s = none → csrOf s.cfg i.csrNumber = some id →
    ∃ t rd, exec i s = .next t ∧ fieldRd (encode i) = rd ∧ SameMemory s t ∧ t.mem = s.mem ∧ SameRegsBut rd s t ∧
      SameMode s t ∧ SameOutside s t ∧ t.enc = s.enc ∧ t.dis = s.dis ∧
      ((resolveCsr id s.virt).isControl = false → t.ctl = s.ctl ∧ t.vsctl = s.vsctl) ∧
      ((resolveCsr id s.virt).isSink = false → t.amb = s.amb) ∧
      ((resolveCsr id s.virt).isEnv = false → t.env = s.env) ∧
      ((resolveCsr id s.virt).isTrap = false → t.trap = s.trap)

/-! ## Exceptions -/

/-- R240, R241: "No state of this spec changes" when an instruction raises; neither do memory or the general
registers. -/
def Obligations.RaisingChangesNoTraceState : Prop :=
  ∀ (i : Instr) (s : State) (e : Exc), instrRaises i s = some e →
    ∃ t, exec i s = .next t ∧ SameTrace s t ∧ t.env = s.env ∧ SameRegs s t ∧ SameMemory s t ∧ SameOutside s t

/-- An illegal-instruction exception: cause 2, the address of the instruction, its bits or zero; taken in M-mode, or
in HS-mode when `medeleg` delegates it, or in VS-mode when `hedeleg` delegates it further (R240, R246). The layout of
the trap registers and the unvectored handler address are the model's (log entries 6 and 10). -/
def Obligations.IllegalInstructionTrap : Prop :=
  ∀ (i : Instr) (s : State), instrRaises i s = some .illegalInstruction →
    ∃ t, exec i s = .next t ∧
      (s.priv = .machine ∨ s.trap.medeleg.getLsbD 2 = false →
        t.priv = .machine ∧ t.virt = false ∧ t.pc = vectorAddr s.trap.mtvec ∧ t.trap.mepc = s.pc ∧
        t.trap.mcause = 2 ∧ (t.trap.mtval = 0 ∨ t.trap.mtval = (encode i).setWidth 64) ∧
        t.trap.mstatus.mpp = s.priv ∧ t.trap.mstatus.mpv = s.virt ∧ t.trap.mstatus.mpie = s.trap.mstatus.mie ∧
        t.trap.mstatus.mie = false) ∧
      (s.priv ≠ .machine → s.trap.medeleg.getLsbD 2 = true → s.virt = false ∨ s.trap.hedeleg.getLsbD 2 = false →
        t.priv = .supervisor ∧ t.virt = false ∧ t.pc = vectorAddr s.trap.stvec ∧ t.trap.sepc = s.pc ∧
        t.trap.scause = 2 ∧ (t.trap.stval = 0 ∨ t.trap.stval = (encode i).setWidth 64) ∧
        t.trap.mstatus.spp = decide (s.priv = .supervisor) ∧ t.trap.hstatus.spv = s.virt ∧
        t.trap.mstatus.spie = s.trap.mstatus.sie ∧ t.trap.mstatus.sie = false) ∧
      (s.priv ≠ .machine → s.trap.medeleg.getLsbD 2 = true → s.virt = true → s.trap.hedeleg.getLsbD 2 = true →
        t.priv = .supervisor ∧ t.virt = true ∧ t.pc = vectorAddr s.trap.vstvec ∧ t.trap.vsepc = s.pc ∧
        t.trap.vscause = 2 ∧ (t.trap.vstval = 0 ∨ t.trap.vstval = (encode i).setWidth 64) ∧
        t.trap.vsstatus.spp = decide (s.priv = .supervisor) ∧ t.trap.vsstatus.spie = s.trap.vsstatus.sie ∧
        t.trap.vsstatus.sie = false)

/-- A virtual-instruction exception is raised only with V = 1, has cause 22, and goes to M-mode or HS-mode, never to
VS-mode (R241, R246). The layout and the handler address are the model's (log entries 6 and 10). -/
def Obligations.VirtualInstructionTrap : Prop :=
  ∀ (i : Instr) (s : State), instrRaises i s = some .virtualInstruction →
    s.virt = true ∧ ∃ t, exec i s = .next t ∧ t.virt = false ∧
      (s.trap.medeleg.getLsbD 22 = false →
        t.priv = .machine ∧ t.pc = vectorAddr s.trap.mtvec ∧ t.trap.mepc = s.pc ∧ t.trap.mcause = 22 ∧
        (t.trap.mtval = 0 ∨ t.trap.mtval = (encode i).setWidth 64) ∧ t.trap.mstatus.mpp = s.priv ∧
        t.trap.mstatus.mpv = true) ∧
      (s.trap.medeleg.getLsbD 22 = true →
        t.priv = .supervisor ∧ t.pc = vectorAddr s.trap.stvec ∧ t.trap.sepc = s.pc ∧ t.trap.scause = 22 ∧
        (t.trap.stval = 0 ∨ t.trap.stval = (encode i).setWidth 64) ∧
        t.trap.mstatus.spp = decide (s.priv = .supervisor) ∧ t.trap.hstatus.spv = true)

/-- R246: no STRC CSR is changed by trap entry or return, nor are the environment registers, the general registers and
memory. -/
def Obligations.TrapsKeepTraceState : Prop :=
  ∀ (s : State) (interrupt : Bool) (cause : BitVec 6) (tval : Word),
    ∀ t ∈ [takeTrap s interrupt cause tval, returnMachine s, returnFromTrap s],
      SameTrace s t ∧ t.env = s.env ∧ SameRegs s t ∧ SameMemory s t ∧ SameOutside s t

/-- R246: "`mret` and `sret` reverse this". The return from a trap gives back the pc, the mode and the interrupt
enable of the level it was taken to. What else a return leaves is the model's choice (log entry 11). -/
def Obligations.TrapReturnReversesEntry : Prop :=
  ∀ (s : State) (interrupt : Bool) (cause : BitVec 6) (tval : Word), ModeLegal s →
    (let t := returnMachine (enterMachine s interrupt cause tval)
     t.pc = s.pc ∧ t.priv = s.priv ∧ t.virt = s.virt ∧ t.trap.mstatus.mie = s.trap.mstatus.mie) ∧
    (s.priv ≠ .machine →
      let t := returnFromTrap (enterSupervisor s interrupt cause tval)
      t.pc = s.pc ∧ t.priv = s.priv ∧ t.virt = s.virt ∧ t.trap.mstatus.sie = s.trap.mstatus.sie) ∧
    (s.virt = true →
      let t := returnFromTrap (enterVirtualSupervisor s interrupt cause tval)
      t.pc = s.pc ∧ t.priv = s.priv ∧ t.virt = s.virt ∧ t.trap.vsstatus.sie = s.trap.vsstatus.sie)

/-! ## Access control -/

/-- R128: while `trTeDisSelfHosted` = 1 an instruction that names one of the five STRC CSRs raises an
illegal-instruction exception in every mode, M-mode included; without H so does one that names `vsstrcctl`. -/
def Obligations.StrcCsrExistence : Prop :=
  ∀ (i : Instr) (s : State), CsrNumbersLegal s.cfg →
    (i.csrNumber ∈ strcNumbers s.cfg ∧ s.dis = true) ∨ (i.csrNumber = s.cfg.csrVsstrcctl ∧ s.cfg.hasH = false) →
    exec i s = .next (raiseExc s .illegalInstruction (encode i))

/-- R106: an instruction that names a CSR the hart does not implement raises an illegal-instruction exception in every
mode. Which CSRs it implements besides the STRC CSRs is the model's choice (log entry 13). -/
def Obligations.UnimplementedCsrIsIllegal : Prop :=
  ∀ (i : Instr) (s : State),
    csrOf s.cfg i.csrNumber = none ∨
      (∃ id, csrOf s.cfg i.csrNumber = some id ∧ id.isStrc = false ∧ hostCsrExists s.cfg id = false) →
    exec i s = .next (raiseExc s .illegalInstruction (encode i))

/-- R138: the table of outcomes, row by row, with `trTeDisSelfHosted` = 0 and H; and what each CSR reaches. -/
def Obligations.AccessTable : Prop :=
  ∀ (s : State) (isWrite : Bool), CsrNumbersLegal s.cfg → s.dis = false → s.cfg.hasH = true →
    checkAccess s s.cfg.csrMstrcctl isWrite = (if s.priv = .machine then none else some .illegalInstruction) ∧
    (∀ n ∈ [s.cfg.csrSstrcctl, s.cfg.csrSstrcambcs, s.cfg.csrSstrcambaddr],
      checkAccess s n isWrite =
        match s.priv, s.virt with
        | .machine, _ => none
        | .supervisor, false => if s.mSTRC then none else some .illegalInstruction
        | .user, false => some .illegalInstruction
        | .supervisor, true =>
          if s.mSTRC then (if s.hSTRC then none else some .virtualInstruction) else some .illegalInstruction
        | .user, true => if s.mSTRC then some .virtualInstruction else some .illegalInstruction) ∧
    checkAccess s s.cfg.csrVsstrcctl isWrite =
      (match s.priv, s.virt with
       | .machine, _ => none
       | .supervisor, false => if s.mSTRC then none else some .illegalInstruction
       | .user, false => some .illegalInstruction
       | _, true => if s.mSTRC then some .virtualInstruction else some .illegalInstruction)

/-- R134: below M-mode with both machine-level bits 0, an access to `scontext` or `hcontext` raises an
illegal-instruction exception; either bit alone opens them to HS-mode. The second part is the contrapositive R134
derives. -/
def Obligations.ContextCsrsUnderMstateen0 : Prop :=
  ∀ (i : Instr) (s : State), CsrNumbersLegal s.cfg → i.csrNumber = 0x5A8 ∨ i.csrNumber = 0x6A8 → s.priv ≠ .machine →
    (s.mSTRC = false → s.m57 = false → instrRaises i s = some .illegalInstruction) ∧
    (InHS s → s.mSTRC = true ∨ s.m57 = true → instrRaises i s = none)

/-- R135 (and D16, D24): with V = 1 and the machine-level condition met, `scontext` is open to VS-mode when
`hstateen0`.STRC or `hstateen0`[57] reads 1 and raises a virtual-instruction exception otherwise; VU-mode never
reaches it, and `hcontext` is never reached with V = 1. -/
def Obligations.ContextCsrsWithVirtualization : Prop :=
  ∀ (i : Instr) (s : State), CsrNumbersLegal s.cfg → s.priv ≠ .machine → s.virt = true →
    s.mSTRC = true ∨ s.m57 = true →
    (i.csrNumber = 0x5A8 → s.priv = .supervisor →
      (s.hSTRC = true ∨ s.h57 = true → instrRaises i s = none) ∧
      (s.hSTRC = false → s.h57 = false → instrRaises i s = some .virtualInstruction)) ∧
    (i.csrNumber = 0x5A8 → s.priv = .user → instrRaises i s = some .virtualInstruction) ∧
    (i.csrNumber = 0x6A8 → instrRaises i s = some .virtualInstruction)

/-- R129, R104: `menvcfg` and `mstateen0` need M-mode; `henvcfg` and `hstateen0` need M-mode or HS-mode, and raise an
illegal-instruction exception in U-mode and a virtual-instruction exception with V = 1. It is the decision D24; no
further enable bit is modelled (log entry 14). -/
def Obligations.PrivilegeByCsrNumber : Prop :=
  ∀ (i : Instr) (s : State), CsrNumbersLegal s.cfg → s.cfg.hasH = true → s.cfg.hasSmstateen = true →
    (i.csrNumber = 0x30A ∨ i.csrNumber = 0x30C →
      instrRaises i s = if s.priv = .machine then none else some .illegalInstruction) ∧
    (i.csrNumber = 0x60A ∨ i.csrNumber = 0x60C →
      instrRaises i s =
        match s.priv, s.virt with
        | .machine, _ => none
        | .supervisor, false => none
        | .user, false => some .illegalInstruction
        | _, true => some .virtualInstruction)

/-- The read-only counters (R55, R104, R105): in every mode a read of `time` gives `time`, plus `htimedelta` with V =
1, a read of `cycle` gives `cycle`, and a form that writes raises an illegal-instruction exception. No counter-enable
register is modelled (log entry 14). -/
def Obligations.CountersAreReadOnly : Prop :=
  ∀ (s : State) (rd : Reg), CsrNumbersLegal s.cfg →
    (∃ t, exec (.csrrs rd 0xC01 0) s = .next t ∧ t.pc = s.pc + 4 ∧
      t.readReg rd = (if rd = 0 then 0 else if s.virt then s.time + s.env.htimedelta else s.time)) ∧
    (∃ t, exec (.csrrs rd 0xC00 0) s = .next t ∧ t.pc = s.pc + 4 ∧ t.readReg rd = (if rd = 0 then 0 else s.cycle)) ∧
    ∀ i : Instr, i.csrNumber = 0xC00 ∨ i.csrNumber = 0xC01 → instrWrites i = true →
      exec i s = .next (raiseExc s .illegalInstruction (encode i))

/-- R137: with V = 1 an instruction that names `sstrcctl` accesses `vsstrcctl`; no other STRC CSR is substituted. The
access is checked by the number in the instruction. -/
def Obligations.VsstrcctlSubstitutes : Prop :=
  ∀ s : State, CsrNumbersLegal s.cfg →
    (csrOf s.cfg s.cfg.csrSstrcctl).map (resolveCsr · s.virt) = some (if s.virt then .vsstrcctl else .sstrcctl) ∧
    (csrOf s.cfg s.cfg.csrMstrcctl).map (resolveCsr · s.virt) = some .mstrcctl ∧
    (csrOf s.cfg s.cfg.csrVsstrcctl).map (resolveCsr · s.virt) = some .vsstrcctl ∧
    (csrOf s.cfg s.cfg.csrSstrcambcs).map (resolveCsr · s.virt) = some .sstrcambcs ∧
    (csrOf s.cfg s.cfg.csrSstrcambaddr).map (resolveCsr · s.virt) = some .sstrcambaddr ∧
    ∀ rd rs1 : Reg, s.virt = true → checkAccess s s.cfg.csrSstrcctl true = none →
      ∃ t, exec (.csrrw rd s.cfg.csrSstrcctl rs1) s = .next t ∧
        t.readReg rd = (if rd = 0 then 0 else csrRead s .vsstrcctl) ∧
        t = { csrWrite s .vsstrcctl (s.readReg rs1) with x := t.x, pc := s.pc + 4 }

/-! ## Reads and writes of the trace CSRs -/

/-- R140: what a read of each STRC CSR returns, every field of `mstrcctl` at its position (R21) and every `WPRI` bit
0; the bits that `henvcfg` and `hstateen0` show as 0 while `mstateen0`.STRC = 0; and that a read has no side effect.
That a record waiting for space keeps EMPTY at 0 is the model's choice (log entry 36). -/
def Obligations.CsrReadValues : Prop :=
  ∀ s : State, s.cfg.strcSeBit < 64 →
    (let v := csrRead s .mstrcctl
     v.getLsbD 0 = s.ctl.en ∧ v.getLsbD 1 = (s.enc.buffer.isEmpty && s.enc.owed.isEmpty) ∧ v.getLsbD 2 = s.ctl.it ∧
     v.getLsbD 8 = s.ctl.cen ∧ v.getLsbD 10 = s.ctl.iten ∧ v.getLsbD 11 = s.ctl.stof ∧ v.getLsbD 12 = s.ctl.sten ∧
     v.extractLsb' 15 2 = s.ctl.smod ∧ v.extractLsb' 19 4 = s.ctl.smax ∧ v.getLsbD 32 = s.ctl.nta ∧
     v.getLsbD 33 = s.ctl.esj ∧ v.getLsbD 34 = s.ctl.eir ∧ v.getLsbD 35 = s.ctl.ebp ∧ v.getLsbD 36 = s.ctl.etc ∧
     v.getLsbD 37 = s.ctl.erh ∧ v.getLsbD 38 = s.ctl.eaj ∧ v.getLsbD 39 = s.ctl.eam ∧ v.getLsbD 60 = s.ctl.tsen ∧
     v.getLsbD 61 = s.ctl.u ∧ v.getLsbD 62 = s.ctl.s ∧ v.getLsbD 63 = s.ctl.m ∧
     v &&& 0x0FFF_FF00_FF86_62F8#64 = 0 ∧
     csrRead s .sstrcctl = v &&& 0x7FFF_FFFF_FFFF_FFFF#64 ∧
     csrRead s .vsstrcctl = 0#1 ++ BitVec.ofBool s.vsctl.s ++ BitVec.ofBool s.vsctl.u ++ v.extractLsb' 0 61) ∧
    csrRead s .sstrcambcs = Config.ambReadCs s.amb ∧ csrRead s .sstrcambaddr = Config.ambReadAddr s.amb ∧
    (s.mSTRC = false →
      (csrRead s .henvcfg).getLsbD 58 = false ∧ (csrRead s .hstateen0).getLsbD s.cfg.strcSeBit = false) ∧
    ∀ (rd : Reg) (csr : Nat), checkAccess s csr false = none →
      ∃ t, exec (.csrrs rd csr 0) s = .next t ∧ t = { s with x := t.x, pc := t.pc }

/-- R141: what a write of `mstrcctl` stores, field by field; EMPTY is not written, and two values that differ only in
EMPTY and the `WPRI` bits have the same effect. -/
def Obligations.MstrcctlWriteStores : Prop :=
  ∀ (s : State) (w : Word),
    let t := csrWrite s .mstrcctl w
    t = { s with ctl := t.ctl } ∧ t.empty = s.empty ∧
    t.ctl.en = w.getLsbD 0 ∧ t.ctl.it = w.getLsbD 2 ∧ t.ctl.cen = w.getLsbD 8 ∧
    t.ctl.iten = (s.cfg.implIten && w.getLsbD 10) ∧ t.ctl.stof = w.getLsbD 11 ∧
    t.ctl.sten = (s.cfg.implSten && w.getLsbD 12) ∧
    t.ctl.smod = (if smodLegal s.cfg (w.extractLsb' 15 2) then w.extractLsb' 15 2
                  else smodLegalize s.cfg (w.extractLsb' 15 2)) ∧
    t.ctl.smax = w.extractLsb' 19 4 ∧ t.ctl.nta = (s.cfg.implNta && w.getLsbD 32) ∧
    t.ctl.esj = (s.cfg.implEsj && w.getLsbD 33) ∧ t.ctl.eir = (s.cfg.implEir && w.getLsbD 34) ∧
    t.ctl.ebp = (s.cfg.implEbp && w.getLsbD 35) ∧ t.ctl.etc = (s.cfg.implEtc && w.getLsbD 36) ∧
    t.ctl.erh = (s.cfg.implErh && w.getLsbD 37) ∧ t.ctl.eaj = (s.cfg.implEaj && w.getLsbD 38) ∧
    t.ctl.eam = (s.cfg.implEam && w.getLsbD 39) ∧ t.ctl.tsen = w.getLsbD 60 ∧ t.ctl.u = w.getLsbD 61 ∧
    t.ctl.s = w.getLsbD 62 ∧ t.ctl.m = w.getLsbD 63 ∧
    ∀ w', (w ^^^ w') &&& 0xF000_00FF_0079_9D05#64 = 0 → csrWrite s .mstrcctl w' = t

/-- What software reads back after writing `mstrcctl` (R21, R43, R141): on an implementation with every optional field
and sync mechanism, the written value under the mask of all named fields; on one with no optional field, under the
mask of the required fields with SMOD legalised; EMPTY as it is in both. -/
def Obligations.MstrcctlReadsBackUnderMask : Prop :=
  ∀ (s : State) (w : Word),
    let c := s.cfg
    let v := csrRead (csrWrite s .mstrcctl w) .mstrcctl
    (c.implIten ∧ c.implSten ∧ c.implNta ∧ c.implEsj ∧ c.implEir ∧ c.implEbp ∧ c.implEtc ∧ c.implErh ∧ c.implEaj ∧
      c.implEam ∧ c.smodImpl1 ∧ c.smodImpl2 ∧ c.smodImpl3 →
      v = (w &&& 0xF000_00FF_0079_9D05#64) ||| bitAt 1 s.empty) ∧
    (!c.implIten ∧ !c.implSten ∧ !c.implNta ∧ !c.implEsj ∧ !c.implEir ∧ !c.implEbp ∧ !c.implEtc ∧ !c.implErh ∧
      !c.implEaj ∧ !c.implEam →
      v = (w &&& 0xF000_0000_0078_0905#64) ||| fieldAt 15 (smodStored c (w.extractLsb' 15 2)) ||| bitAt 1 s.empty)

/-- Writing back through any of the three views what a read of that view returned changes nothing (R122: a set form
with no bit set cannot lose a hardware update), when the stored fields are legal. -/
def Obligations.WriteBackChangesNothing : Prop :=
  ∀ s : State, CtlLegal s.cfg s.ctl →
    csrWrite s .mstrcctl (csrRead s .mstrcctl) = s ∧ csrWrite s .sstrcctl (csrRead s .sstrcctl) = s ∧
    csrWrite s .vsstrcctl (csrRead s .vsstrcctl) = s

/-- R142: a write of `sstrcctl` is the write of `mstrcctl` that keeps M. -/
def Obligations.SstrcctlWriteKeepsM : Prop :=
  ∀ (s : State) (w : Word),
    csrWrite s .sstrcctl w = csrWrite s .mstrcctl (BitVec.ofBool s.ctl.m ++ w.extractLsb' 0 63) ∧
    csrWrite s .sstrcctl w = { s with ctl := { (csrWrite s .mstrcctl w).ctl with m := s.ctl.m } }

/-- R143 (D4): a write of `vsstrcctl` writes its own S and U, and of `mstrcctl` every field but M, S and U. -/
def Obligations.VsstrcctlWriteKeepsMSU : Prop :=
  ∀ (s : State) (w : Word),
    csrWrite s .vsstrcctl w =
      { s with
        vsctl := { s := w.getLsbD 62, u := w.getLsbD 61 }
        ctl := { (csrWrite s .mstrcctl w).ctl with m := s.ctl.m, s := s.ctl.s, u := s.ctl.u } }

/-- R146: what a write of each of the four enable bits does, as a read of its CSR then shows it: STRCS is stored,
STRCV and `hstateen0`.STRC only while `mstateen0`.STRC reads 1, and all four read 0 while `trTeDisSelfHosted` = 1. -/
def Obligations.EnableBitWrites : Prop :=
  ∀ (s : State) (w : Word), s.cfg.strcSeBit < 64 →
    (csrRead (csrWrite s .menvcfg w) .menvcfg).getLsbD 58 = (!s.dis && w.getLsbD 58) ∧
    (s.cfg.hasH = true →
      (csrRead (csrWrite s .henvcfg w) .henvcfg).getLsbD 58 = (s.mSTRC && w.getLsbD 58)) ∧
    (s.mSTRC = false → (csrWrite s .henvcfg w).env.strcv = s.env.strcv) ∧
    (s.cfg.hasSmstateen = true →
      (csrRead (csrWrite s .mstateen0 w) .mstateen0).getLsbD s.cfg.strcSeBit =
        (!s.dis && w.getLsbD s.cfg.strcSeBit) ∧
      (csrRead (csrWrite s .hstateen0 w) .hstateen0).getLsbD s.cfg.strcSeBit =
        (s.mSTRC && w.getLsbD s.cfg.strcSeBit)) ∧
    (s.mSTRC = false → (csrWrite s .hstateen0 w).env.hstrc = s.env.hstrc) ∧
    (s.dis = true →
      (csrRead s .menvcfg).getLsbD 58 = false ∧ (csrRead s .henvcfg).getLsbD 58 = false ∧
      (csrRead s .mstateen0).getLsbD s.cfg.strcSeBit = false ∧
      (csrRead s .hstateen0).getLsbD s.cfg.strcSeBit = false)

/-- The context CSRs hold their implemented low bits; the others read 0 (R53, R54, D20). A write of `sstrcambcs` or
`sstrcambaddr` hands the value to the AMB (R145). That its registers, buffer and position become a free function of the
AMB and the value, that the bytes it has taken stay pending at their places, and that nothing else changes, is the
model's choice (log entries 41 and 42). -/
def Obligations.ContextCsrWrites : Prop :=
  ∀ (s : State) (w : Word),
    (s.cfg.scontextBits ≤ 32 → s.cfg.hcontextBits ≤ 32 →
      (csrRead (csrWrite s .scontext w) .scontext).toNat = w.toNat % 2 ^ s.cfg.scontextBits ∧
      (csrRead (csrWrite s .hcontext w) .hcontext).toNat = w.toNat % 2 ^ s.cfg.hcontextBits) ∧
    csrWrite s .sstrcambcs w = { s with amb := ⟨Config.ambWriteCs s.amb w, s.amb.pending⟩ } ∧
    csrWrite s .sstrcambaddr w = { s with amb := ⟨Config.ambWriteAddr s.amb w, s.amb.pending⟩ }

/-! ## Who controls the trace -/

/-- Whatever step the machine takes, the debugger's own turn apart: software below M-mode cannot change the M bit;
with V = 1 it cannot change M, S or U of `mstrcctl`; user-mode software changes no STRC state but through the hardware
writes of IT and STOF (R250, R44, R143). That a guest keeps `mstrcctl`.M, S and U is D4's. -/
def Obligations.PrivilegeOverTraceControl : Prop :=
  ∀ s t : State, step s = .next t → (∀ v, s.agenda.head? ≠ some (.debuggerSetDis v)) → s.priv ≠ .machine →
    t.ctl.m = s.ctl.m ∧
    (s.virt = true → t.ctl.s = s.ctl.s ∧ t.ctl.u = s.ctl.u) ∧
    (s.priv = .user →
      t.ctl = { s.ctl with it := t.ctl.it, stof := t.ctl.stof } ∧ t.vsctl = s.vsctl ∧ t.env.strcs = s.env.strcs ∧
      t.env.strcv = s.env.strcv ∧ t.env.mstrc = s.env.mstrc ∧ t.env.hstrc = s.env.hstrc ∧
      t.env.scontext = s.env.scontext ∧ t.env.hcontext = s.env.hcontext)

/-- The turns of the agents other than the hart's table instructions and the debugger: hardware writes no field of
`mstrcctl` but IT, only with ITEN = 1, and STOF, which it only sets (R10, R22, R24, R27); it never writes the other
trace control state (R277). -/
def Obligations.HardwareWritesOnlyItAndStof : Prop :=
  ∀ (s : State) (a : Action), (∀ v, a ≠ .debuggerSetDis v) →
    (act s a).ctl = { s.ctl with it := (act s a).ctl.it, stof := (act s a).ctl.stof } ∧
    (s.ctl.iten = false → (act s a).ctl.it = s.ctl.it) ∧ (s.ctl.stof = true → (act s a).ctl.stof = true) ∧
    (act s a).vsctl = s.vsctl ∧ (act s a).env = s.env ∧ (act s a).dis = s.dis

/-- R166, R26: with ITEN = 1 "Trace on" sets IT and "Trace off" clears it, and neither changes anything else, but that
trace which begins with a full sync event counter begins with the `Sync` that is due; a notify does not change IT, and
generates its item exactly while trace is generated; with ITEN = 0 no firing has an effect. What a notification does is
R166's own inference from one word; where it waits, and when a due `Sync` comes, are the model's choices (log entries 36
and 33). -/
def Obligations.TriggerActions : Prop :=
  ∀ s : State, s.dis = false → SyncSettled s →
    (s.ctl.iten = true →
      (let t : State := { s with ctl := { s.ctl with it := true } }
       Completes t (act s (.trigger .traceOn)) ∧ (SyncSettled t → act s (.trigger .traceOn) = t)) ∧
      act s (.trigger .traceOff) = { s with ctl := { s.ctl with it := false } } ∧
      Completes s (act s (.trigger .notify)) ∧
      (s.generating = false → act s (.trigger .notify) = s) ∧
      (s.generating = true →
        let r := mkRecord s .triggerNotify
        let u := act s (.trigger .notify)
        Appends s u (· = stamp s.cfg s.ctl s.enc r) ∨ Waits u (· = stamp s.cfg s.ctl s.enc r) ∨
          Lost s.cfg s.ctl s.enc r u)) ∧
    (s.ctl.iten = false → ∀ a, act s (.trigger a) = s)

/-! ## The trace encoder -/

/-- R160, R161: trace is generated exactly when `trTeDisSelfHosted` = 0, EN = 1, IT = 1, the hart's mode is enabled by
its bit, and the hart is not in Debug Mode (D21). -/
def Obligations.GeneratingCondition : Prop :=
  ∀ s : State, s.generating = true ↔
    s.dis = false ∧ s.ctl.en = true ∧ s.ctl.it = true ∧ s.debugMode = false ∧
    (s.priv = .machine ∧ s.ctl.m = true ∨ InHS s ∧ s.ctl.s = true ∨ InU s ∧ s.ctl.u = true ∨
     InVS s ∧ s.vsctl.s = true ∨ InVU s ∧ s.vsctl.u = true)

/-- R231: the privilege choice vector, indexed by the privilege input, is the mode filter of R161. -/
def Obligations.PrivilegeVectorIsFilter : Prop :=
  ∀ s : State, ModeLegal s → s.privilegeChoice.getLsbD s.privilegeInput.toNat = s.modeEnabled

/-- R160: an instruction that retires, or raises, while no trace is generated, and that does not switch EN, contributes
nothing to the trace: its own effect stands, and only a periodic `Sync` can be appended after it, where one is due. Where
none is due, and no trace is generated after it either, the trace and the internal buffers are as they were. What may
mark where tracing stopped are items of their own (log entry 39); the step of a due `Sync` is log entry 33's. -/
def Obligations.UntracedInstructionAddsNothing : Prop :=
  ∀ (i : Instr) (s t : State), exec i s = .next t → s.generating = false → t.ctl.en = s.ctl.en →
    let u := observeInstr i s t
    Completes (afterRead i s t) u ∧
    (∃ l, u.enc.trace = s.enc.trace ++ l ∧ ∀ r ∈ l, r.item = .sync ∨ r.item = .encapSync) ∧
    (SyncSettled s → t.generating = false → t.ctl.smod = s.ctl.smod → t.ctl.smax = s.ctl.smax →
      u.enc.trace = s.enc.trace ∧ u.enc.buffer = s.enc.buffer ∧ u.ctl = t.ctl)

/-- R160, R147, R170, R171: an instruction that retires while trace is generated, the one that clears EN included: it is
judged with the values before its own write, and so is the last one traced. With STEN = 1, when the bytes of its record do
not fit it does not retire, only STOF changes, and the hart is stalled until they fit; otherwise its own effect stands and
its record is appended. With STEN = 0 its own effect stands, and its record is appended or lost, STOF being set. One
record for each instruction, and what a stall and an overflow do to it, are the model's choices (log entries 27, 34 and
35). -/
def Obligations.TracedInstructionIsRecorded : Prop :=
  ∀ (i : Instr) (s t : State), exec i s = .next t → instrRaises i s = none → s.generating = true →
    let r := mkRecord s (.flow ⟨s.pc, 2, .sequential, t.pc⟩)
    let u := observeInstr i s t
    ((s.ctl.sten = true ∧ NoRoom s.cfg s.ctl s.enc r) ∧ u.hartHeld = true ∧
      u = { s with enc := { s.enc with held := u.enc.held }, ctl := { s.ctl with stof := true } }) ∨
    (¬(s.ctl.sten = true ∧ NoRoom s.cfg s.ctl s.enc r) ∧
      Completes (afterRead i s t) u ∧
      (Appends s u (· = stamp s.cfg s.ctl s.enc r) ∨ Lost s.cfg s.ctl s.enc r u))

/-- R162, R243, R31: an instruction that raises while trace is generated is recorded as a trap with its cause and
address; the handler's address is left out when NTA = 1. With STEN = 1 the hart stalls until the bytes of that record
fit; with STEN = 0 the record may be lost, and STOF is set. That the trap is judged in the state it is taken in, that the
exception is not taken while its record does not fit, and how an overflow loses the record, are the model's choices (log
entries 26, 35 and 34). -/
def Obligations.TracedExceptionIsRecorded : Prop :=
  ∀ (i : Instr) (s t : State) (e : Exc), exec i s = .next t → instrRaises i s = some e → s.generating = true →
    let r := mkRecord s
      (.trap false (if e = .illegalInstruction then 2 else 22) s.pc (if s.ctl.nta then none else some t.pc))
    let u := observeInstr i s t
    ((s.ctl.sten = true ∧ NoRoom s.cfg s.ctl s.enc r) ∧ u.hartHeld = true ∧
      u = { s with enc := { s.enc with held := u.enc.held }, ctl := { s.ctl with stof := true } }) ∨
    (¬(s.ctl.sten = true ∧ NoRoom s.cfg s.ctl s.enc r) ∧
      Completes t u ∧ (Appends s u (· = stamp s.cfg s.ctl s.enc r) ∨ Lost s.cfg s.ctl s.enc r u))

/-- R144, R147, R163, R197: the instruction that sets EN is not itself traced: what it appends, and what waits after it, is
only `Support(start)`, a `Sync` and the encapsulation's sequence. For E-trace it starts the session with a
`Support(start)`, before which it appends nothing but the encapsulation's sequence, and the write that clears EN ends the
session with a `Support(end)` as its last record. Where the bytes do not fit, the Support record waits (STEN = 1) or is
lost (STEN = 0), and STOF is set; or the writing instruction, being traced itself, stalls. In which step they come is the
model's choice (log entry 38). -/
def Obligations.SessionStartsAndEndsWithSupport : Prop :=
  ∀ (i : Instr) (s t : State), exec i s = .next t →
    let u := observeInstr i s t
    let support (v : State) (atEnd : Bool) (r : Record) : Prop :=
      r = { mkRecord v (.support atEnd) with time := r.time }
    (s.ctl.en = false → t.ctl.en = true →
      u.enc.active = true ∧
      (∃ l, u.enc.trace = s.enc.trace ++ l ∧
        ∀ x ∈ l, x.item = .support false ∨ x.item = .sync ∨ x.item = .encapSync) ∧
      (∃ ws, u.enc.owed = s.enc.owed ++ ws ∧ ∀ w ∈ ws, w.record.item = .support false ∨ w.record.item = .sync) ∧
      (s.cfg.kind = .etrace →
        (∃ pre r post, u.enc.trace = s.enc.trace ++ pre ++ r :: post ∧ support t false r ∧
          (∀ x ∈ pre, x.item = .encapSync) ∧ ∀ x ∈ post, x.item = .sync ∨ x.item = .encapSync) ∨
        Waits u (support t false) ∨
        Lost t.cfg t.ctl s.enc (mkRecord t (.support false)) u)) ∧
    (s.cfg.kind = .etrace → s.ctl.en = true → t.ctl.en = false →
      (u = stallOn s u.enc.held ∧ s.generating = true ∧ s.ctl.sten = true) ∨
      (u.enc.active = false ∧
        ((∃ l r, u.enc.trace = s.enc.trace ++ l ∧ l.getLast? = some r ∧ support s true r) ∨
          (u.ctl.stof = true ∧ ∃ w, u.enc.owed.getLast? = some w ∧ support s true w.record) ∨
          (s.ctl.sten = false ∧ u.ctl.stof = true ∧ u.enc.dropping = true))))

/-- R164: once EMPTY reads 1 with EN = 0 it stays 1 until EN is set. (R164 derives it.) A record that waits counts as
trace data (log entry 36). -/
def Obligations.EmptyStaysUntilEnabled : Prop :=
  ∀ s t : State, step s = .next t → s.dis = false → s.ctl.en = false → s.empty = true → t.ctl.en = false →
    t.empty = true

/-- R163, R164 (D19): with a sink that accepts every byte, handing over the buffered bytes one by one makes EMPTY 1,
and the sink then has them to write in the order they were buffered, after what it had. EN at either value. The
hand-overs are inputs (log entry 43). -/
def Obligations.FlushCompletes : Prop :=
  ∀ s : State, s.dis = false → s.enc.owed = [] → SyncSettled s →
    (∀ k, k < s.enc.buffer.length →
      ambAccepts ((s.enc.buffer.take k).foldl ambPushByte s.amb) = true) →
    let t := (List.replicate s.enc.buffer.length Action.handOver).foldl act s
    t.empty = true ∧ t.amb.pending.map (·.2) = s.amb.pending.map (·.2) ++ s.enc.buffer ∧
    t = { s with enc := { s.enc with buffer := [] }, amb := t.amb }

/-- R168: no `Sync` is overdue after an instruction, whatever it does to EN, SMOD and SMAX: the counter has not reached
the threshold in a state that generates trace. When a traced instruction that leaves EN as it is brings the counter to
the threshold, whichever events SMOD selects, or a clock cycle does with SMOD = 2, a `Sync` is generated. With SMOD = 1
an item that closes a session leaves the counter below the threshold, and an item that waits was counted when it was
generated: its delivery counts nothing. The step in which the `Sync` comes, and when an item counts, are the model's
choices (log entries 30 and 33). -/
def Obligations.NoSyncOverdue : Prop :=
  (∀ (i : Instr) (s t : State), exec i s = .next t →
    let u := observeInstr i s t
    let r := mkRecord s (.flow ⟨s.pc, 2, .sequential, t.pc⟩)
    (u = stallOn s u.enc.held ∨ SyncSettled u) ∧
    (u.generating = true → u.ctl.smod ≠ 0 →
      u = stallOn s u.enc.held ∨ u.enc.syncCount < 2 ^ (u.ctl.smax.toNat + 4)) ∧
    (instrRaises i s = none → s.generating = true → t.ctl.en = true → s.ctl.smod ≠ 0 →
      2 ^ (s.ctl.smax.toNat + 4) ≤ s.enc.syncCount +
        (if s.ctl.smod = 3 then 2 else if s.ctl.smod = 1 ∧ itemBytes s.cfg s.ctl s.enc r ≠ [] then 1 else 0) →
      u = stallOn s u.enc.held ∨ SyncGenerated s u)) ∧
  (∀ s : State, s.generating = true → s.ctl.smod = 2 →
    2 ^ (s.ctl.smax.toNat + 4) ≤ s.enc.syncCount + 1 → SyncGenerated s (act s (.hartClock false))) ∧
  (∀ (s : State) (stall : Bool) (p : Encoder × Bool) (item : Item), s.ctl.smod = 1 →
    (emitClosing s stall p item).1.syncCount < 2 ^ (s.ctl.smax.toNat + 4)) ∧
  ∀ s : State, SyncSettled s → (act s .handOver).enc.syncCount = s.enc.syncCount

/-- R169, R167: every `Sync` resets the sync event counter, whatever its reason, also one that waits for space or that an
overflow drops; with SMOD = 1 another item that becomes a message/packet counts one, never past the threshold, and an item
that becomes none, or any item with another SMOD, leaves the counter. The first clause is about the items of the
encoder's own, every `Sync` among them, the second about the item of an instruction, where it does not stall. That a
`Sync` resets always is D14's, and what SMOD = 1 counts, and when, is the model's choice (log entries 30 and 36). -/
def Obligations.SyncResetsCounter : Prop :=
  (∀ (s : State) (stall : Bool) (p : Encoder × Bool) (item : Item),
    (emit s stall p item).1.syncCount =
      if item = .sync then 0
      else if s.ctl.smod = 1 ∧ itemBytes s.cfg s.ctl p.1 (mkRecord s item) ≠ [] then
        min (p.1.syncCount + 1) (2 ^ (s.ctl.smax.toNat + 4))
      else p.1.syncCount) ∧
  ∀ (c : Config) (f : StrcCtl) (stall : Bool) (p q : Encoder × Bool) (s : State) (item : Item),
    deliver c f stall p (mkRecord s item) = some q →
    q.1.syncCount =
      if item = .sync then 0
      else if f.smod = 1 ∧ itemBytes c f p.1 (mkRecord s item) ≠ [] then
        min (p.1.syncCount + 1) (2 ^ (f.smax.toNat + 4))
      else p.1.syncCount

/-- R167: with SMOD = 3 a traced instruction of the opcode table counts two half-words, and with SMOD = 2 a clock cycle
while trace is generated counts one, below the threshold; with another SMOD half-words and cycles count nothing. The
lengths are those of R61; what counts outside generation, or while the hart waits, is a free value (log entry 31). -/
def Obligations.HalfwordsAreCounted : Prop :=
  (∀ (i : Instr) (s t : State), exec i s = .next t → instrRaises i s = none → s.generating = true → t.ctl.en = true →
    t.ctl.smod = s.ctl.smod → t.ctl.smax = s.ctl.smax →
    observeInstr i s t = stallOn s (observeInstr i s t).enc.held ∨
      (s.ctl.smod = 3 → s.enc.syncCount + 2 < 2 ^ (s.ctl.smax.toNat + 4) →
        (observeInstr i s t).enc.syncCount = s.enc.syncCount + 2) ∧
      (s.ctl.smod ≠ 1 → s.ctl.smod ≠ 3 → s.enc.syncCount < 2 ^ (s.ctl.smax.toNat + 4) →
        (observeInstr i s t).enc.syncCount = s.enc.syncCount)) ∧
  ∀ s : State, s.generating = true → SyncSettled s →
    (s.ctl.smod = 2 → s.enc.syncCount + 1 < 2 ^ (s.ctl.smax.toNat + 4) →
      act s (.hartClock false) = { s with cycle := s.cycle + 1, enc := { s.enc with syncCount := s.enc.syncCount + 1 } }) ∧
    (s.ctl.smod ≠ 2 → act s (.hartClock false) = { s with cycle := s.cycle + 1 })

/-- R174: the timestamp of an item with TSEN = 1 is `time`, plus `htimedelta` (modulo 2^64) in the guest
configuration, whatever mode the hart is in; with TSEN = 0 none is reported. R178: the packet that reports control
transfers which no packet had reported carries the timestamp of the last of them; which packets do is the trace
specifications', and that a transfer of TSEN = 0 has no time is the model's choice (log entry 27). That the transfers of a
packet which an overflow drops count as reported too is the model's choice (log entry 34). -/
def Obligations.TimestampValue : Prop :=
  (∀ (s : State) (item : Item),
    let now : Word := if s.strcs = true ∧ s.strcv = true then s.time + s.env.htimedelta else s.time
    (s.ctl.tsen = false → (mkRecord s item).time = none) ∧
    (s.ctl.tsen = true → s.cfg.kind = .ntrace → (mkRecord s item).time = some (.ntrace now)) ∧
    (s.ctl.tsen = true → s.cfg.kind = .etrace → 16 ≤ s.cfg.etrace.timeWidth →
      ∃ high low, (mkRecord s item).time = some (.etrace high low) ∧
        high.toNat * 2 ^ 16 + low.toNat = now.toNat % 2 ^ s.cfg.etrace.timeWidth)) ∧
  ∀ (c : Config) (f : StrcCtl) (stall : Bool) (p q : Encoder × Bool) (r : Record),
    deliver c f stall p r = some q →
    let last := if isTransfer r.item then r.time else p.1.transferTime
    (stamp c f p.1 r).time =
      (if r.time.isSome ∧ last.isSome ∧ reports c f p.1 r then last else r.time) ∧
    q.1.transferTime = if itemBytes c f p.1 r ≠ [] ∧ reports c f p.1 r then none else last

/-- R180, R181: the context reported with CEN = 1 has `scontext` in its low half and `hcontext` in its high half, 0 in
the guest configuration of an implementation that hides it; with CEN = 0 none is reported. That every record carries it
while CEN = 1 is the model's choice (log entry 53): R180 leaves when it is reported to the trace specifications. -/
def Obligations.ContextReported : Prop :=
  ∀ (s : State) (item : Item),
    (s.ctl.cen = false → (mkRecord s item).context = none) ∧
    (s.ctl.cen = true → ∃ r, (mkRecord s item).context = some r ∧
      r.value.extractLsb' 0 32 = s.env.scontext ∧
      r.value.extractLsb' 32 32 =
        (if s.guestCfg = true ∧ s.cfg.guestCtxHidesHcontext = true then 0 else s.env.hcontext))

/-- R165: in the guest configuration (STRCS = 1 and STRCV = 1) V and the VMID are reported as 0, otherwise as they
are; the privilege level is always reported as it is. -/
def Obligations.GuestSeesItselfAsHost : Prop :=
  ∀ (s : State) (item : Item),
    (mkRecord s item).priv = s.priv ∧
    (s.strcs = true ∧ s.strcv = true →
      (mkRecord s item).virt = false ∧ ∀ r ∈ (mkRecord s item).context, r.vmid = 0) ∧
    (¬(s.strcs = true ∧ s.strcv = true) →
      (mkRecord s item).virt = s.virt ∧ ∀ r ∈ (mkRecord s item).context, r.vmid = s.vmid)

/-- R187, R188: for E-trace every aligned 4 KiB block of the encoder's stream that its bytes reach begins with the 33-byte
synchronization sequence: in the bytes laid out for one packet at any position, and in the bytes that an item adds to the
internal buffers at the stream's position, whether it is delivered when it is generated or after waiting for space. How
the end of the old block is filled is the model's choice (log entry 29). -/
def Obligations.BlocksBeginWithSyncSequence : Prop :=
  (∀ (pos : Nat) (body : List Byte) (k : Nat), body.length ≤ 4096 - 33 →
    pos ≤ 4096 * k → 4096 * k < pos + (layOut .etrace pos body).length →
    ((layOut .etrace pos body).drop (4096 * k - pos)).take 33 = encapSyncBytes ∧ encapSyncBytes.length = 33) ∧
  ∀ (c : Config) (f : StrcCtl) (p q : Encoder × Bool) (r : Record) (stall : Bool), c.kind = .etrace →
    (deliver c f stall p r = some q → StreamsBlocks p.1 q.1) ∧
    (∀ w : Waiting, w.body.length ≤ 4096 - 33 → StreamsBlocks p.1 (appendWaiting c p.1 w)) ∧
    ∃ w : Waiting, (waitFor c f p r).1.owed = p.1.owed ++ [w] ∧ w.body.length ≤ 4096 - 33 ∧
      (waitFor c f p r).1.buffer = p.1.buffer ∧ (waitFor c f p r).1.produced = p.1.produced

/-- R82, R86 (D8): the sink writes the byte it has held longest, at the place the byte got when it was taken, translated as
(STRCS, STRCV) select when it is written (R85). That place is the next position of a naturally aligned buffer whose size
is a power of two of at least 4 KiB, modulo that size when the buffer is used circularly (R83); taking a byte moves the
position by one, and neither taking nor writing bytes moves it otherwise, or the buffer. The sink's state is the model's
choice (log entries 41 and 42). -/
def Obligations.SinkWritesOldestByte : Prop :=
  (∀ (s : State) (addr : Word) (b : Byte) (rest : List (Word × Byte)), s.dis = false → memWf s.mem →
    s.amb.pending = (addr, b) :: rest →
    (act s (.drain 1)).amb.pending = rest ∧
    ∀ a, memRead (act s (.drain 1)).mem a =
      if a = (Config.ambTranslate (Config.ambPrivCtx s.strcs s.strcv) addr).toNat then b else memRead s.mem a) ∧
  (∀ (s : State) (n : Nat),
    (act s (.drain n)).amb.regs.position = s.amb.regs.position ∧ ambBase (act s (.drain n)).amb.regs = ambBase s.amb.regs ∧
    ambSize (act s (.drain n)).amb.regs = ambSize s.amb.regs ∧
    (act s (.drain n)).amb.regs.wraps = s.amb.regs.wraps) ∧
  ∀ (a : Amb) (b : Byte),
    (ambBase a.regs).toNat % ambSize a.regs = 0 ∧ (∃ n, ambSize a.regs = 2 ^ n ∧ 4096 ≤ ambSize a.regs) ∧
    (ambAccepts a = true → a.regs.wraps = true ∨ a.regs.position < ambSize a.regs) ∧
    (a.regs.wraps = true ∨ a.regs.position < ambSize a.regs →
      (ambPushByte a b).pending = a.pending ++
        [(ambBase a.regs + BitVec.ofNat 64 (a.regs.position % ambSize a.regs), b)] ∧
      (ambPushByte a b).regs.position = a.regs.position + 1 ∧
      ambBase (ambPushByte a b).regs = ambBase a.regs ∧ ambSize (ambPushByte a b).regs = ambSize a.regs ∧
      (ambPushByte a b).regs.wraps = a.regs.wraps)

/-- The sink's own step (R82): it writes the `n` bytes it has held longest, or all it holds, in order, and memory changes
only at their places; of the rest only the sink changes, and what is left of a promise. The sink's state is the model's
choice (log entry 41). -/
def Obligations.DrainFrame : Prop :=
  ∀ (s : State) (n : Nat), SyncSettled s →
    let k := if s.dis then 0 else min n s.amb.pending.length
    let t := act s (.drain n)
    t = { s with mem := t.mem, amb := t.amb, promised := s.promised - k } ∧
    t.mem = writePending (s.physical (s.amb.pending.take k)) s.mem ∧ t.amb.pending = s.amb.pending.drop k ∧
    ∀ a, (∀ w ∈ s.physical (s.amb.pending.take k), w.1.toNat ≠ a) → memRead t.mem a = memRead s.mem a

/-- R84: an instruction that reads EMPTY = 1, and is not stalled by its own trace, changes neither memory nor the sink
(R88), and every trace byte the sink had taken is in memory before the hart does anything else. A turn of another agent, or
of a stalled hart, keeps that promise: once the promised writes are performed, memory differs at most by writes that were
under way beside them; and a fault of a trace write brings no write under way. A load comes after the promised writes, and sees memory, in the byte order of data accesses (R86),
but for bytes under way. With EN = 0 there are none. That it needs no fence, and that a fault of a trace write loses no
promised write, are the model's choices (log entries 45 and 44), and the bits that select the byte order are PRESUMED (log
entry 19). -/
def Obligations.LoadSeesAllTrace : Prop :=
  (∀ (i : Instr) (s t : State), exec i s = .next t → readsEmpty i s = true →
    let u := observeInstr i s t
    let v := arrive u
    u = stallOn s u.enc.held ∨
      u.amb = s.amb ∧ u.mem = s.mem ∧
      v.amb.pending = [] ∧ v.mem = writePending (s.physical s.amb.pending) s.mem ∧
      (s.ctl.en = false → t.ctl.en = false → v.inFlight = [] ∧
        ∀ (addr : Word) (j : Nat), j < 8 →
          (loadWord v addr).extractLsb' (8 * j) 8 = memRead v.mem (byteAddr addr (if v.bigEndian then 7 - j else j)))) ∧
  (∀ s : State, s.dis = false → (s.hartHeld = true ∨ ∃ a rest, s.agenda = a :: rest ∧ a ≠ .hart) →
    ∃ t, step s = .next t ∧
      ∃ l, (∀ w ∈ l, w ∈ (arrive s).inFlight) ∧ (arrive t).mem = writePending l (arrive s).mem) ∧
  (∀ (s u : State) (compressed : Bool) (op : HostOp) (rest : List HartInput),
    (s.agenda = [] ∧ u = s) ∨ (∃ later, s.agenda = .hart :: later ∧ u = { s with agenda := later }) →
    s.hartInputs = .retire compressed op :: rest → s.hartHeld = false →
    step s = .next (hostRetire (arrive u) compressed op)) ∧
  (∀ s : State, s.dis = false → SyncSettled s → ∀ w ∈ (act s .drainFault).inFlight, w ∈ (arrive s).inFlight) ∧
  ∀ (v : State) (k a : Nat), (∀ w ∈ v.inFlight, w.1.toNat ≠ a) → loadByte v k a = memRead v.mem a

/-- R220 (c): while `trTeDisSelfHosted` = 1 no step adds to the trace or to the internal buffers, the encoder and the
sink move nothing, and a load sees memory alone; when the bit goes to 1 nothing is held back. What becomes of the bytes
buffered at that moment, and that the sink neither changes its readiness nor faults while the bit is 1, are the model's
choices (log entry 47). -/
def Obligations.DisabledTraceIsIdle : Prop :=
  (∀ s t : State, step s = .next t → s.dis = true → t.dis = true →
    t.enc.trace = s.enc.trace ∧ t.enc.buffer = s.enc.buffer ∧ act s .handOver = s ∧ (∀ n, act s (.drain n) = s) ∧
    act s .drainFault = s ∧ (∀ v, act s (.sinkReady v) = s) ∧
    ∀ k a, loadByte s k a = memRead s.mem a) ∧
  ∀ s : State, s.dis = false →
    let t := act s (.debuggerSetDis true)
    t.dis = true ∧ t.empty = true ∧ t.amb.pending = [] ∧ t.enc.trace = s.enc.trace

end
end

