-- ==== Sys2Proof/Laws/Fields.lean ====
section
/-! SUPPORT. The bits of `mstrcctl` (R21), one lemma per field, and the two views of it. -/

namespace Sys2Proof.Machine

/-! ## Single bits of a word -/

theorem getLsbD_bitAt (i : Nat) (b : Bool) (j : Nat) (hj : j < 64) : (bitAt i b).getLsbD j = (decide (j = i) && b) := by
  unfold bitAt fieldAt
  rw [BitVec.getLsbD_shiftLeft, BitVec.getLsbD_setWidth, BitVec.getLsbD_ofBool]
  rcases Nat.lt_trichotomy j i with h | h | h
  · have h1 : j ≠ i := by omega
    simp [h, h1]
  · subst h; simp [hj]
  · have h1 : j ≠ i := by omega
    have h2 : j - i ≠ 0 := by omega
    simp [h1, h2]

theorem getLsbD_fieldAt {n : Nat} (i : Nat) (v : BitVec n) (j : Nat) (hj : j < 64) :
    (fieldAt i v).getLsbD j = (decide (i ≤ j) && v.getLsbD (j - i)) := by
  unfold fieldAt
  rw [BitVec.getLsbD_shiftLeft, BitVec.getLsbD_setWidth]
  by_cases h : j < i
  · simp [h, Nat.not_le.mpr h]
  · have h1 : i ≤ j := by omega
    have h2 : j - i < 64 := by omega
    simp [h, h1, h2, hj]

theorem getLsbD_putBit (w : Word) (i j : Nat) (b : Bool) (hj : j < 64) :
    (putBit w i b).getLsbD j = if j = i then b else w.getLsbD j := by
  unfold putBit
  rw [BitVec.getLsbD_or, BitVec.getLsbD_and, BitVec.getLsbD_not, getLsbD_bitAt _ _ _ hj, getLsbD_bitAt _ _ _ hj]
  by_cases h : j = i <;> simp [h, hj]

/-! ## The layout of `mstrcctl` -/

section layout
variable (c : StrcCtl) (e : Bool)

/-- One bit of `mstrcctl` as the disjunction of what each field puts there. -/
theorem mstrcctlWord_getLsbD (j : Nat) (hj : j < 64) :
    (mstrcctlWord c e).getLsbD j =
      ((decide (j = 0) && c.en) || (decide (j = 1) && e) || (decide (j = 2) && c.it) || (decide (j = 8) && c.cen) ||
       (decide (j = 10) && c.iten) || (decide (j = 11) && c.stof) || (decide (j = 12) && c.sten) ||
       (decide (15 ≤ j) && c.smod.getLsbD (j - 15)) || (decide (19 ≤ j) && c.smax.getLsbD (j - 19)) ||
       (decide (j = 32) && c.nta) || (decide (j = 33) && c.esj) || (decide (j = 34) && c.eir) ||
       (decide (j = 35) && c.ebp) || (decide (j = 36) && c.etc) || (decide (j = 37) && c.erh) ||
       (decide (j = 38) && c.eaj) || (decide (j = 39) && c.eam) || (decide (j = 60) && c.tsen) ||
       (decide (j = 61) && c.u) || (decide (j = 62) && c.s) || (decide (j = 63) && c.m)) := by
  simp only [mstrcctlWord, BitVec.getLsbD_or, getLsbD_bitAt _ _ _ hj, getLsbD_fieldAt _ _ _ hj]

theorem mstrcctlWord_en : (mstrcctlWord c e).getLsbD 0 = c.en := by
  rw [mstrcctlWord_getLsbD _ _ _ (by decide)]; simp
theorem mstrcctlWord_empty : (mstrcctlWord c e).getLsbD 1 = e := by
  rw [mstrcctlWord_getLsbD _ _ _ (by decide)]; simp
theorem mstrcctlWord_it : (mstrcctlWord c e).getLsbD 2 = c.it := by
  rw [mstrcctlWord_getLsbD _ _ _ (by decide)]; simp
theorem mstrcctlWord_cen : (mstrcctlWord c e).getLsbD 8 = c.cen := by
  rw [mstrcctlWord_getLsbD _ _ _ (by decide)]; simp
theorem mstrcctlWord_iten : (mstrcctlWord c e).getLsbD 10 = c.iten := by
  rw [mstrcctlWord_getLsbD _ _ _ (by decide)]; simp
theorem mstrcctlWord_stof : (mstrcctlWord c e).getLsbD 11 = c.stof := by
  rw [mstrcctlWord_getLsbD _ _ _ (by decide)]; simp
theorem mstrcctlWord_sten : (mstrcctlWord c e).getLsbD 12 = c.sten := by
  rw [mstrcctlWord_getLsbD _ _ _ (by decide)]; simp
theorem mstrcctlWord_nta : (mstrcctlWord c e).getLsbD 32 = c.nta := by
  rw [mstrcctlWord_getLsbD _ _ _ (by decide)]; simp
theorem mstrcctlWord_esj : (mstrcctlWord c e).getLsbD 33 = c.esj := by
  rw [mstrcctlWord_getLsbD _ _ _ (by decide)]; simp
theorem mstrcctlWord_eir : (mstrcctlWord c e).getLsbD 34 = c.eir := by
  rw [mstrcctlWord_getLsbD _ _ _ (by decide)]; simp
theorem mstrcctlWord_ebp : (mstrcctlWord c e).getLsbD 35 = c.ebp := by
  rw [mstrcctlWord_getLsbD _ _ _ (by decide)]; simp
theorem mstrcctlWord_etc : (mstrcctlWord c e).getLsbD 36 = c.etc := by
  rw [mstrcctlWord_getLsbD _ _ _ (by decide)]; simp
theorem mstrcctlWord_erh : (mstrcctlWord c e).getLsbD 37 = c.erh := by
  rw [mstrcctlWord_getLsbD _ _ _ (by decide)]; simp
theorem mstrcctlWord_eaj : (mstrcctlWord c e).getLsbD 38 = c.eaj := by
  rw [mstrcctlWord_getLsbD _ _ _ (by decide)]; simp
theorem mstrcctlWord_eam : (mstrcctlWord c e).getLsbD 39 = c.eam := by
  rw [mstrcctlWord_getLsbD _ _ _ (by decide)]; simp
theorem mstrcctlWord_tsen : (mstrcctlWord c e).getLsbD 60 = c.tsen := by
  rw [mstrcctlWord_getLsbD _ _ _ (by decide)]; simp
theorem mstrcctlWord_u : (mstrcctlWord c e).getLsbD 61 = c.u := by
  rw [mstrcctlWord_getLsbD _ _ _ (by decide)]; simp
theorem mstrcctlWord_s : (mstrcctlWord c e).getLsbD 62 = c.s := by
  rw [mstrcctlWord_getLsbD _ _ _ (by decide)]; simp
theorem mstrcctlWord_m : (mstrcctlWord c e).getLsbD 63 = c.m := by
  rw [mstrcctlWord_getLsbD _ _ _ (by decide)]; simp

theorem mstrcctlWord_smod : (mstrcctlWord c e).extractLsb' 15 2 = c.smod := by
  apply BitVec.eq_of_getLsbD_eq
  intro i hi
  rw [BitVec.getLsbD_extractLsb', mstrcctlWord_getLsbD _ _ _ (by omega)]
  interval_cases i <;> simp

theorem mstrcctlWord_smax : (mstrcctlWord c e).extractLsb' 19 4 = c.smax := by
  apply BitVec.eq_of_getLsbD_eq
  intro i hi
  rw [BitVec.getLsbD_extractLsb', mstrcctlWord_getLsbD _ _ _ (by omega)]
  interval_cases i <;> simp

end layout

/-! ## What a write through each view stores -/

section writes
variable (s : State) (w : Word)

@[simp] theorem writeMstrcctl_ctl : (s.writeMstrcctl w).ctl = mstrcctlFields s.cfg w := rfl
@[simp] theorem writeMstrcctl_vsctl : (s.writeMstrcctl w).vsctl = s.vsctl := rfl
@[simp] theorem writeVsstrcctl_vsctl : (s.writeVsstrcctl w).vsctl = ⟨w.getLsbD 62, w.getLsbD 61⟩ := rfl

/-- A write through any of the three views changes `ctl` and `vsctl` and nothing else. -/
theorem writeMstrcctl_eq : s.writeMstrcctl w = { s with ctl := mstrcctlFields s.cfg w } := rfl

theorem writeSstrcctl_eq :
    s.writeSstrcctl w = { s with ctl := mstrcctlFields s.cfg (BitVec.ofBool s.ctl.m ++ w.extractLsb' 0 63) } := rfl

theorem writeVsstrcctl_eq :
    s.writeVsstrcctl w =
      { s with
        vsctl := ⟨w.getLsbD 62, w.getLsbD 61⟩
        ctl := mstrcctlFields s.cfg
          (BitVec.ofBool s.ctl.m ++ BitVec.ofBool s.ctl.s ++ BitVec.ofBool s.ctl.u ++ w.extractLsb' 0 61) } := rfl

end writes

/-- The word a write of `sstrcctl` hands to `mstrcctl` stores the written fields but M. -/
theorem mstrcctlFields_keepM (c : Config) (m : Bool) (w : Word) :
    mstrcctlFields c (BitVec.ofBool m ++ w.extractLsb' 0 63) = { mstrcctlFields c w with m := m } := by
  have low : ∀ j, j < 63 → (BitVec.ofBool m ++ w.extractLsb' 0 63 : Word).getLsbD j = w.getLsbD j := by
    intro j hj
    rw [BitVec.getLsbD_append]
    simp [hj]
  have slice : ∀ i n, i + n ≤ 63 →
      (BitVec.ofBool m ++ w.extractLsb' 0 63 : Word).extractLsb' i n = w.extractLsb' i n := by
    intro i n h
    apply BitVec.eq_of_getLsbD_eq
    intro j hj
    rw [BitVec.getLsbD_extractLsb', BitVec.getLsbD_extractLsb', low _ (by omega)]
  have top : (BitVec.ofBool m ++ w.extractLsb' 0 63 : Word).getLsbD 63 = m := by
    rw [BitVec.getLsbD_append]; simp
  simp (disch := decide) only [mstrcctlFields, low, slice, top]

/-- The word a write of `vsstrcctl` hands to `mstrcctl` stores the written fields but M, S and U. -/
theorem mstrcctlFields_keepMSU (c : Config) (m s u : Bool) (w : Word) :
    mstrcctlFields c (BitVec.ofBool m ++ BitVec.ofBool s ++ BitVec.ofBool u ++ w.extractLsb' 0 61) =
      { mstrcctlFields c w with m := m, s := s, u := u } := by
  have low : ∀ j, j < 61 →
      (BitVec.ofBool m ++ BitVec.ofBool s ++ BitVec.ofBool u ++ w.extractLsb' 0 61 : Word).getLsbD j = w.getLsbD j := by
    intro j hj
    rw [BitVec.getLsbD_append]
    simp [hj]
  have slice : ∀ i n, i + n ≤ 61 →
      (BitVec.ofBool m ++ BitVec.ofBool s ++ BitVec.ofBool u ++ w.extractLsb' 0 61 : Word).extractLsb' i n =
        w.extractLsb' i n := by
    intro i n h
    apply BitVec.eq_of_getLsbD_eq
    intro j hj
    rw [BitVec.getLsbD_extractLsb', BitVec.getLsbD_extractLsb', low _ (by omega)]
  have h63 : (BitVec.ofBool m ++ BitVec.ofBool s ++ BitVec.ofBool u ++ w.extractLsb' 0 61 : Word).getLsbD 63 = m := by
    simp only [BitVec.getLsbD_append]; simp
  have h62 : (BitVec.ofBool m ++ BitVec.ofBool s ++ BitVec.ofBool u ++ w.extractLsb' 0 61 : Word).getLsbD 62 = s := by
    simp only [BitVec.getLsbD_append]; simp
  have h61 : (BitVec.ofBool m ++ BitVec.ofBool s ++ BitVec.ofBool u ++ w.extractLsb' 0 61 : Word).getLsbD 61 = u := by
    simp only [BitVec.getLsbD_append]; simp
  simp (disch := decide) only [mstrcctlFields, low, slice, h63, h62, h61]

/-- A value that `smodLegal` and `smodLegalize` make legal is stored legal. -/
theorem smodStored_legal {c : Config} (h1 : smodLegal c c.smodLegalize1 = true)
    (h2 : smodLegal c c.smodLegalize2 = true) (h3 : smodLegal c c.smodLegalize3 = true) (v : BitVec 2) :
    smodLegal c (smodStored c v) = true := by
  unfold smodStored
  split
  · assumption
  · have hv : ∀ u : BitVec 2, u = 0 ∨ u = 1 ∨ u = 2 ∨ u = 3 := by decide
    rcases hv v with rfl | rfl | rfl | rfl <;> simp_all [smodLegalize, smodLegal]

end Sys2Proof.Machine
end

