-- ==== Sys2Proof/Laws/State.lean ====
section
/-! SUPPORT. One lemma per field per named update of the state, so that no proof unfolds a record update. -/

namespace Sys2Proof.Machine

/-! ## `pc <- t` -/

section setPc
variable (s : State) (t : Word)

@[simp] theorem setPc_cfg : (s.setPc t).cfg = s.cfg := rfl
@[simp] theorem setPc_x : (s.setPc t).x = s.x := rfl
@[simp] theorem setPc_pc : (s.setPc t).pc = t := rfl
@[simp] theorem setPc_priv : (s.setPc t).priv = s.priv := rfl
@[simp] theorem setPc_virt : (s.setPc t).virt = s.virt := rfl
@[simp] theorem setPc_debugMode : (s.setPc t).debugMode = s.debugMode := rfl
@[simp] theorem setPc_trap : (s.setPc t).trap = s.trap := rfl
@[simp] theorem setPc_env : (s.setPc t).env = s.env := rfl
@[simp] theorem setPc_time : (s.setPc t).time = s.time := rfl
@[simp] theorem setPc_cycle : (s.setPc t).cycle = s.cycle := rfl
@[simp] theorem setPc_vmid : (s.setPc t).vmid = s.vmid := rfl
@[simp] theorem setPc_ctl : (s.setPc t).ctl = s.ctl := rfl
@[simp] theorem setPc_vsctl : (s.setPc t).vsctl = s.vsctl := rfl
@[simp] theorem setPc_dis : (s.setPc t).dis = s.dis := rfl
@[simp] theorem setPc_enc : (s.setPc t).enc = s.enc := rfl
@[simp] theorem setPc_amb : (s.setPc t).amb = s.amb := rfl
@[simp] theorem setPc_mem : (s.setPc t).mem = s.mem := rfl
@[simp] theorem setPc_agenda : (s.setPc t).agenda = s.agenda := rfl
@[simp] theorem setPc_hartInputs : (s.setPc t).hartInputs = s.hartInputs := rfl
@[simp] theorem setPc_promised : (s.setPc t).promised = s.promised := rfl
@[simp] theorem setPc_draws : (s.setPc t).draws = s.draws := rfl
@[simp] theorem setPc_readReg (r : Reg) : (s.setPc t).readReg r = s.readReg r := rfl

end setPc

/-! ## `x[i] <- v` -/

section writeReg
variable (s : State) (rd : Reg) (v : Word)

@[simp] theorem writeReg_cfg : (s.writeReg rd v).cfg = s.cfg := by unfold State.writeReg; split <;> rfl
@[simp] theorem writeReg_pc : (s.writeReg rd v).pc = s.pc := by unfold State.writeReg; split <;> rfl
@[simp] theorem writeReg_priv : (s.writeReg rd v).priv = s.priv := by unfold State.writeReg; split <;> rfl
@[simp] theorem writeReg_virt : (s.writeReg rd v).virt = s.virt := by unfold State.writeReg; split <;> rfl
@[simp] theorem writeReg_debugMode : (s.writeReg rd v).debugMode = s.debugMode := by unfold State.writeReg; split <;> rfl
@[simp] theorem writeReg_trap : (s.writeReg rd v).trap = s.trap := by unfold State.writeReg; split <;> rfl
@[simp] theorem writeReg_env : (s.writeReg rd v).env = s.env := by unfold State.writeReg; split <;> rfl
@[simp] theorem writeReg_time : (s.writeReg rd v).time = s.time := by unfold State.writeReg; split <;> rfl
@[simp] theorem writeReg_cycle : (s.writeReg rd v).cycle = s.cycle := by unfold State.writeReg; split <;> rfl
@[simp] theorem writeReg_vmid : (s.writeReg rd v).vmid = s.vmid := by unfold State.writeReg; split <;> rfl
@[simp] theorem writeReg_ctl : (s.writeReg rd v).ctl = s.ctl := by unfold State.writeReg; split <;> rfl
@[simp] theorem writeReg_vsctl : (s.writeReg rd v).vsctl = s.vsctl := by unfold State.writeReg; split <;> rfl
@[simp] theorem writeReg_dis : (s.writeReg rd v).dis = s.dis := by unfold State.writeReg; split <;> rfl
@[simp] theorem writeReg_enc : (s.writeReg rd v).enc = s.enc := by unfold State.writeReg; split <;> rfl
@[simp] theorem writeReg_amb : (s.writeReg rd v).amb = s.amb := by unfold State.writeReg; split <;> rfl
@[simp] theorem writeReg_mem : (s.writeReg rd v).mem = s.mem := by unfold State.writeReg; split <;> rfl
@[simp] theorem writeReg_agenda : (s.writeReg rd v).agenda = s.agenda := by unfold State.writeReg; split <;> rfl
@[simp] theorem writeReg_hartInputs : (s.writeReg rd v).hartInputs = s.hartInputs := by
  unfold State.writeReg; split <;> rfl
@[simp] theorem writeReg_promised : (s.writeReg rd v).promised = s.promised := by unfold State.writeReg; split <;> rfl
@[simp] theorem writeReg_draws : (s.writeReg rd v).draws = s.draws := by unfold State.writeReg; split <;> rfl

/-- "A write to `x[0]` is discarded" (R8). -/
@[simp] theorem writeReg_zero : s.writeReg 0 v = s := rfl

@[simp] theorem readReg_zero : s.readReg 0 = 0 := rfl

theorem readReg_writeReg (r : Reg) :
    (s.writeReg rd v).readReg r = if r = rd ∧ rd ≠ 0 then v else s.readReg r := by
  unfold State.writeReg State.readReg
  by_cases h0 : rd = 0
  · simp [h0]
  · by_cases hr0 : r = 0
    · subst hr0
      simp [h0, Ne.symm h0]
    · by_cases hr : r = rd
      · subst hr
        simp [h0]
      · have : rd.val ≠ r.val := fun h => hr (Fin.ext h.symm)
        simp [h0, hr0, hr, this]

theorem readReg_writeReg_same (h : rd ≠ 0) : (s.writeReg rd v).readReg rd = v := by
  rw [readReg_writeReg, if_pos ⟨rfl, h⟩]

theorem readReg_writeReg_ne {r : Reg} (h : r ≠ rd) : (s.writeReg rd v).readReg r = s.readReg r := by
  rw [readReg_writeReg, if_neg (fun hc => h hc.1)]

/-- The stored word of `x0` is not written. -/
theorem writeReg_x_zero (h : s.x[0] = 0) : (s.writeReg rd v).x[0] = 0 := by
  unfold State.writeReg
  by_cases h0 : rd = 0
  · simp [h0, h]
  · have : rd.val ≠ 0 := fun h => h0 (Fin.ext h)
    simp [h0, this, h]

end writeReg

end Sys2Proof.Machine
end

