-- ==== Sys2Proof/Laws/Csr.lean ====
section
/-! SUPPORT. What the shared operations of a CSR access can do: a CSR write, a trap entry, and one CSR access
instruction (R120), each said once. -/

namespace Sys2Proof.Machine

/-! ## A CSR write -/

section csrWrite
variable (s : State) (id : CsrId) (w : Word)

@[simp] theorem csrWrite_cfg : (csrWrite s id w).cfg = s.cfg := by cases id <;> rfl
@[simp] theorem csrWrite_x : (csrWrite s id w).x = s.x := by cases id <;> rfl
@[simp] theorem csrWrite_pc : (csrWrite s id w).pc = s.pc := by cases id <;> rfl
@[simp] theorem csrWrite_priv : (csrWrite s id w).priv = s.priv := by cases id <;> rfl
@[simp] theorem csrWrite_virt : (csrWrite s id w).virt = s.virt := by cases id <;> rfl
@[simp] theorem csrWrite_debugMode : (csrWrite s id w).debugMode = s.debugMode := by cases id <;> rfl
@[simp] theorem csrWrite_time : (csrWrite s id w).time = s.time := by cases id <;> rfl
@[simp] theorem csrWrite_cycle : (csrWrite s id w).cycle = s.cycle := by cases id <;> rfl
@[simp] theorem csrWrite_vmid : (csrWrite s id w).vmid = s.vmid := by cases id <;> rfl
@[simp] theorem csrWrite_dis : (csrWrite s id w).dis = s.dis := by cases id <;> rfl
@[simp] theorem csrWrite_enc : (csrWrite s id w).enc = s.enc := by cases id <;> rfl
@[simp] theorem csrWrite_mem : (csrWrite s id w).mem = s.mem := by cases id <;> rfl
@[simp] theorem csrWrite_agenda : (csrWrite s id w).agenda = s.agenda := by cases id <;> rfl
@[simp] theorem csrWrite_hartInputs : (csrWrite s id w).hartInputs = s.hartInputs := by cases id <;> rfl
@[simp] theorem csrWrite_promised : (csrWrite s id w).promised = s.promised := by cases id <;> rfl
@[simp] theorem csrWrite_readReg (r : Reg) : (csrWrite s id w).readReg r = s.readReg r := by cases id <;> rfl

/-- The three CSRs whose write changes `mstrcctl`. -/
theorem csrWrite_ctl_of_other (h : id ≠ .mstrcctl ∧ id ≠ .sstrcctl ∧ id ≠ .vsstrcctl) :
    (csrWrite s id w).ctl = s.ctl := by
  cases id <;> first | rfl | simp at h

theorem csrWrite_vsctl_of_other (h : id ≠ .vsstrcctl) : (csrWrite s id w).vsctl = s.vsctl := by
  cases id <;> first | rfl | simp at h

/-- A CSR write leaves what the sink still has to write. -/
@[simp] theorem csrWrite_pending : (csrWrite s id w).amb.pending = s.amb.pending := by cases id <;> rfl

theorem csrWrite_amb_of_other (h : id ≠ .sstrcambcs ∧ id ≠ .sstrcambaddr) : (csrWrite s id w).amb = s.amb := by
  cases id <;> first | rfl | simp at h

/-- What `mstrcctl` stores after a CSR write: what it stored, or the fields of some written word. -/
theorem csrWrite_ctl : (csrWrite s id w).ctl = s.ctl ∨ ∃ v, (csrWrite s id w).ctl = mstrcctlFields s.cfg v := by
  cases id <;> first | exact Or.inl rfl | exact Or.inr ⟨_, rfl⟩

end csrWrite

theorem csrWrite_env_of_other (s : State) (id : CsrId) (w : Word) (h : id.isEnv = false) :
    (csrWrite s id w).env = s.env := by
  cases id <;> first | rfl | simp [CsrId.isEnv] at h

theorem csrWrite_trap_of_other (s : State) (id : CsrId) (w : Word) (h : id.isTrap = false) :
    (csrWrite s id w).trap = s.trap := by
  cases id <;> first | rfl | simp [CsrId.isTrap] at h

/-! ## A trap entry -/

section takeTrap
variable (s : State) (i : Bool) (c : BitVec 6) (v : Word)

@[simp] theorem takeTrap_cfg : (takeTrap s i c v).cfg = s.cfg := by unfold takeTrap; split <;> rfl
@[simp] theorem takeTrap_x : (takeTrap s i c v).x = s.x := by unfold takeTrap; split <;> rfl
@[simp] theorem takeTrap_debugMode : (takeTrap s i c v).debugMode = s.debugMode := by unfold takeTrap; split <;> rfl
@[simp] theorem takeTrap_env : (takeTrap s i c v).env = s.env := by unfold takeTrap; split <;> rfl
@[simp] theorem takeTrap_time : (takeTrap s i c v).time = s.time := by unfold takeTrap; split <;> rfl
@[simp] theorem takeTrap_cycle : (takeTrap s i c v).cycle = s.cycle := by unfold takeTrap; split <;> rfl
@[simp] theorem takeTrap_vmid : (takeTrap s i c v).vmid = s.vmid := by unfold takeTrap; split <;> rfl
@[simp] theorem takeTrap_ctl : (takeTrap s i c v).ctl = s.ctl := by unfold takeTrap; split <;> rfl
@[simp] theorem takeTrap_vsctl : (takeTrap s i c v).vsctl = s.vsctl := by unfold takeTrap; split <;> rfl
@[simp] theorem takeTrap_dis : (takeTrap s i c v).dis = s.dis := by unfold takeTrap; split <;> rfl
@[simp] theorem takeTrap_enc : (takeTrap s i c v).enc = s.enc := by unfold takeTrap; split <;> rfl
@[simp] theorem takeTrap_amb : (takeTrap s i c v).amb = s.amb := by unfold takeTrap; split <;> rfl
@[simp] theorem takeTrap_mem : (takeTrap s i c v).mem = s.mem := by unfold takeTrap; split <;> rfl
@[simp] theorem takeTrap_agenda : (takeTrap s i c v).agenda = s.agenda := by unfold takeTrap; split <;> rfl
@[simp] theorem takeTrap_hartInputs : (takeTrap s i c v).hartInputs = s.hartInputs := by unfold takeTrap; split <;> rfl
@[simp] theorem takeTrap_promised : (takeTrap s i c v).promised = s.promised := by unfold takeTrap; split <;> rfl
@[simp] theorem takeTrap_draws : (takeTrap s i c v).draws = s.draws := by unfold takeTrap; split <;> rfl
@[simp] theorem takeTrap_readReg (r : Reg) : (takeTrap s i c v).readReg r = s.readReg r := by
  unfold takeTrap; split <;> rfl

theorem takeTrap_machine (h : trapTarget s i c = .machine) : takeTrap s i c v = enterMachine s i c v := by
  simp [takeTrap, h]

theorem takeTrap_supervisor (h : trapTarget s i c = .supervisor) : takeTrap s i c v = enterSupervisor s i c v := by
  simp [takeTrap, h]

theorem takeTrap_virtualSupervisor (h : trapTarget s i c = .virtualSupervisor) :
    takeTrap s i c v = enterVirtualSupervisor s i c v := by
  simp [takeTrap, h]

end takeTrap

/-! ## One CSR access instruction -/

/-- A CSR access instruction raises what the check answers, or performs the access on the CSR its number resolves to. -/
theorem csrAccess_cases (s : State) (n : Nat) (isWrite : Bool) (newValue : Word → Word) (rd : Reg) (word : BitVec 32) :
    (∃ e, checkAccess s n isWrite = some e ∧ csrAccess s n isWrite newValue rd word = raiseExc s e word) ∨
    (∃ id, checkAccess s n isWrite = none ∧ csrOf s.cfg n = some id ∧
      csrAccess s n isWrite newValue rd word = csrPerform s (resolveCsr id s.virt) isWrite newValue rd) := by
  unfold csrAccess
  cases h : checkAccess s n isWrite with
  | some e => exact Or.inl ⟨e, rfl, rfl⟩
  | none =>
    cases hc : csrOf s.cfg n with
    | none => simp [checkAccess, hc] at h
    | some id => exact Or.inr ⟨id, rfl, rfl, rfl⟩

/-- A number the check lets through names a CSR. -/
theorem csrOf_of_checkAccess_none {s : State} {n : Nat} {isWrite : Bool} (h : checkAccess s n isWrite = none) :
    ∃ id, csrOf s.cfg n = some id := by
  cases hc : csrOf s.cfg n with
  | none => simp [checkAccess, hc] at h
  | some id => exact ⟨id, rfl⟩

theorem csrAccess_of_raise {s : State} {n : Nat} {isWrite : Bool} {e : Exc} (h : checkAccess s n isWrite = some e)
    (newValue : Word → Word) (rd : Reg) (word : BitVec 32) :
    csrAccess s n isWrite newValue rd word = raiseExc s e word := by
  simp [csrAccess, h]

theorem csrAccess_of_ok {s : State} {n : Nat} {isWrite : Bool} {id : CsrId} (h : checkAccess s n isWrite = none)
    (hid : csrOf s.cfg n = some id) (newValue : Word → Word) (rd : Reg) (word : BitVec 32) :
    csrAccess s n isWrite newValue rd word = csrPerform s (resolveCsr id s.virt) isWrite newValue rd := by
  simp [csrAccess, h, hid]

/-- Every instruction of the table answers a next state: one CSR access with its own operand forms. -/
theorem exec_eq_csrAccess (i : Instr) (s : State) :
    ∃ newValue rd, exec i s = .next (csrAccess s i.csrNumber (instrWrites i) newValue rd (encode i)) := by
  cases i <;> exact ⟨_, _, rfl⟩

/-- What an instruction of the table does: it raises the exception the check answers, or performs one CSR access. -/
theorem exec_cases (i : Instr) (s : State) :
    (∃ e, instrRaises i s = some e ∧ exec i s = .next (raiseExc s e (encode i))) ∨
    (∃ id newValue rd, instrRaises i s = none ∧ csrOf s.cfg i.csrNumber = some id ∧
      exec i s = .next (csrPerform s (resolveCsr id s.virt) (instrWrites i) newValue rd)) := by
  obtain ⟨newValue, rd, h⟩ := exec_eq_csrAccess i s
  rcases csrAccess_cases s i.csrNumber (instrWrites i) newValue rd (encode i) with ⟨e, he, heq⟩ | ⟨id, hn, hid, heq⟩
  · exact Or.inl ⟨e, he, by rw [h, heq]⟩
  · exact Or.inr ⟨id, newValue, rd, hn, hid, by rw [h, heq]⟩

section csrPerform
variable (s : State) (id : CsrId) (b : Bool) (f : Word → Word) (rd : Reg)

@[simp] theorem csrPerform_cfg : (csrPerform s id b f rd).cfg = s.cfg := by
  simp only [csrPerform, setPc_cfg, writeReg_cfg]; split <;> simp
@[simp] theorem csrPerform_priv : (csrPerform s id b f rd).priv = s.priv := by
  simp only [csrPerform, setPc_priv, writeReg_priv]; split <;> simp
@[simp] theorem csrPerform_virt : (csrPerform s id b f rd).virt = s.virt := by
  simp only [csrPerform, setPc_virt, writeReg_virt]; split <;> simp
@[simp] theorem csrPerform_debugMode : (csrPerform s id b f rd).debugMode = s.debugMode := by
  simp only [csrPerform, setPc_debugMode, writeReg_debugMode]; split <;> simp
@[simp] theorem csrPerform_time : (csrPerform s id b f rd).time = s.time := by
  simp only [csrPerform, setPc_time, writeReg_time]; split <;> simp
@[simp] theorem csrPerform_cycle : (csrPerform s id b f rd).cycle = s.cycle := by
  simp only [csrPerform, setPc_cycle, writeReg_cycle]; split <;> simp
@[simp] theorem csrPerform_vmid : (csrPerform s id b f rd).vmid = s.vmid := by
  simp only [csrPerform, setPc_vmid, writeReg_vmid]; split <;> simp
@[simp] theorem csrPerform_dis : (csrPerform s id b f rd).dis = s.dis := by
  simp only [csrPerform, setPc_dis, writeReg_dis]; split <;> simp
@[simp] theorem csrPerform_enc : (csrPerform s id b f rd).enc = s.enc := by
  simp only [csrPerform, setPc_enc, writeReg_enc]; split <;> simp
@[simp] theorem csrPerform_mem : (csrPerform s id b f rd).mem = s.mem := by
  simp only [csrPerform, setPc_mem, writeReg_mem]; split <;> simp
@[simp] theorem csrPerform_agenda : (csrPerform s id b f rd).agenda = s.agenda := by
  simp only [csrPerform, setPc_agenda, writeReg_agenda]; split <;> simp
@[simp] theorem csrPerform_hartInputs : (csrPerform s id b f rd).hartInputs = s.hartInputs := by
  simp only [csrPerform, setPc_hartInputs, writeReg_hartInputs]; split <;> simp
@[simp] theorem csrPerform_promised : (csrPerform s id b f rd).promised = s.promised := by
  simp only [csrPerform, setPc_promised, writeReg_promised]; split <;> simp
@[simp] theorem csrPerform_pc : (csrPerform s id b f rd).pc = s.pc + 4 := rfl

theorem csrPerform_readReg (r : Reg) :
    (csrPerform s id b f rd).readReg r = if r = rd ∧ rd ≠ 0 then csrRead s id else s.readReg r := by
  simp only [csrPerform, setPc_readReg, readReg_writeReg]
  split
  · rfl
  · split <;> simp

end csrPerform

/-! ## Writing back what was read -/

/-- Legal fields are what a write of the word that shows them stores. -/
theorem mstrcctlFields_mstrcctlWord (c : Config) (f : StrcCtl) (e : Bool) (h : CtlLegal c f)
    : mstrcctlFields c (mstrcctlWord f e) = f := by
  obtain ⟨h1, h2, h3, h4, h5, h6, h7, h8, h9, h10, h11⟩ := h
  have k : ∀ (a b : Bool), (b = true → a = true) → (a && b) = b := by decide
  simp only [mstrcctlFields, mstrcctlWord_en, mstrcctlWord_it, mstrcctlWord_cen, mstrcctlWord_iten, mstrcctlWord_stof,
      mstrcctlWord_sten, mstrcctlWord_smod, mstrcctlWord_smax, mstrcctlWord_nta, mstrcctlWord_esj, mstrcctlWord_eir,
      mstrcctlWord_ebp, mstrcctlWord_etc, mstrcctlWord_erh, mstrcctlWord_eaj, mstrcctlWord_eam, mstrcctlWord_tsen,
      mstrcctlWord_u, mstrcctlWord_s, mstrcctlWord_m, smodStored, h11, if_true, k _ _ h1, k _ _ h2, k _ _ h3, k _ _ h4,
      k _ _ h5, k _ _ h6, k _ _ h7, k _ _ h8, k _ _ h9, k _ _ h10]

/-! ## Which CSR a number names -/

/-- The five STRC numbers name the five STRC CSRs. -/
theorem csrOf_strc {c : Config} (h : CsrNumbersLegal c) :
   csrOf c c.csrMstrcctl = some .mstrcctl ∧ csrOf c c.csrSstrcctl = some .sstrcctl ∧ csrOf c c.csrVsstrcctl =
       some .vsstrcctl ∧
   csrOf c c.csrSstrcambcs = some .sstrcambcs ∧ csrOf c c.csrSstrcambaddr = some .sstrcambaddr := by
  have hn := h.1
  simp only [strcNumbers, List.nodup_cons, List.mem_cons, List.not_mem_nil, not_or, or_false, not_false_eq_true] at hn
  obtain ⟨⟨a1, a2, a3, a4⟩, ⟨b1, b2, b3⟩, ⟨c1, c2⟩, d1, _⟩ := hn
  simp only [csrOf]
  simp [Ne.symm a1, Ne.symm a2, Ne.symm a3, Ne.symm a4, Ne.symm b1, Ne.symm b2, Ne.symm b3, Ne.symm c1, Ne.symm c2,
      Ne.symm d1]

/-- A number of the host table names its CSR. -/
theorem csrOf_host {c : Config} (h : CsrNumbersLegal c) {n : Nat} {id : CsrId} (hn : hostCsrTable.lookup n = some id)
    : csrOf c n = some id := by
  have : ∀ m ∈ strcNumbers c, n ≠ m := fun m hm e => by
    have := (h.2.1 m hm).2.2; rw [← e, hn] at this; cases this
  simp only [strcNumbers, List.mem_cons, List.not_mem_nil, or_false, forall_eq_or_imp, forall_eq] at this
  obtain ⟨h1, h2, h3, h4, h5⟩ := this
  simp [csrOf, h1, h2, h3, h4, h5, hn]

theorem csrPerform_ctl (s : State) (id b f rd) : (csrPerform s id b f rd).ctl =
    if b then (csrWrite s id (f (csrRead s id))).ctl else s.ctl := by
  simp only [csrPerform, setPc_ctl, writeReg_ctl]; split <;> rfl

theorem csrPerform_vsctl (s : State) (id b f rd) : (csrPerform s id b f rd).vsctl =
    if b then (csrWrite s id (f (csrRead s id))).vsctl else s.vsctl := by
  simp only [csrPerform, setPc_vsctl, writeReg_vsctl]; split <;> rfl

theorem csrPerform_env (s : State) (id b f rd) : (csrPerform s id b f rd).env =
    if b then (csrWrite s id (f (csrRead s id))).env else s.env := by
  simp only [csrPerform, setPc_env, writeReg_env]; split <;> rfl

theorem csrPerform_trap (s : State) (id b f rd) : (csrPerform s id b f rd).trap =
    if b then (csrWrite s id (f (csrRead s id))).trap else s.trap := by
  simp only [csrPerform, setPc_trap, writeReg_trap]; split <;> rfl

theorem csrPerform_amb (s : State) (id b f rd) : (csrPerform s id b f rd).amb =
    if b then (csrWrite s id (f (csrRead s id))).amb else s.amb := by
  simp only [csrPerform, setPc_amb, writeReg_amb]; split <;> rfl

end Sys2Proof.Machine
end

