-- ==== Sys2Proof/Laws/Decode.lean ====
section
/-! SUPPORT. The fields of an encoded word read back, and a word is the encoding of its fields (R101 to R103). -/

namespace Sys2Proof

theorem encodeFields_csr (csr : Nat) (src f3 rd) (h : csr < 4096) : fieldCsr (encodeFields csr src f3 rd) = csr := by
  unfold fieldCsr encodeFields
  have : (BitVec.ofNat 12 csr ++ src ++ f3 ++ (BitVec.ofFin rd : BitVec 5) ++ opcodeSystem :
      BitVec 32).extractLsb' 20 12 = BitVec.ofNat 12 csr := by
    apply BitVec.eq_of_getLsbD_eq; intro i hi
    simp only [BitVec.getLsbD_extractLsb', BitVec.getLsbD_append, hi]
    simp [show ¬ (20+i<7) by omega, show ¬ (20+i-7<5) by omega, show ¬ (20+i-7-5<3) by omega,
        show ¬ (20+i-7-5-3<5) by omega, show 20+i-7-5-3-5 = i by omega]
  rw [this]; simp [Nat.mod_eq_of_lt h]

theorem encodeFields_src (csr : Nat) (src f3 rd)  : (encodeFields csr src f3 rd).extractLsb' 15 5 = src := by
    unfold encodeFields
    apply BitVec.eq_of_getLsbD_eq; intro i hi
    simp only [BitVec.getLsbD_extractLsb', BitVec.getLsbD_append, hi]
    simp [show ¬ (15+i<7) by omega, show ¬ (15+i-7<5) by omega, show ¬ (15+i-7-5<3) by omega,
        show (15+i-7-5-3<5) by omega, show 15+i-7-5-3 = i by omega]
    try (intro h; omega)

theorem encodeFields_f3 (csr : Nat) (src f3 rd)  : fieldFunct3 (encodeFields csr src f3 rd) = f3 := by
    unfold fieldFunct3 encodeFields
    apply BitVec.eq_of_getLsbD_eq; intro i hi
    simp only [BitVec.getLsbD_extractLsb', BitVec.getLsbD_append, hi]
    simp [show ¬ (12+i<7) by omega, show ¬ (12+i-7<5) by omega, show (12+i-7-5<3) by omega, show 12+i-7-5 = i by omega]
    try (intro h; omega)

theorem encodeFields_rd (csr : Nat) (src f3 rd)  : fieldRd (encodeFields csr src f3 rd) = rd := by
    unfold fieldRd encodeFields
    have : (BitVec.ofNat 12 csr ++ src ++ f3 ++ (BitVec.ofFin rd : BitVec 5) ++ opcodeSystem :
        BitVec 32).extractLsb' 7 5 = BitVec.ofFin rd := by
      apply BitVec.eq_of_getLsbD_eq; intro i hi
      simp only [BitVec.getLsbD_extractLsb', BitVec.getLsbD_append, hi]
      simp [show ¬ (7+i<7) by omega, show (7+i-7<5) by omega, show 7+i-7 = i by omega, BitVec.getLsbD]
      try (intro h; omega)
    rw [this]

theorem encodeFields_op (csr : Nat) (src f3 rd)  : fieldOpcode (encodeFields csr src f3 rd) = opcodeSystem := by
    unfold fieldOpcode encodeFields
    apply BitVec.eq_of_getLsbD_eq; intro i hi
    simp only [BitVec.getLsbD_extractLsb', BitVec.getLsbD_append, hi]
    simp [hi]

theorem decodeWord_low_bits (w : BitVec 32) (h : fieldOpcode w = opcodeSystem)
    : ¬ (w.extractLsb' 0 2 ≠ 3#2 ∨ w.extractLsb' 2 3 = 7#3) := by
  have h1 : w.extractLsb' 0 2 = (fieldOpcode w).extractLsb' 0 2 := by
    apply BitVec.eq_of_getLsbD_eq; intro i hi
    simp [fieldOpcode, BitVec.getLsbD_extractLsb', hi, show i < 7 by omega]
  have h2 : w.extractLsb' 2 3 = (fieldOpcode w).extractLsb' 2 3 := by
    apply BitVec.eq_of_getLsbD_eq; intro i hi
    simp [fieldOpcode, BitVec.getLsbD_extractLsb', hi, show 2+ i < 7 by omega]
  rw [h1, h2, h]; decide

theorem decodeWord_fields (w : BitVec 32) (h : fieldOpcode w = opcodeSystem) : decodeWord w = decodeFunct3 w := by
  unfold decodeWord
  rw [if_neg (decodeWord_low_bits w h), if_neg (by simp [h])]

theorem encodeFields_of_fields (w : BitVec 32) (h : fieldOpcode w = opcodeSystem) :
    encodeFields (fieldCsr w) (fieldUimm w) (fieldFunct3 w) (fieldRd w) = w := by
  unfold encodeFields
  rw [← h]
  apply BitVec.eq_of_getLsbD_eq; intro i hi
  simp only [BitVec.getLsbD_append, fieldCsr, fieldUimm, fieldFunct3, fieldRd, fieldOpcode]
  have e1 : (BitVec.ofFin (BitVec.extractLsb' 7 5 w).toFin : BitVec 5) = BitVec.extractLsb' 7 5 w := rfl
  rw [e1]
  simp only [BitVec.ofNat_toNat, BitVec.setWidth_eq, BitVec.getLsbD_extractLsb']
  interval_cases i <;> simp

end Sys2Proof
end

