-- ==== Sys2Proof/Laws/Encoder.lean ====
section
/-! SUPPORT. What the trace encoder's operations can do, each said once: an item to the buffers, items that are not an
instruction's own, the periodic `Sync`, the reaction to an instruction. -/

namespace Sys2Proof.Machine

/-! ## The counter -/

theorem advanceCount_le (f : StrcCtl) (a n : Nat) : advanceCount f a n ≤ syncThreshold f.smax := Nat.min_le_right _ _

theorem syncThreshold_pos (m : BitVec 4) : 0 < syncThreshold m := Nat.two_pow_pos _

theorem countAfterItem_le {f : StrcCtl} {a : Nat} (h : a ≤ syncThreshold f.smax) (r : Record) (body : List Byte) :
    countAfterItem f a r body ≤ syncThreshold f.smax := by
  unfold countAfterItem
  split_ifs
  · exact Nat.zero_le _
  · exact advanceCount_le f a 1
  · exact h

theorem countAfterItem_le_succ (f : StrcCtl) (a : Nat) (r : Record) (body : List Byte) :
    countAfterItem f a r body ≤ a + 1 := by
  unfold countAfterItem
  split_ifs
  · exact Nat.zero_le _
  · exact Nat.min_le_left _ _
  · exact Nat.le_succ a

/-- Counting events moves the counter and, at most, `drawn`. -/
theorem countEvents_fields (s : State) (e : Encoder) (n : Nat) (certain : Bool) :
    ∃ k d, countEvents s e n certain = { e with syncCount := k, drawn := d } ∧
      (e.syncCount ≤ syncThreshold s.ctl.smax → k ≤ syncThreshold s.ctl.smax) := by
  unfold countEvents
  split_ifs
  · exact ⟨_, _, rfl, fun _ => advanceCount_le _ _ _⟩
  · exact ⟨_, _, rfl, fun _ => advanceCount_le _ _ _⟩
  · exact ⟨_, _, rfl, id⟩
  · exact ⟨_, _, rfl, id⟩

theorem countHalfwords_fields (s : State) (e : Encoder) (n : Nat) :
    ∃ k d, countHalfwords s e n = { e with syncCount := k, drawn := d } ∧
      (e.syncCount ≤ syncThreshold s.ctl.smax → k ≤ syncThreshold s.ctl.smax) := by
  unfold countHalfwords
  split
  · exact countEvents_fields s e n _
  · exact ⟨_, _, rfl, id⟩

theorem countCycle_fields (s : State) (e : Encoder) (waiting : Bool) :
    ∃ k d, countCycle s e waiting = { e with syncCount := k, drawn := d } ∧
      (e.syncCount ≤ syncThreshold s.ctl.smax → k ≤ syncThreshold s.ctl.smax) := by
  unfold countCycle
  split
  · exact countEvents_fields s e 1 _
  · exact ⟨_, _, rfl, id⟩

/-- A changed SMOD or SMAX moves the counter and, at most, `drawn`. -/
theorem retune_fields (old new : StrcCtl) (e : Encoder) :
    ∃ k d, retune old new e = { e with syncCount := k, drawn := d } ∧
      (old.smod = new.smod → old.smax = new.smax → k = e.syncCount) ∧
      ((old.smax = new.smax → e.syncCount ≤ syncThreshold new.smax) → k ≤ syncThreshold new.smax) := by
  unfold retune
  split_ifs with h
  · have h' := of_decide_eq_true (Bool.and_eq_true_iff.mp h).2
    exact ⟨_, _, rfl, fun _ _ => rfl, fun hk => hk h'⟩
  · exact ⟨_, _, rfl, fun h1 h2 => (h (by simp [h1, h2])).elim, fun _ => Nat.le_of_lt_succ (Nat.mod_lt _ (Nat.succ_pos _))⟩

/-! ## One item -/

section noteItem
variable (c : Config) (f : StrcCtl) (e : Encoder) (r : Record) (b : List Byte)

@[simp] theorem noteItem_buffer : (noteItem c f e r b).buffer = e.buffer := rfl
@[simp] theorem noteItem_produced : (noteItem c f e r b).produced = e.produced := rfl
@[simp] theorem noteItem_owed : (noteItem c f e r b).owed = e.owed := rfl
@[simp] theorem noteItem_active : (noteItem c f e r b).active = e.active := rfl
@[simp] theorem noteItem_trace : (noteItem c f e r b).trace = e.trace := rfl
@[simp] theorem noteItem_dropping : (noteItem c f e r b).dropping = e.dropping := rfl
@[simp] theorem noteItem_drawn : (noteItem c f e r b).drawn = e.drawn := rfl
@[simp] theorem noteItem_syncCount : (noteItem c f e r b).syncCount = countAfterItem f e.syncCount r b := rfl

/-- Whether bytes fit depends on the buffer and the stream position alone. -/
@[simp] theorem fitsBuffer_noteItem (b' : List Byte) : fitsBuffer c (noteItem c f e r b) b' = fitsBuffer c e b' := rfl

end noteItem

/-- A stamped record differs in its time alone. -/
theorem stamp_eq (c : Config) (f : StrcCtl) (e : Encoder) (r : Record) :
    stamp c f e r = { r with time := (stamp c f e r).time } := by
  unfold stamp
  split
  · split <;> rfl
  · rfl

@[simp] theorem stamp_item (c : Config) (f : StrcCtl) (e : Encoder) (r : Record) : (stamp c f e r).item = r.item := by
  rw [stamp_eq]

/-- What happens to an item: it becomes no bytes; its bytes are appended; it is dropped (only without `stall`, and only
in an overflow or when there is no room). -/
theorem deliver_cases {c : Config} {f : StrcCtl} {stall : Bool} {p q : Encoder × Bool} {r : Record}
    (h : deliver c f stall p r = some q) :
    let body := itemBytes c f p.1 r
    let e := noteItem c f p.1 r body
    (body = [] ∧ q = ({ e with trace := e.trace ++ [stamp c f p.1 r] }, p.2)) ∨
    (body ≠ [] ∧ fitsBuffer c p.1 body = true ∧
      ∃ n, q = (appendItem c { e with drawn := n } (stamp c f p.1 r) body, p.2)) ∨
    (body ≠ [] ∧ stall = false ∧ (p.1.dropping = true ∨ fitsBuffer c p.1 body = false) ∧
      ∃ n, q = ({ e with dropping := true, drawn := n }, true)) := by
  intro body e
  unfold deliver at h
  simp only [List.isEmpty_iff] at h
  split at h
  · rename_i hb
    exact Or.inl ⟨hb, (Option.some.inj h).symm⟩
  · rename_i hb
    refine Or.inr ?_
    split at h
    · split at h
      · rename_i hf
        exact Or.inl ⟨hb, hf, _, (Option.some.inj h).symm⟩
      · cases h
    · rename_i hs
      have hs' : stall = false := by simpa using hs
      split at h
      · rename_i hd
        split at h
        · rename_i hf
          exact Or.inl ⟨hb, (Bool.and_eq_true_iff.mp hf).1, _, (Option.some.inj h).symm⟩
        · refine Or.inr ⟨hb, hs', Or.inl hd, e.drawn + 1, ?_⟩
          rw [← Option.some.inj h]
          have : p.1.dropping = true := hd
          simp [e, body, noteItem, this]
      · split at h
        · rename_i hf
          exact Or.inl ⟨hb, hf, _, (Option.some.inj h).symm⟩
        · rename_i hf
          exact Or.inr ⟨hb, hs', Or.inr (by simpa using hf), _, (Option.some.inj h).symm⟩

/-- An item is turned away only with `stall`, when its bytes do not fit. -/
theorem deliver_eq_none {c : Config} {f : StrcCtl} {stall : Bool} {p : Encoder × Bool} {r : Record} :
    deliver c f stall p r = none ↔
      stall = true ∧ itemBytes c f p.1 r ≠ [] ∧ fitsBuffer c p.1 (itemBytes c f p.1 r) = false := by
  unfold deliver
  simp only [List.isEmpty_iff, fitsBuffer_noteItem]
  split_ifs <;> simp_all

/-- Without `stall` an item always finds its way: taken or dropped. -/
theorem deliver_noStall_isSome (c : Config) (f : StrcCtl) (p : Encoder × Bool) (r : Record) :
    (deliver c f false p r).isSome = true := by
  cases h : deliver c f false p r with
  | some q => rfl
  | none => exact absurd (deliver_eq_none.mp h).1 (by simp)

/-! ## What items leave as it was -/

/-- The step from one encoder, with the news of backpressure, to a later one: the trace and the waiting records only
grow, backpressure is not forgotten, the session is not touched, and the buffers stay within their capacity. -/
structure Progress (c : Config) (p q : Encoder × Bool) : Prop where
  trace : p.1.trace <+: q.1.trace
  owed : p.1.owed <+: q.1.owed
  flag : p.2 = true → q.2 = true
  active : q.1.active = p.1.active
  buffer : p.1.buffer.length ≤ c.bufCap → q.1.buffer.length ≤ c.bufCap

theorem Progress.refl (c : Config) (p : Encoder × Bool) : Progress c p p :=
  ⟨List.prefix_rfl, List.prefix_rfl, id, rfl, id⟩

theorem Progress.trans {c : Config} {p q r : Encoder × Bool} (h : Progress c p q) (k : Progress c q r) : Progress c p r :=
  ⟨h.trace.trans k.trace, h.owed.trans k.owed, k.flag ∘ h.flag, k.active.trans h.active, k.buffer ∘ h.buffer⟩

theorem deliver_progress {c : Config} {f : StrcCtl} {stall : Bool} {p q : Encoder × Bool} {r : Record}
    (h : deliver c f stall p r = some q) : Progress c p q := by
  rcases deliver_cases h with ⟨_, rfl⟩ | ⟨_, hf, _, rfl⟩ | ⟨_, _, _, n, rfl⟩
  · exact ⟨List.prefix_append _ _, List.prefix_rfl, id, rfl, id⟩
  · exact ⟨List.prefix_append _ _, List.prefix_rfl, id, rfl, fun _ => by simpa [appendItem] using of_decide_eq_true hf⟩
  · exact ⟨List.prefix_rfl, List.prefix_rfl, fun _ => rfl, rfl, id⟩

theorem deliver_owed {c : Config} {f : StrcCtl} {stall : Bool} {p q : Encoder × Bool} {r : Record}
    (h : deliver c f stall p r = some q) : q.1.owed = p.1.owed := by
  rcases deliver_cases h with ⟨_, rfl⟩ | ⟨_, hf, _, rfl⟩ | ⟨_, _, _, n, rfl⟩ <;> rfl

theorem deliver_count {c : Config} {f : StrcCtl} {stall : Bool} {p q : Encoder × Bool} {r : Record}
    (h : deliver c f stall p r = some q) : q.1.syncCount = countAfterItem f p.1.syncCount r (itemBytes c f p.1 r) := by
  rcases deliver_cases h with ⟨_, rfl⟩ | ⟨_, hf, _, rfl⟩ | ⟨_, _, _, n, rfl⟩ <;> rfl

/-- An item is the last one added to the trace, or it is dropped without `stall`. -/
theorem deliver_trace {c : Config} {f : StrcCtl} {stall : Bool} {p q : Encoder × Bool} {r : Record}
    (h : deliver c f stall p r = some q) :
    (q.2 = p.2 ∧ ∃ l, q.1.trace = p.1.trace ++ l ++ [stamp c f p.1 r] ∧ ∀ x ∈ l, x.item = .encapSync) ∨
    (stall = false ∧ q.2 = true ∧ q.1.dropping = true ∧ q.1.trace = p.1.trace ∧
      (p.1.dropping = true ∨ itemBytes c f p.1 r ≠ [] ∧ fitsBuffer c p.1 (itemBytes c f p.1 r) = false)) := by
  rcases deliver_cases h with ⟨_, rfl⟩ | ⟨_, hf, n, rfl⟩ | ⟨hb, hs, hd, n, rfl⟩
  · exact Or.inl ⟨rfl, [], by simp, by simp⟩
  · refine Or.inl ⟨rfl, ?_⟩
    simp only [appendItem, noteItem_trace]
    split
    · exact ⟨[{ stamp c f p.1 r with item := .encapSync }], by simp, by simp⟩
    · exact ⟨[], by simp, by simp⟩
  · exact Or.inr ⟨hs, rfl, rfl, rfl, hd.imp_right fun hf => ⟨hb, hf⟩⟩

/-! ## Items that are not an instruction's own -/

theorem waitFor_progress (c : Config) (f : StrcCtl) (p : Encoder × Bool) (r : Record) :
    Progress c p (waitFor c f p r) :=
  ⟨List.prefix_rfl, List.prefix_append _ _, fun _ => rfl, rfl, id⟩

/-- An item is delivered when nothing waits and it is not turned away, and otherwise it waits. -/
theorem emit_cases (s : State) (stall : Bool) (p : Encoder × Bool) (item : Item) :
    (p.1.owed = [] ∧ deliver s.cfg s.ctl stall p (mkRecord s item) = some (emit s stall p item)) ∨
    ((p.1.owed ≠ [] ∨ stall = true) ∧ emit s stall p item = waitFor s.cfg s.ctl p (mkRecord s item)) := by
  unfold emit
  split
  · rename_i ho
    cases hd : deliver s.cfg s.ctl stall p (mkRecord s item) with
    | some q => exact Or.inl ⟨by simpa using ho, rfl⟩
    | none => exact Or.inr ⟨Or.inr (deliver_eq_none.mp hd).1, rfl⟩
  · rename_i ho
    exact Or.inr ⟨Or.inl (by simpa using ho), rfl⟩

theorem emit_progress (s : State) (stall : Bool) (p : Encoder × Bool) (item : Item) :
    Progress s.cfg p (emit s stall p item) := by
  rcases emit_cases s stall p item with ⟨_, h⟩ | ⟨_, h⟩
  · exact deliver_progress h
  · rw [h]; exact waitFor_progress _ _ _ _

/-- An item counts when it is generated, whatever becomes of it. -/
theorem emit_count (s : State) (stall : Bool) (p : Encoder × Bool) (item : Item) :
    (emit s stall p item).1.syncCount = countAfterItem s.ctl p.1.syncCount (mkRecord s item)
      (itemBytes s.cfg s.ctl p.1 (mkRecord s item)) := by
  rcases emit_cases s stall p item with ⟨_, h⟩ | ⟨_, h⟩
  · exact deliver_count h
  · rw [h]; rfl

theorem emit_count_le (s : State) (stall : Bool) {p : Encoder × Bool} (item : Item)
    (h : p.1.syncCount ≤ syncThreshold s.ctl.smax) :
    (emit s stall p item).1.syncCount ≤ syncThreshold s.ctl.smax := by
  rw [emit_count]; exact countAfterItem_le h _ _

theorem emit_sync_count (s : State) (stall : Bool) (p : Encoder × Bool) :
    (emit s stall p .sync).1.syncCount = 0 := by rw [emit_count]; rfl

/-- What becomes of an item: it is the last one added to the trace; it waits, and STOF is to be set; or it is dropped
without `stall`. -/
theorem emit_outcome (s : State) (stall : Bool) (p : Encoder × Bool) (item : Item) :
    let r := stamp s.cfg s.ctl p.1 (mkRecord s item)
    let q := emit s stall p item
    (q.2 = p.2 ∧ ∃ l, q.1.trace = p.1.trace ++ l ++ [r] ∧ ∀ x ∈ l, x.item = .encapSync) ∨
    (q.2 = true ∧ q.1.trace = p.1.trace ∧ ∃ b, q.1.owed = p.1.owed ++ [⟨r, b⟩]) ∨
    (p.1.owed = [] ∧ stall = false ∧ q.2 = true ∧ q.1.dropping = true ∧ q.1.trace = p.1.trace ∧
      (p.1.dropping = true ∨ itemBytes s.cfg s.ctl p.1 (mkRecord s item) ≠ [] ∧
        fitsBuffer s.cfg p.1 (itemBytes s.cfg s.ctl p.1 (mkRecord s item)) = false)) := by
  rcases emit_cases s stall p item with ⟨ho, h⟩ | ⟨_, h⟩
  · rcases deliver_trace h with ht | ht
    · exact Or.inl ht
    · exact Or.inr (Or.inr ⟨ho, ht⟩)
  · exact Or.inr (Or.inl (by rw [h]; exact ⟨rfl, rfl, _, rfl⟩))

theorem syncAfter_of_not_due {s : State} {stall : Bool} {p : Encoder × Bool} (h : syncDue s p.1 = false) :
    syncAfter s stall p = p := by
  simp [syncAfter, h]

theorem syncAfter_of_due {s : State} {stall : Bool} {p : Encoder × Bool} (h : syncDue s p.1 = true) :
    syncAfter s stall p = emit s stall p .sync := by
  simp [syncAfter, h]

theorem syncAfter_progress (s : State) (stall : Bool) (p : Encoder × Bool) : Progress s.cfg p (syncAfter s stall p) := by
  unfold syncAfter
  split
  · exact emit_progress _ _ _ _
  · exact Progress.refl _ _

theorem syncAfter_count_le (s : State) (stall : Bool) {p : Encoder × Bool}
    (h : p.1.syncCount ≤ syncThreshold s.ctl.smax) :
    (syncAfter s stall p).1.syncCount ≤ syncThreshold s.ctl.smax := by
  unfold syncAfter
  split
  · exact emit_count_le _ _ _ h
  · exact h

/-- A `Sync` that is due is generated, dropped, or waits; after it none is due. -/
theorem syncAfter_settled (s : State) (stall : Bool) (p : Encoder × Bool) :
    syncDue s (syncAfter s stall p).1 = false := by
  unfold syncAfter
  split
  · simp [syncDue, emit_sync_count, (syncThreshold_pos s.ctl.smax).ne']
  · rename_i h; simpa using h

/-! ## Items that close a session -/

theorem emitClosing_progress (s : State) (stall : Bool) (p : Encoder × Bool) (item : Item) :
    Progress s.cfg p (emitClosing s stall p item) := by
  unfold emitClosing
  dsimp only
  split
  · exact (emit_progress s stall p .sync).trans (emit_progress s stall _ item)
  · exact emit_progress s stall p item

theorem emitClosing_count_le (s : State) (stall : Bool) {p : Encoder × Bool} (item : Item)
    (h : p.1.syncCount ≤ syncThreshold s.ctl.smax) :
    (emitClosing s stall p item).1.syncCount ≤ syncThreshold s.ctl.smax := by
  unfold emitClosing
  dsimp only
  split
  · exact emit_count_le _ _ _ (emit_count_le _ _ _ h)
  · exact emit_count_le _ _ _ h

/-- With SMOD = 1 the counter is below the threshold after an item that closes a session: where it would reach it, a
`Sync` has come before the item. -/
theorem emitClosing_count_lt (s : State) (stall : Bool) (p : Encoder × Bool) (item : Item) (h : s.ctl.smod = 1) :
    (emitClosing s stall p item).1.syncCount < syncThreshold s.ctl.smax := by
  have h1 : 1 < syncThreshold s.ctl.smax := Nat.one_lt_two_pow (by omega)
  unfold emitClosing
  dsimp only
  rw [emit_count]
  refine lt_of_le_of_lt (countAfterItem_le_succ _ _ _ _) ?_
  split
  · rw [emit_sync_count]; exact h1
  · rename_i hf
    simpa [h] using hf

theorem closing_progress (s : State) (stall : Bool) (p : Encoder × Bool) (items : List Item) :
    Progress s.cfg p (items.foldl (emitClosing s stall) p) := by
  induction items generalizing p with
  | nil => exact Progress.refl _ _
  | cons item items ih => exact (emitClosing_progress s stall p item).trans (ih _)

theorem closing_count_le (s : State) (stall : Bool) {p : Encoder × Bool} (items : List Item)
    (h : p.1.syncCount ≤ syncThreshold s.ctl.smax) :
    (items.foldl (emitClosing s stall) p).1.syncCount ≤ syncThreshold s.ctl.smax := by
  induction items generalizing p with
  | nil => exact h
  | cons item items ih => exact ih (emitClosing_count_le s stall item h)

/-! ## The periodic `Sync` of a state -/

section settleSync
variable (s : State)

theorem settleSync_eq : settleSync s =
    { s with enc := (settleSync s).enc, ctl := { s.ctl with stof := (settleSync s).ctl.stof } } := rfl

@[simp] theorem settleSync_cfg : (settleSync s).cfg = s.cfg := rfl
@[simp] theorem settleSync_x : (settleSync s).x = s.x := rfl
@[simp] theorem settleSync_pc : (settleSync s).pc = s.pc := rfl
@[simp] theorem settleSync_priv : (settleSync s).priv = s.priv := rfl
@[simp] theorem settleSync_virt : (settleSync s).virt = s.virt := rfl
@[simp] theorem settleSync_debugMode : (settleSync s).debugMode = s.debugMode := rfl
@[simp] theorem settleSync_trap : (settleSync s).trap = s.trap := rfl
@[simp] theorem settleSync_env : (settleSync s).env = s.env := rfl
@[simp] theorem settleSync_time : (settleSync s).time = s.time := rfl
@[simp] theorem settleSync_cycle : (settleSync s).cycle = s.cycle := rfl
@[simp] theorem settleSync_vmid : (settleSync s).vmid = s.vmid := rfl
@[simp] theorem settleSync_vsctl : (settleSync s).vsctl = s.vsctl := rfl
@[simp] theorem settleSync_dis : (settleSync s).dis = s.dis := rfl
@[simp] theorem settleSync_amb : (settleSync s).amb = s.amb := rfl
@[simp] theorem settleSync_mem : (settleSync s).mem = s.mem := rfl
@[simp] theorem settleSync_agenda : (settleSync s).agenda = s.agenda := rfl
@[simp] theorem settleSync_hartInputs : (settleSync s).hartInputs = s.hartInputs := rfl
@[simp] theorem settleSync_promised : (settleSync s).promised = s.promised := rfl
@[simp] theorem settleSync_draws : (settleSync s).draws = s.draws := rfl
@[simp] theorem settleSync_active : (settleSync s).enc.active = s.enc.active :=
  (syncAfter_progress s s.ctl.sten (s.enc, false)).active
@[simp] theorem settleSync_syncDue (e : Encoder) : syncDue (settleSync s) e = syncDue s e := rfl

/-- Only STOF of `mstrcctl` changes, and it is only set. -/
theorem settleSync_ctl : (settleSync s).ctl = { s.ctl with stof := (settleSync s).ctl.stof } := rfl

theorem settleSync_stof (h : s.ctl.stof = true) : (settleSync s).ctl.stof = true := by
  simp [settleSync, State.withDelivery, h]

theorem settleSync_settled : syncDue (settleSync s) (settleSync s).enc = false :=
  syncAfter_settled s s.ctl.sten (s.enc, false)

theorem settleSync_of_not_due (h : syncDue s s.enc = false) : settleSync s = s := by
  simp [settleSync, syncAfter_of_not_due (p := (s.enc, false)) h, State.withDelivery]

theorem settleSync_grows : s.enc.trace <+: (settleSync s).enc.trace :=
  (syncAfter_progress s s.ctl.sten (s.enc, false)).trace

end settleSync

/-- Where no trace is generated and no session is open, no `Sync` is due. -/
theorem syncDue_closed {s : State} (h : s.sessionOpen = false) (e : Encoder) (hg : s.generating = false) :
    syncDue s e = false := by
  simp [syncDue, hg, h]

theorem generating_en {s : State} (h : s.generating = true) : s.ctl.en = true := by
  simp only [State.generating, Bool.and_eq_true] at h
  exact h.1.1.1.2

theorem generating_dis {s : State} (h : s.dis = true) : s.generating = false := by simp [State.generating, h]

theorem syncDue_dis {s : State} (h : s.dis = true) (e : Encoder) : syncDue s e = false :=
  syncDue_closed (by simp [State.sessionOpen, h]) e (generating_dis h)

theorem syncDue_disabled {s : State} (h : s.ctl.en = false) (e : Encoder) : syncDue s e = false :=
  syncDue_closed (by simp [State.sessionOpen, h]) e (by simp [State.generating, h])

/-! ## The reaction to an instruction -/

theorem sessionItems_same {s s' : State} (h : s'.ctl.en = s.ctl.en) (stall : Bool) (p : Encoder × Bool) :
    sessionItems s s' stall p = p := by
  unfold sessionItems
  rw [h]
  cases s.ctl.en <;> simp

theorem sessionItems_progress {s s' : State} (hcfg : s'.cfg = s.cfg) (stall : Bool) (p : Encoder × Bool) :
    Progress s.cfg p (sessionItems s s' stall p) := by
  unfold sessionItems
  split
  · have h0 : Progress s.cfg p ({ p.1 with drawn := p.1.drawn + 1 }, p.2) :=
      ⟨List.prefix_rfl, List.prefix_rfl, id, rfl, id⟩
    exact h0.trans (closing_progress s stall _ _)
  · split
    · have h := emit_progress s' stall p (.support false)
      rwa [hcfg] at h
    · exact Progress.refl _ _

theorem sessionItems_count_le {s s' : State} (hmax : s'.ctl.smax = s.ctl.smax) (stall : Bool) {p : Encoder × Bool}
    (h : p.1.syncCount ≤ syncThreshold s.ctl.smax) :
    (sessionItems s s' stall p).1.syncCount ≤ syncThreshold s.ctl.smax := by
  unfold sessionItems
  split
  · exact closing_count_le s stall (p := ({ p.1 with drawn := p.1.drawn + 1 }, p.2)) _ h
  · split
    · have h1 := emit_count_le s' stall (p := p) (.support false)
      rw [hmax] at h1
      exact h1 h
    · exact h

theorem deliverOwn_progress {s : State} {stall : Bool} {p q : Encoder × Bool} {own : Option Item}
    (h : deliverOwn s stall p own = some q) : Progress s.cfg p q := by
  cases own with
  | none => cases h; exact Progress.refl _ _
  | some item => exact deliver_progress h

theorem deliverOwn_count_le {s : State} {stall : Bool} {p q : Encoder × Bool} {own : Option Item}
    (h : deliverOwn s stall p own = some q) (hp : p.1.syncCount ≤ syncThreshold s.ctl.smax) :
    q.1.syncCount ≤ syncThreshold s.ctl.smax := by
  cases own with
  | none => cases h; exact hp
  | some item => rw [deliver_count h]; exact countAfterItem_le hp _ _

/-- The reaction: the instruction's own item, the `Sync` it makes due, the session's items, and the last `Sync`. -/
theorem encoderReacts_some {s s' t : State} {own : Option Item} {n : Nat} (h : encoderReacts s s' own n = some t) :
    ∃ p, deliverOwn s (stallEnabled s s') (countHalfwords s s.enc n, false) own = some p ∧
      t = settleSync (reacted s s' (sessionItems s s' (stallEnabled s s') (syncAfter s (stallEnabled s s') p))) := by
  simp only [encoderReacts, Option.map_eq_some_iff] at h
  obtain ⟨p, hp, rfl⟩ := h
  exact ⟨p, hp, rfl⟩

theorem encoderReacts_eq_none {s s' : State} {own : Option Item} {n : Nat} :
    encoderReacts s s' own n = none ↔
      deliverOwn s (stallEnabled s s') (countHalfwords s s.enc n, false) own = none := by
  simp [encoderReacts]

/-- What the reaction leaves: the instruction's state, with another encoder and, where there was backpressure, STOF. -/
theorem encoderReacts_eq {s s' t : State} {own : Option Item} {n : Nat} (h : encoderReacts s s' own n = some t) :
    t = { s' with enc := t.enc, ctl := { s'.ctl with stof := t.ctl.stof } } ∧ t.enc.active = s'.ctl.en ∧
    (s'.ctl.stof = true → t.ctl.stof = true) ∧ syncDue t t.enc = false := by
  obtain ⟨p, _, rfl⟩ := encoderReacts_some h
  refine ⟨rfl, ?_, fun h => settleSync_stof _ (by simp [reacted, h]), settleSync_settled _⟩
  rw [settleSync_active]; rfl

/-- The machine after an instruction is the stalled one, or what the reaction leaves. -/
theorem observe_cases (s s' : State) (own : Option Item) (n : Nat) :
    (encoderReacts s s' own n = none ∧ observe s s' own n = stallOn s (ownBytes s own)) ∨
    encoderReacts s s' own n = some (observe s s' own n) := by
  unfold observe
  cases h : encoderReacts s s' own n with
  | none => exact Or.inl ⟨rfl, rfl⟩
  | some t => exact Or.inr rfl

/-- The reaction keeps the encoder within its bounds, for the configuration and the SMAX after it. -/
theorem encoderReacts_bounded {s s' t : State} {own : Option Item} {n : Nat} (h : encoderReacts s s' own n = some t)
    (hcfg : s'.cfg = s.cfg) (hs : EncoderOk s) : EncoderOk t := by
  have ha := (encoderReacts_eq h).2.1
  obtain ⟨p, hp, rfl⟩ := encoderReacts_some h
  obtain ⟨k, d, hk, hle⟩ := countHalfwords_fields s s.enc n
  set st := stallEnabled s s'
  set q := sessionItems s s' st (syncAfter s st p) with hq
  have hpq : Progress s.cfg (countHalfwords s s.enc n, false) q :=
    (deliverOwn_progress hp).trans ((syncAfter_progress s st p).trans (sessionItems_progress hcfg st _))
  have hbuf : q.1.buffer.length ≤ s.cfg.bufCap := hpq.buffer (by rw [hk]; exact hs.1)
  have hp0 : p.1.syncCount ≤ syncThreshold s.ctl.smax := deliverOwn_count_le hp (by rw [hk]; exact hle hs.2.1)
  have hcount (hmax : s'.ctl.smax = s.ctl.smax) : q.1.syncCount ≤ syncThreshold s.ctl.smax :=
    sessionItems_count_le hmax st (syncAfter_count_le s st hp0)
  obtain ⟨k', d', hr, _, hrle⟩ := retune_fields s.ctl s'.ctl q.1
  have hre : (reacted s s' q).enc = { q.1 with syncCount := k', drawn := d', active := s'.ctl.en, held := [] } := by
    simp [reacted, hr]
  refine ⟨?_, ?_, by rw [ha]; rfl⟩
  · refine (syncAfter_progress (reacted s s' q) _ ((reacted s s' q).enc, false)).buffer ?_
    rw [hre]
    show q.1.buffer.length ≤ s'.cfg.bufCap
    rw [hcfg]; exact hbuf
  · refine syncAfter_count_le (reacted s s' q) _ (p := ((reacted s s' q).enc, false)) ?_
    rw [hre]
    exact hrle fun hm => hm ▸ hcount hm.symm

/-- With nothing of its own to record and EN staying, an instruction moves the counter and may make a `Sync` due. -/
theorem encoderReacts_quiet {s s' : State} (he : s'.ctl.en = s.ctl.en) (n : Nat) :
    encoderReacts s s' none n =
      some (settleSync (reacted s s' (syncAfter s (stallEnabled s s') (countHalfwords s s.enc n, false)))) := by
  simp [encoderReacts, deliverOwn, sessionItems_same he]

theorem whenGenerating_off {s : State} (hg : s.generating = false) (i : Item) : whenGenerating s i = none := by
  simp [whenGenerating, hg]
theorem whenGenerating_on {s : State} (hg : s.generating = true) (i : Item) : whenGenerating s i = some i := by
  simp [whenGenerating, hg]

/-! ## Waiting items -/

section appendWaiting
variable (c : Config) (e : Encoder) (w : Waiting)

@[simp] theorem appendWaiting_syncCount : (appendWaiting c e w).syncCount = e.syncCount := by
  unfold appendWaiting; split <;> rfl
@[simp] theorem appendWaiting_active : (appendWaiting c e w).active = e.active := by
  unfold appendWaiting; split <;> rfl

theorem appendWaiting_trace : e.trace <+: (appendWaiting c e w).trace := by
  unfold appendWaiting; split <;> exact List.prefix_append _ _

theorem appendWaiting_buffer (hw : (w.body.isEmpty || fitsBuffer c e w.body) = true) (h : e.buffer.length ≤ c.bufCap) :
    (appendWaiting c e w).buffer.length ≤ c.bufCap := by
  unfold appendWaiting
  split
  · exact h
  · rename_i hb
    simp only [hb, Bool.false_or] at hw
    simpa [appendItem] using of_decide_eq_true hw

end appendWaiting

/-- Waiting items that are settled keep the encoder within its bounds; they were counted before, and the session is not
touched. -/
theorem settleOwed_keeps (c : Config) (ws : List Waiting) (e : Encoder) :
    (e.buffer.length ≤ c.bufCap → (settleOwed c e ws).buffer.length ≤ c.bufCap) ∧
    (settleOwed c e ws).syncCount = e.syncCount ∧
    (settleOwed c e ws).active = e.active ∧ e.trace <+: (settleOwed c e ws).trace := by
  induction ws generalizing e with
  | nil => exact ⟨id, rfl, rfl, List.prefix_rfl⟩
  | cons w ws ih =>
    unfold settleOwed
    split
    · rename_i hw
      obtain ⟨h1, h2, h3, h4⟩ := ih (appendWaiting c e w)
      exact ⟨h1 ∘ appendWaiting_buffer c e w hw, h2.trans (appendWaiting_syncCount c e w),
        h3.trans (appendWaiting_active c e w), (appendWaiting_trace c e w).trans h4⟩
    · exact ⟨id, rfl, rfl, List.prefix_rfl⟩

theorem settleOwed_nil (c : Config) (e : Encoder) (h : e.owed = []) : settleOwed c e [] = e := by
  show { e with owed := [] } = e
  rw [← h]

/-- An encoder in which nothing waits holds the bytes of its buffers. -/
theorem heldBytes_of_owed_nil (c : Config) (e : Encoder) (h : e.owed = []) : heldBytes c e = e.buffer := by
  simp [heldBytes, h]

end Sys2Proof.Machine
end

