-- ==== Sys2Proof/Laws/Memory.lean ====
section
/-! SUPPORT. What a memory operation can do: reads after writes, and that every write keeps the canonical form. -/

namespace Sys2Proof.Machine

open Host

@[simp] theorem memRead_nil (a : Nat) : memRead [] a = unlistedByte := rfl

theorem memRead_cons (k : Nat) (b : Byte) (rest : List Cell) (a : Nat) :
    memRead ((k, b) :: rest) a = if k = a then b else memRead rest a := rfl

/-- An address that no entry lists reads as an unlisted byte. -/
theorem memRead_of_not_listed {m : List Cell} {a : Nat} (h : ∀ c ∈ m, c.1 ≠ a) : memRead m a = unlistedByte := by
  induction m with
  | nil => rfl
  | cons c rest ih =>
    obtain ⟨k, b⟩ := c
    rw [memRead_cons, if_neg (h (k, b) (by simp)), ih (fun c hc => h c (by simp [hc]))]

theorem memRead_memWrite_ne (m : List Cell) {a b : Nat} (v : Byte) (h : b ≠ a) :
    memRead (memWrite m a v) b = memRead m b := by
  induction m with
  | nil =>
    simp only [memWrite]
    split
    · rfl
    · rw [memRead_cons, if_neg (Ne.symm h)]
  | cons c rest ih =>
    obtain ⟨k, w⟩ := c
    simp only [memWrite]
    split_ifs with h1 h2 h3 h4
    · rfl
    · rw [memRead_cons, if_neg (Ne.symm h)]
    · subst h3; rw [memRead_cons, if_neg (Ne.symm h)]
    · subst h3; rw [memRead_cons, memRead_cons, if_neg (Ne.symm h), if_neg (Ne.symm h)]
    · rw [memRead_cons, memRead_cons, ih]

theorem memWf_tail {c : Cell} {rest : List Cell} (h : memWf (c :: rest)) : memWf rest :=
  ⟨h.1.of_cons, fun d hd => h.2 d (List.mem_cons_of_mem c hd)⟩

theorem memWf_head_lt {c : Cell} {rest : List Cell} (h : memWf (c :: rest)) : ∀ d ∈ rest, c.1 < d.1 :=
  (List.pairwise_cons.mp h.1).1

theorem memRead_memWrite_same {m : List Cell} (hm : memWf m) (a : Nat) (v : Byte) :
    memRead (memWrite m a v) a = v := by
  induction m with
  | nil =>
    simp only [memWrite]
    split
    · rename_i h; rw [memRead_nil, h]
    · rw [memRead_cons, if_pos rfl]
  | cons c rest ih =>
    obtain ⟨k, w⟩ := c
    have hlt := memWf_head_lt hm
    simp only [memWrite]
    split_ifs with h1 h2 h3 h4
    · rw [h2]
      refine memRead_of_not_listed (fun d hd => ?_)
      rcases List.mem_cons.mp hd with rfl | hd
      · exact Nat.ne_of_gt h1
      · exact Nat.ne_of_gt (Nat.lt_trans h1 (hlt d hd))
    · rw [memRead_cons, if_pos rfl]
    · subst h3
      rw [h4]
      exact memRead_of_not_listed (fun d hd => Nat.ne_of_gt (hlt d hd))
    · subst h3; rw [memRead_cons, if_pos rfl]
    · rw [memRead_cons, if_neg (Ne.symm h3), ih (memWf_tail hm)]

/-- A read after a write: the value written at the address, what was there elsewhere. -/
theorem memRead_memWrite {m : List Cell} (hm : memWf m) (a : Nat) (v : Byte) (b : Nat) :
    memRead (memWrite m a v) b = if b = a then v else memRead m b := by
  split
  · rename_i h; rw [h]; exact memRead_memWrite_same hm a v
  · rename_i h; exact memRead_memWrite_ne m v h

/-- Every entry after a write is an entry from before or the written one. -/
theorem mem_memWrite {m : List Cell} {a : Nat} {v : Byte} {c : Cell} (h : c ∈ memWrite m a v) :
    c ∈ m ∨ (c = (a, v) ∧ v ≠ unlistedByte) := by
  induction m with
  | nil =>
    simp only [memWrite] at h
    split at h
    · simp at h
    · rename_i hv; simp at h; exact Or.inr ⟨h, hv⟩
  | cons d rest ih =>
    obtain ⟨k, w⟩ := d
    simp only [memWrite] at h
    split_ifs at h with h1 h2 h3 h4
    · exact Or.inl h
    · rcases List.mem_cons.mp h with h | h
      · exact Or.inr ⟨h, h2⟩
      · exact Or.inl h
    · exact Or.inl (List.mem_cons_of_mem _ h)
    · rcases List.mem_cons.mp h with h | h
      · exact Or.inr ⟨h, h4⟩
      · exact Or.inl (List.mem_cons_of_mem _ h)
    · rcases List.mem_cons.mp h with h | h
      · exact Or.inl (by rw [h]; exact List.mem_cons_self)
      · rcases ih h with h | h
        · exact Or.inl (List.mem_cons_of_mem _ h)
        · exact Or.inr h

/-- A write at an address of the address space keeps the canonical form. -/
theorem memWrite_wf {m : List Cell} (hm : memWf m) {a : Nat} (ha : a < 2 ^ 64) (v : Byte) : memWf (memWrite m a v) := by
  refine ⟨?_, fun c hc => ?_⟩
  · induction m with
    | nil =>
      simp only [memWrite]
      split <;> simp
    | cons d rest ih =>
      obtain ⟨k, w⟩ := d
      have hlt := memWf_head_lt hm
      simp only [memWrite]
      split_ifs with h1 h2 h3 h4
      · exact hm.1
      · refine List.pairwise_cons.mpr ⟨fun e he => ?_, hm.1⟩
        rcases List.mem_cons.mp he with rfl | he
        · exact h1
        · exact Nat.lt_trans h1 (hlt e he)
      · exact (memWf_tail hm).1
      · subst h3; exact List.pairwise_cons.mpr ⟨fun e he => hlt e he, (memWf_tail hm).1⟩
      · refine List.pairwise_cons.mpr ⟨fun e he => ?_, ih (memWf_tail hm)⟩
        rcases mem_memWrite he with he | ⟨rfl, _⟩
        · exact hlt e he
        · exact Nat.lt_of_le_of_ne (Nat.le_of_not_lt h1) (fun h => h3 h.symm)
  · rcases mem_memWrite hc with hc | ⟨rfl, hv⟩
    · exact hm.2 c hc
    · exact ⟨hv, ha⟩

@[simp] theorem memWriteBytes_nil (m : List Cell) (addr : Word) : memWriteBytes m addr [] = m := rfl

theorem memWriteBytes_cons (m : List Cell) (addr : Word) (b : Byte) (bs : List Byte) :
    memWriteBytes m addr (b :: bs) = memWriteBytes (memWrite m addr.toNat b) (addr + 1) bs := rfl

theorem memWriteBytes_wf {m : List Cell} (hm : memWf m) (addr : Word) (bs : List Byte) :
    memWf (memWriteBytes m addr bs) := by
  induction bs generalizing m addr with
  | nil => exact hm
  | cons b bs ih => exact ih (memWrite_wf hm addr.isLt b) (addr + 1)

/-- Writing bytes leaves every address outside them as it was. -/
theorem memRead_memWriteBytes_of_outside (m : List Cell) (addr : Word) (bs : List Byte) (a : Nat)
    (h : ∀ i < bs.length, a ≠ byteAddr addr i) : memRead (memWriteBytes m addr bs) a = memRead m a := by
  induction bs generalizing m addr with
  | nil => rfl
  | cons b bs ih =>
    rw [memWriteBytes_cons, ih]
    · have h0 := h 0 (by simp)
      exact memRead_memWrite_ne m b (by simpa [byteAddr] using h0)
    · intro i hi
      have h1 := h (i + 1) (by simpa using hi)
      have hb : byteAddr (addr + 1) i = byteAddr addr (i + 1) := by
        simp only [byteAddr]
        congr 1
        rw [BitVec.add_assoc]
        congr 1
        apply BitVec.eq_of_toNat_eq
        simp [BitVec.toNat_ofNat, Nat.add_comm]
      rw [hb]; exact h1

end Sys2Proof.Machine
end

