-- ==== Sys2Proof/Laws/PerInstr.lean ====
section
/-! SUPPORT. One family of statements made instruction by instruction: the word of every instruction carries its row's
pattern of spec/opcode_table.json. -/

namespace Sys2Proof.Laws

/-- The `match` column of an instruction's row of spec/opcode_table.json; its `mask` is 0x707F for every row. -/
def rowMatch : Instr → BitVec 32
  | .csrrw _ _ _ => 0x1073#32
  | .csrrs _ _ _ => 0x2073#32
  | .csrrc _ _ _ => 0x3073#32
  | .csrrwi _ _ _ => 0x5073#32
  | .csrrsi _ _ _ => 0x6073#32
  | .csrrci _ _ _ => 0x7073#32

/-- The masked bits of an encoded word are its `funct3` and the opcode, whatever its operands are. -/
theorem encodeFields_masked (csr : Nat) (src : BitVec 5) (f3 : BitVec 3) (rd : Reg) :
    encodeFields csr src f3 rd &&& 0x707F#32 = 0#17 ++ f3 ++ 0#5 ++ opcodeSystem := by
  have mask : ∀ j, j < 32 → (0x707F#32).getLsbD j = (decide (j < 7) || decide (12 ≤ j ∧ j < 15)) := by decide
  unfold encodeFields
  apply BitVec.eq_of_getLsbD_eq
  intro i hi
  rw [BitVec.getLsbD_and, mask i hi]
  simp only [BitVec.getLsbD_append]
  interval_cases i <;> simp

/-- The word of an instruction has its row's bits under the row's mask. -/
def EncodingHasRowPattern.Statement (i : Instr) : Prop := encode i &&& 0x707F#32 = rowMatch i

theorem EncodingHasRowPattern.csrrw (rd : Reg) (csr : Nat) (rs1 : Reg) :
    EncodingHasRowPattern.Statement (.csrrw rd csr rs1) := encodeFields_masked ..

theorem EncodingHasRowPattern.csrrs (rd : Reg) (csr : Nat) (rs1 : Reg) :
    EncodingHasRowPattern.Statement (.csrrs rd csr rs1) := encodeFields_masked ..

theorem EncodingHasRowPattern.csrrc (rd : Reg) (csr : Nat) (rs1 : Reg) :
    EncodingHasRowPattern.Statement (.csrrc rd csr rs1) := encodeFields_masked ..

theorem EncodingHasRowPattern.csrrwi (rd : Reg) (csr : Nat) (uimm : BitVec 5) :
    EncodingHasRowPattern.Statement (.csrrwi rd csr uimm) := encodeFields_masked ..

theorem EncodingHasRowPattern.csrrsi (rd : Reg) (csr : Nat) (uimm : BitVec 5) :
    EncodingHasRowPattern.Statement (.csrrsi rd csr uimm) := encodeFields_masked ..

theorem EncodingHasRowPattern.csrrci (rd : Reg) (csr : Nat) (uimm : BitVec 5) :
    EncodingHasRowPattern.Statement (.csrrci rd csr uimm) := encodeFields_masked ..

end Sys2Proof.Laws
end

