-- ==== Sys2Proof/Laws/Sink.lean ====
section
/-! SUPPORT. What the sink's operations can do to memory and to what it still has to write. -/

namespace Sys2Proof.Machine

open Host

/-! ## Writes to memory -/

@[simp] theorem writePending_nil (m : List Cell) : writePending [] m = m := rfl

theorem writePending_cons (w : Word × Byte) (ws : List (Word × Byte)) (m : List Cell) :
    writePending (w :: ws) m = writePending ws (memWrite m w.1.toNat w.2) := rfl

theorem writePending_append (ws vs : List (Word × Byte)) (m : List Cell) :
    writePending (ws ++ vs) m = writePending vs (writePending ws m) := by simp [writePending, List.foldl_append]

theorem writePending_wf (ws : List (Word × Byte)) {m : List Cell} (h : memWf m) : memWf (writePending ws m) := by
  induction ws generalizing m with
  | nil => exact h
  | cons w ws ih => exact ih (memWrite_wf h w.1.isLt w.2)

theorem memRead_writePending_of_outside (ws : List (Word × Byte)) (m : List Cell) (a : Nat)
    (h : ∀ w ∈ ws, w.1.toNat ≠ a) : memRead (writePending ws m) a = memRead m a := by
  induction ws generalizing m with
  | nil => rfl
  | cons w ws ih =>
    rw [writePending_cons, ih _ fun v hv => h v (List.mem_cons_of_mem _ hv),
      memRead_memWrite_ne _ _ (h w List.mem_cons_self).symm]

theorem physical_append (s : State) (ws vs : List (Word × Byte)) :
    s.physical (ws ++ vs) = s.physical ws ++ s.physical vs := by simp [State.physical]

/-! ## `drain` and `push` -/

/-- What `drain` does: nothing, or the writes of the `k` bytes held longest. -/
theorem drainSink_cases (s : State) (n : Nat) :
    drainSink s n = s ∨ (s.dis = false ∧ drainSink s n =
      { s with
        mem := writePending (s.physical (s.amb.pending.take (min n s.amb.pending.length))) s.mem
        amb :=
          { regs := inBuffer (Config.ambDrain s.amb (min n s.amb.pending.length)) s.amb.regs s.amb.regs.position
            pending := s.amb.pending.drop (min n s.amb.pending.length) }
        promised := s.promised - min n s.amb.pending.length }) := by
  unfold drainSink
  simp only [Bool.or_eq_true, decide_eq_true_eq]
  split
  · exact Or.inl rfl
  · rename_i h
    exact Or.inr ⟨by simpa using fun hd => h (Or.inl hd), rfl⟩

/-- `drain` changes memory and the sink alone. -/
theorem drainSink_eq (s : State) (n : Nat) :
    drainSink s n =
      { s with mem := (drainSink s n).mem, amb := (drainSink s n).amb, promised := (drainSink s n).promised } := by
  rcases drainSink_cases s n with h | ⟨_, h⟩ <;> rw [h]

/-- A change of readiness changes nothing but the sink's `ready`, and nothing while `trTeDisSelfHosted` = 1. -/
theorem sinkAccepts_cases (s : State) (v : Bool) :
    (s.dis = true ∧ sinkAccepts s v = s) ∨
    (s.dis = false ∧ sinkAccepts s v = { s with amb := { s.amb with regs := { s.amb.regs with ready := v } } }) := by
  cases h : s.dis <;> simp [sinkAccepts, h]

theorem sinkAccepts_eq (s : State) (v : Bool) : sinkAccepts s v = { s with amb := (sinkAccepts s v).amb } := by
  rcases sinkAccepts_cases s v with ⟨_, h⟩ | ⟨_, h⟩ <;> rw [h]

theorem drainSink_wf (s : State) (n : Nat) (h : memWf s.mem) : memWf (drainSink s n).mem := by
  rcases drainSink_cases s n with hd | ⟨_, hd⟩ <;> rw [hd]
  · exact h
  · exact writePending_wf _ h

@[simp] theorem drainSink_zero (s : State) : drainSink s 0 = s := by simp [drainSink]

/-- `drain` never moves the buffer, nor the position of the next byte. -/
theorem drainSink_place (s : State) (n : Nat) : ambPlace (drainSink s n).amb.regs = ambPlace s.amb.regs := by
  rcases drainSink_cases s n with hd | ⟨_, hd⟩ <;> rw [hd]; rfl

/-! ## Writes a read of EMPTY = 1 has promised -/

section arrive
variable (s : State)

theorem arrive_eq : arrive s =
    { s with mem := (arrive s).mem, amb := (arrive s).amb, promised := (arrive s).promised } := drainSink_eq s s.promised

@[simp] theorem arrive_cfg : (arrive s).cfg = s.cfg := by rw [arrive_eq]
@[simp] theorem arrive_pc : (arrive s).pc = s.pc := by rw [arrive_eq]
@[simp] theorem arrive_x : (arrive s).x = s.x := by rw [arrive_eq]
@[simp] theorem arrive_enc : (arrive s).enc = s.enc := by rw [arrive_eq]
@[simp] theorem arrive_dis : (arrive s).dis = s.dis := by rw [arrive_eq]
@[simp] theorem arrive_ctl : (arrive s).ctl = s.ctl := by rw [arrive_eq]
@[simp] theorem arrive_env : (arrive s).env = s.env := by rw [arrive_eq]
@[simp] theorem arrive_agenda : (arrive s).agenda = s.agenda := by rw [arrive_eq]
@[simp] theorem arrive_hartInputs : (arrive s).hartInputs = s.hartInputs := by rw [arrive_eq]

theorem arrive_wf (h : memWf s.mem) : memWf (arrive s).mem := drainSink_wf s _ h

theorem arrive_of_none (h : s.promised = 0) : arrive s = s := by simp [arrive, h]

/-- The promised writes are those of the bytes held longest. -/
theorem arrive_mem (hd : s.dis = false) :
    (arrive s).mem = writePending (s.physical (s.amb.pending.take s.promised)) s.mem := by
  unfold arrive drainSink
  simp only [hd, Bool.false_or, decide_eq_true_eq]
  split
  · rename_i h
    rcases Nat.min_eq_zero_iff.mp h with h | h
    · simp [h, State.physical]
    · simp [List.length_eq_zero_iff.mp h, State.physical]
  · simp [List.take_eq_take_min]

theorem arrive_pending (hd : s.dis = false) : (arrive s).amb.pending = s.amb.pending.drop s.promised := by
  unfold arrive drainSink
  simp only [hd, Bool.false_or, decide_eq_true_eq]
  split
  · rename_i h
    rcases Nat.min_eq_zero_iff.mp h with h | h
    · simp [h]
    · simp [List.length_eq_zero_iff.mp h]
  · simp only
    rcases Nat.le_total s.promised s.amb.pending.length with h | h
    · rw [Nat.min_eq_left h]
    · rw [Nat.min_eq_right h, List.drop_eq_nil_of_le h, List.drop_length]

/-- When all pending writes are promised, all arrive. -/
theorem arrive_all (hd : s.dis = false) (h : s.promised = s.amb.pending.length) :
    (arrive s).amb.pending = [] ∧ (arrive s).mem = writePending (s.physical s.amb.pending) s.mem := by
  unfold arrive drainSink
  rw [h]
  cases hp : s.amb.pending with
  | nil => simp [hp, State.physical]
  | cons w ws => simp [hd]

/-- A fault of a trace write: nothing while `trTeDisSelfHosted` = 1, else the promised writes and a free sink. -/
theorem drainFaults_cases :
    (s.dis = true ∧ drainFaults s = s) ∨
    (s.dis = false ∧ drainFaults s =
      { s with mem := (arrive s).mem, amb := ambFault (arrive s).amb, promised := 0 }) := by
  cases h : s.dis <;> simp [drainFaults, h]

/-- A fault of a trace write changes memory and the sink alone. -/
theorem drainFaults_eq : drainFaults s =
    { s with mem := (drainFaults s).mem, amb := (drainFaults s).amb, promised := (drainFaults s).promised } := by
  rcases drainFaults_cases s with ⟨_, h⟩ | ⟨_, h⟩ <;> rw [h]

theorem drainFaults_wf (h : memWf s.mem) : memWf (drainFaults s).mem := by
  rcases drainFaults_cases s with ⟨_, hd⟩ | ⟨_, hd⟩ <;> rw [hd]
  · exact h
  · exact arrive_wf s h

end arrive

/-! ## `push`, a fault, and what is under way -/

/-- A fault brings no write, and does not change the order of those it leaves. -/
theorem faultSurvivors_sublist (a : Amb) : (faultSurvivors a).Sublist a.pending := by
  simpa [faultSurvivors] using
    (List.filter_sublist (p := fun w => Config.ambFaultKeeps a w.2) (l := a.pending.zipIdx)).map (·.1)

/-- A fault leaves the place of the next byte. -/
@[simp] theorem ambFault_place (a : Amb) : ambPlace (ambFault a).regs = ambPlace a.regs := rfl


theorem ambPushByte_place {a : Amb} {addr : Word} (h : ambPlace a.regs = some addr) (b : Byte) :
    ambPushByte a b =
      { regs := inBuffer (Config.ambPush a b) a.regs (a.regs.position + 1), pending := a.pending ++ [(addr, b)] } := by
  simp [ambPushByte, h]

/-- A byte that the sink takes comes after those it holds. -/
theorem ambPushByte_prefix (l : List Byte) (a : Amb) : a.pending <+: (l.foldl ambPushByte a).pending := by
  induction l generalizing a with
  | nil => exact List.prefix_rfl
  | cons b l ih =>
    refine List.IsPrefix.trans ?_ (ih _)
    unfold ambPushByte; split
    · exact List.prefix_append _ _
    · exact List.prefix_rfl

/-- Nothing is under way when neither the encoder nor the sink holds a byte. -/
theorem inFlight_of_nothing {s : State} (ho : s.enc.owed = []) (hb : s.enc.buffer = []) (hp : s.amb.pending = []) :
    s.inFlight = [] := by
  simp [State.inFlight, heldBytes, ho, hb, hp, State.physical]

theorem loadByte_of_outside {s : State} {a : Nat} (h : ∀ w ∈ s.inFlight, w.1.toNat ≠ a) (k : Nat) :
    loadByte s k a = memRead s.mem a := by
  unfold loadByte
  rw [if_neg]
  simpa using h

end Sys2Proof.Machine
end

