-- ==== Sys2Proof/Laws/Step.lean ====
section
/-! SUPPORT. What a step can be: a turn of the hart, with an instruction of the table, a base instruction or a trap, or
another agent's turn. -/

namespace Sys2Proof.Machine

/-! ## What the hart does -/

/-- A base instruction's effect leaves the trace side, the environment registers and the inputs alone. -/
theorem hostEffect_keeps (s : State) (b : Bool) (op : HostOp) :
    let t := (hostEffect s b op).1
    t.cfg = s.cfg ∧ t.ctl = s.ctl ∧ t.vsctl = s.vsctl ∧ t.env = s.env ∧ t.dis = s.dis ∧ t.enc = s.enc ∧ t.amb = s.amb ∧
        t.vmid = s.vmid ∧ t.agenda = s.agenda ∧ t.debugMode = s.debugMode := by
  cases op <;> simp only [hostEffect]
  · simp
  · refine ⟨?_, ?_, ?_, ?_, ?_, ?_, ?_, ?_, ?_, ?_⟩ <;> simp only [setPc_cfg, setPc_ctl, setPc_vsctl, setPc_env,
      setPc_dis, setPc_enc, setPc_amb, setPc_vmid, setPc_agenda, setPc_debugMode, writeReg_cfg, writeReg_ctl,
      writeReg_vsctl, writeReg_env, writeReg_dis, writeReg_enc, writeReg_amb, writeReg_vmid, writeReg_agenda,
      writeReg_debugMode]
  · exact ⟨rfl, rfl, rfl, rfl, rfl, rfl, rfl, rfl, rfl, rfl⟩
  · simp
  · split
    · exact ⟨rfl, rfl, rfl, rfl, rfl, rfl, rfl, rfl, rfl, rfl⟩
    · simp [raiseExc]
  · split
    · split <;> simp [raiseExc]
    · unfold returnFromTrap; split <;> exact ⟨rfl, rfl, rfl, rfl, rfl, rfl, rfl, rfl, rfl, rfl⟩

theorem hostRetire_eq (s : State) (b : Bool) (op : HostOp) : ∃ (item : Item) (n : Nat),
    hostRetire s b op = observe s (hostEffect s.nextInput b op).1 (whenGenerating s item) n := by
  unfold hostRetire
  dsimp only
  split <;> rename_i hx <;> exact ⟨_, _, by rw [hx]⟩

theorem hostTrap_eq (s : State) (i : Bool) (c : BitVec 6) (v : Word) : ∃ item : Item,
    hostTrap s i c v = observe s (takeTrap s.nextInput i c v) (whenGenerating s item) 0 := ⟨_, rfl⟩

/-- Having read EMPTY = 1 changes nothing of the machine: what was promised is the model's own. -/
theorem afterRead_eq (i : Instr) (s t : State) :
    afterRead i s t = { t with promised := (afterRead i s t).promised } := by
  unfold afterRead
  split <;> rfl

theorem afterRead_of_raise {i : Instr} {s : State} {e : Exc} (h : instrRaises i s = some e) (t : State) :
    afterRead i s t = t := by
  simp [afterRead, readsEmpty, h]

/-- An instruction of the table is observed as it retires or raises. -/
theorem observeInstr_eq (i : Instr) (s t : State) : ∃ item n, observeInstr i s t =
    observe s (afterRead i s t) (whenGenerating s item) n := by
  unfold observeInstr
  cases h : instrRaises i s with
  | none => exact ⟨_, _, rfl⟩
  | some e => exact ⟨_, _, by rw [afterRead_of_raise h]⟩

/-! ## A turn -/

/-- What a turn is: the hart's, or an entry of the agenda. -/
theorem turn_cases {s t : State} (h : turn s = .next t) :
    (∃ u, (u = s ∧ s.agenda = [] ∨ ∃ rest, s.agenda = .hart :: rest ∧ u = { s with agenda := rest }) ∧ hartTurn u =
        .next t) ∨
    (∃ a rest, s.agenda = a :: rest ∧ a ≠ .hart ∧ t = act { s with agenda := rest } a) := by
  unfold turn at h
  split at h
  · rename_i ha; exact Or.inl ⟨s, Or.inl ⟨rfl, ha⟩, h⟩
  · rename_i ha; exact Or.inl ⟨_, Or.inr ⟨_, ha, rfl⟩, h⟩
  · rename_i a rest hne ha
    cases h
    exact Or.inr ⟨a, rest, ha, fun e => hne e, rfl⟩

theorem tableTurn_cases {s t : State} (h : tableTurn s = .next t) :
    s.pc.getLsbD 0 = false ∧ ∃ i s', exec i s.nextInput = .next s' ∧ t = observeInstr i s s' := by
  unfold tableTurn at h
  split at h
  · cases h
  · rename_i hp
    split at h
    · cases h
    · rename_i i _
      obtain ⟨f, rd, hx⟩ := exec_eq_csrAccess i s.nextInput
      simp only [hx] at h
      cases h
      exact ⟨by simpa using hp, i, _, hx, rfl⟩

/-- A hart that is not stalled: no item waits. -/
theorem owed_of_not_hartHeld {s : State} (h : s.hartHeld = false) : s.enc.owed = [] := by
  simp only [State.hartHeld, Bool.or_eq_false_iff, Bool.not_eq_false', List.isEmpty_iff] at h
  exact h.1

theorem hartHeld_of_nothing {s : State} (ho : s.enc.owed = []) (hh : s.enc.held = []) : s.hartHeld = false := by
  simp [State.hartHeld, ho, hh]

/-- What the hart does: an instruction of the table, a base instruction or a trap is observed. -/
theorem hartActs_cases {s t : State} (h : hartActs s = .next t) :
    (s.pc.getLsbD 0 = false ∧ ∃ i s', exec i s.nextInput = .next s' ∧ t = observeInstr i s s') ∨
    (∃ b op, t = hostRetire s b op) ∨ ∃ i c v, t = hostTrap s i c v := by
  unfold hartActs at h
  split at h
  · exact Or.inl (tableTurn_cases h)
  · exact Or.inl (tableTurn_cases h)
  · cases h; exact Or.inr (Or.inl ⟨_, _, rfl⟩)
  · cases h; exact Or.inr (Or.inr ⟨_, _, _, rfl⟩)

/-- What the hart's turn is: it stalls, or, what was promised having arrived, the hart acts. -/
theorem hartTurn_cases {s t : State} (h : hartTurn s = .next t) :
    t = stalled s ∨ (s.enc.owed = [] ∧ hartActs (arrive s) = .next t) := by
  unfold hartTurn at h
  split at h
  · cases h; exact Or.inl rfl
  · rename_i hh
    exact Or.inr ⟨owed_of_not_hartHeld (by simpa using hh), h⟩

/-- Whatever the hart does, its effect is observed. -/
theorem hartActs_observed {s t : State} (h : hartActs s = .next t) : ∃ s' own n, t = observe s s' own n := by
  rcases hartActs_cases h with ⟨_, i, s', _, rfl⟩ | ⟨b, op, rfl⟩ | ⟨i, c, v, rfl⟩
  · obtain ⟨item, n, he⟩ := observeInstr_eq i s s'; exact ⟨_, _, _, he⟩
  · obtain ⟨item, n, he⟩ := hostRetire_eq s b op; exact ⟨_, _, _, he⟩
  · exact ⟨_, _, _, rfl⟩

end Sys2Proof.Machine
end

