-- ==== Sys2Proof/Tests/Slice0.lean ====
section
/-! SUPPORT. Tests: the well-formedness smoke test, words written out from the encoding tables, vectors of
95_test_vectors.md (their ids T… beside them), and for every obligation with hypotheses a witness that meets them. -/

namespace Sys2Proof.Tests

open Sys2Proof Sys2Proof.Machine

/-! ## Well-formedness: an ill-formed term of each constructor is refused -/

theorem test_wellFormed_refuses_csrrw : ¬ (Instr.csrrw 1 4096 2).WellFormed := by decide
theorem test_wellFormed_refuses_csrrs : ¬ (Instr.csrrs 1 4096 2).WellFormed := by decide
theorem test_wellFormed_refuses_csrrc : ¬ (Instr.csrrc 1 4096 2).WellFormed := by decide
theorem test_wellFormed_refuses_csrrwi : ¬ (Instr.csrrwi 1 4096 2).WellFormed := by decide
theorem test_wellFormed_refuses_csrrsi : ¬ (Instr.csrrsi 1 4096 2).WellFormed := by decide
theorem test_wellFormed_refuses_csrrci : ¬ (Instr.csrrci 1 4096 2).WellFormed := by decide

/-! ## Decoding: T1 to T16, and words that are no CSR access (R101, R103) -/

theorem test_decode_csrrw :
    decodeWord 0x7C0312F3#32 = .ok (.csrrw 5 0x7C0 6) ∧ decodeWord 0x5C251073#32 = .ok (.csrrw 0 0x5C2 10) ∧
    decodeWord 0x5C159073#32 = .ok (.csrrw 0 0x5C1 11) ∧ decodeWord 0x6C061073#32 = .ok (.csrrw 0 0x6C0 12) ∧
    decodeWord 0x5A851073#32 = .ok (.csrrw 0 0x5A8 10) ∧ decodeWord 0x6A859073#32 = .ok (.csrrw 0 0x6A8 11) ∧
    decodeWord 0x7C0F9FF3#32 = .ok (.csrrw 31 0x7C0 31) := by decide

theorem test_decode_csrrs :
    decodeWord 0x7C0022F3#32 = .ok (.csrrs 5 0x7C0 0) ∧ decodeWord 0x7C03A073#32 = .ok (.csrrs 0 0x7C0 7) ∧
    decodeWord 0x6C002573#32 = .ok (.csrrs 10 0x6C0 0) := by decide

theorem test_decode_csrrc : decodeWord 0x5C03B2F3#32 = .ok (.csrrc 5 0x5C0 7) := by decide
theorem test_decode_csrrwi : decodeWord 0x7C0052F3#32 = .ok (.csrrwi 5 0x7C0 0) := by decide
theorem test_decode_csrrsi : decodeWord 0x5C02E073#32 = .ok (.csrrsi 0 0x5C0 5) := by decide

theorem test_decode_csrrci :
    decodeWord 0x7C00F073#32 = .ok (.csrrci 0 0x7C0 1) ∧ decodeWord 0x5C00F073#32 = .ok (.csrrci 0 0x5C0 1) ∧
    decodeWord 0x5C1FFFF3#32 = .ok (.csrrci 31 0x5C1 31) := by decide

/-- The six words of the table's rows, laid out little-endian and read back. -/
theorem test_decodeTableWord :
    decodeTableWord 32 0x7C0312F3 = some (.csrrw 5 0x7C0 6) ∧ decodeTableWord 32 0x2073 = some (.csrrs 0 0 0) ∧
    decodeTableWord 32 0x3073 = some (.csrrc 0 0 0) ∧ decodeTableWord 32 0x5073 = some (.csrrwi 0 0 0) ∧
    decodeTableWord 32 0x6073 = some (.csrrsi 0 0 0) ∧ decodeTableWord 32 0x7073 = some (.csrrci 0 0 0) ∧
    decodeTableWord 32 0x0073 = none := by decide

/-- Bytes fetched little-endian (R101): the bytes of T1 in rising address order, and too few bytes. -/
theorem test_decodeBytes :
    decodeBytes [0xF3#8, 0x12#8, 0x03#8, 0x7C#8, 0xAA#8] = .ok (.csrrw 5 0x7C0 6, [0xAA#8]) ∧
    decodeBytes [0xF3#8, 0x12#8, 0x03#8] = .error .truncated := by decide

/-- Reserved and foreign words are rejected by name: `funct3` 000 and 100, opcode ADDI, a 16-bit word. -/
theorem test_decode_rejects :
    decodeWord 0x00000073#32 = .error .notCsrAccess ∧ decodeWord 0x7C034073#32 = .error .notCsrAccess ∧
    decodeWord 0x00F00293#32 = .error .notSystem ∧ decodeWord 0x00000001#32 = .error .notThirtyTwoBits := by decide

/-! ## Small states -/

/-- A state of "full" in a given mode with given state-enable bits. -/
def inMode (p : Priv) (v mS hS m57 h57 : Bool) : State :=
  { State.reset with
    priv := p, virt := v
    env := { State.reset.env with mstrc := mS, hstrc := hS, mctx := m57, hctx := h57 } }

/-- M-mode with `mstrcctl` stored as the word says. -/
def withCtl (w : Word) : State := { State.reset with ctl := mstrcctlFields Config.full w }

/-- The same with EMPTY = 0: one byte in the internal buffers. -/
def withCtlBusy (w : Word) : State :=
  { withCtl w with enc := { State.reset.enc with buffer := [0], active := (withCtl w).ctl.en } }

/-- A field of the next state. -/
def after {α : Type} (i : Instr) (s : State) (f : State → α) : Option α :=
  match exec i s with
  | .next t => some (f t)
  | _ => none

/-! ## The six instructions -/

/-- T35: with `rd = rs1` the write uses the old register value. -/
theorem test_csrrw_same_register :
    after (.csrrw 5 0x7C0 5) ((withCtl 0x105).writeReg 5 0xF000000000088105)
      (fun t => (t.readReg 5, csrRead t .mstrcctl)) = some (0x107, 0xF000000000088107) := by decide

/-- T41: `mstrcctl` from HS-mode raises an illegal-instruction exception: mepc, mcause, the vector. -/
theorem test_csrrw_raises :
    after (.csrrw 5 0x7C0 6)
      { inMode .supervisor false true true true true with
        pc := 0x80, trap := { TrapRegs.reset with mtvec := 0x1001 } }
      (fun t => (t.pc, t.priv, t.trap.mepc, t.trap.mcause)) = some (0x1000, .machine, 0x80, 2) := by decide

/-- T28: every `WPRI` bit set in the operand changes nothing. -/
theorem test_csrrs_wpri :
    after (.csrrs 0 0x7C0 7) ((withCtlBusy 0xF000000000088105).writeReg 7 0x0FFFFF00FF8662F8)
      (fun t => csrRead t .mstrcctl) = some 0xF000000000088105 := by decide

/-- T34: `rs1 = x0` is a pure read. -/
theorem test_csrrs_reads :
    after (.csrrs 5 0x7C0 0) (withCtlBusy 0xF000000000088105) (fun t => (t.readReg 5, csrRead t .mstrcctl)) =
      some (0xF000000000088105, 0xF000000000088105) := by decide

/-- T29: STOF cleared by software, in HS-mode through `sstrcctl`. -/
theorem test_csrrc_clears_stof :
    after (.csrrc 5 0x5C0 7)
      ({ withCtlBusy 0x7000000000000805 with
          priv := .supervisor, env := (inMode .supervisor false true true true true).env }.writeReg 7 0x800)
      (fun t => (t.readReg 5, csrRead t .sstrcctl)) = some (0x7000000000000805, 0x7000000000000005) := by decide

/-- T30: the immediate form writes the whole register. -/
theorem test_csrrwi_writes_one :
    after (.csrrwi 5 0x7C0 1) (withCtlBusy 0xF00000FF00099D05) (fun t => (t.readReg 5, csrRead t .mstrcctl)) =
      some (0xF00000FF00099D05, 1) := by decide

/-- T31: bits 1, 3 and 4 of the immediate reach no field. -/
theorem test_csrrsi_low_bits :
    after (.csrrsi 5 0x7C0 31) (withCtl 0) (fun t => (t.readReg 5, csrRead t .mstrcctl)) = some (2, 7) := by decide

/-- T32. -/
theorem test_csrrci_low_bits :
    after (.csrrci 5 0x7C0 31) (withCtlBusy 0xF000000000088105) (fun t => (t.readReg 5, csrRead t .mstrcctl)) =
      some (0xF000000000088105, 0xF000000000088100) := by decide

/-! ## Reads and writes of the trace CSRs -/

/-- T20, T21, T22: all ones written to `mstrcctl`, on "full" and on "mini" with L = 0 and L = 1 (EMPTY = 1). -/
theorem test_mstrcctl_all_ones :
    csrRead (csrWrite State.reset .mstrcctl (BitVec.allOnes 64)) .mstrcctl = 0xF00000FF00799D07 ∧
    csrRead (csrWrite State.reset .mstrcctl (BitVec.allOnes 64)) .sstrcctl = 0x700000FF00799D07 ∧
    csrRead (csrWrite { State.reset with cfg := Config.mini 0 } .mstrcctl (BitVec.allOnes 64)) .mstrcctl =
      0xF000000000780907 ∧
    csrRead (csrWrite { State.reset with cfg := Config.mini 1 } .mstrcctl (BitVec.allOnes 64)) .mstrcctl =
      0xF000000000788907 := by decide

/-- T23, T24: a write through `sstrcctl` keeps M. -/
theorem test_sstrcctl_keeps_m :
    csrRead (csrWrite (withCtlBusy 0x8000000000000001) .sstrcctl (BitVec.allOnes 64)) .mstrcctl = 0xF00000FF00799D05 ∧
    csrRead (csrWrite (withCtlBusy 0x0000000000000001) .sstrcctl (BitVec.allOnes 64)) .mstrcctl =
      0x700000FF00799D05 := by decide

/-- T25, T26: `vsstrcctl` has its own S and U and shares the rest. -/
theorem test_vsstrcctl_view :
    csrRead (withCtlBusy 0xE000000000000105) .vsstrcctl = 0x105 ∧
    (let t := csrWrite (withCtlBusy 0xE000000000000105) .vsstrcctl 0x4000000000088905
     (t.vsctl.s, t.vsctl.u, csrRead t .mstrcctl, csrRead t .vsstrcctl, csrRead t .sstrcctl) =
       (true, false, 0xE000000000088905, 0x4000000000088905, 0x6000000000088905)) := by decide

/-- T33: SMOD = 2 is legalised to 1 where `SMOD_IMPL` = {1, 3} and `smod_legalize(2)` = 1; SMOD = 3 is stored. -/
theorem test_smod_legalised :
    let s := { State.reset with cfg := { Config.full with smodImpl2 := false, smodLegalize2 := 1 } }
    (csrWrite s .mstrcctl 0x10000).ctl.smod = 1 ∧ (csrWrite s .mstrcctl 0x18000).ctl.smod = 3 := by decide

/-- T36, T37: EMPTY is not written, STOF is. -/
theorem test_empty_and_stof :
    csrRead (csrWrite (withCtlBusy 0) .mstrcctl 2) .mstrcctl = 0 ∧
    csrRead (csrWrite (withCtlBusy 0) .mstrcctl 0x800) .mstrcctl = 0x800 := by decide

/-- T80, T81, T82, T84: the enable bits that read 0, and writes that are ignored. -/
theorem test_enable_bits :
    (csrRead (csrWrite (inMode .machine false false false false false) .henvcfg (bitAt 58 true)) .henvcfg).getLsbD 58 =
        false ∧
    (csrRead (csrWrite (inMode .machine false false false false false) .hstateen0 (bitAt 55 true)) .hstateen0).getLsbD 55 = false ∧
    (csrRead { inMode .machine false false true false false with env := { State.reset.env with strcv := true } }
      .henvcfg).getLsbD 58 = false ∧
    (csrRead (csrWrite { State.reset with dis := true } .menvcfg (bitAt 58 true)) .menvcfg).getLsbD 58 = false ∧
    (csrRead (csrWrite { State.reset with dis := true } .mstateen0 (bitAt 55 true)) .mstateen0).getLsbD 55 = false := by
  simp (disch := decide) only [csrRead, csrWrite, writeHenvcfg, writeHstateen0, writeMenvcfg, writeMstateen0,
      getLsbD_putBit]
  decide

/-- Section 2.8: `HCONTEXT_BITS` = 22. -/
theorem test_hcontext_width :
    csrRead (csrWrite { State.reset with cfg := { Config.full with hcontextBits :=
        22 } } .hcontext 0xFFFFFFFF) .hcontext =
      0x003FFFFF := by decide

/-! ## Access control -/

/-- T40 to T51: `mstrcctl` and `sstrcctl`. -/
theorem test_access_sstrcctl :
    checkAccess (inMode .machine false false false false false) 0x7C0 true = none ∧
    checkAccess (inMode .supervisor false true true true true) 0x7C0 true = some .illegalInstruction ∧
    checkAccess (inMode .supervisor true true true true true) 0x7C0 true = some .illegalInstruction ∧
    checkAccess (inMode .machine false false false false false) 0x5C0 true = none ∧
    checkAccess (inMode .supervisor false false true true true) 0x5C0 true = some .illegalInstruction ∧
    checkAccess (inMode .supervisor false true false true true) 0x5C0 true = none ∧
    checkAccess (inMode .user false true true true true) 0x5C0 true = some .illegalInstruction ∧
    checkAccess (inMode .supervisor true true true true true) 0x5C0 true = none ∧
    checkAccess (inMode .supervisor true true false true true) 0x5C0 true = some .virtualInstruction ∧
    checkAccess (inMode .supervisor true false true true true) 0x5C0 true = some .illegalInstruction ∧
    checkAccess (inMode .user true true true true true) 0x5C0 true = some .virtualInstruction ∧
    checkAccess (inMode .user true false true true true) 0x5C0 true = some .illegalInstruction := by decide

/-- T52 to T61: the sink's registers, `vsstrcctl`, `trTeDisSelfHosted`, no Smstateen. -/
theorem test_access_others :
    checkAccess (inMode .supervisor true true true true true) 0x5C2 true = none ∧
    checkAccess (inMode .supervisor true true false true true) 0x5C1 true = some .virtualInstruction ∧
    checkAccess (inMode .machine false false false false false) 0x6C0 true = none ∧
    checkAccess (inMode .supervisor false true false true true) 0x6C0 true = none ∧
    checkAccess (inMode .supervisor false false true true true) 0x6C0 true = some .illegalInstruction ∧
    checkAccess (inMode .supervisor true true true true true) 0x6C0 true = some .virtualInstruction ∧
    checkAccess (inMode .supervisor true false true true true) 0x6C0 true = some .illegalInstruction ∧
    checkAccess { State.reset with cfg := { Config.full with hasH := false } } 0x6C0 true = some .illegalInstruction ∧
    checkAccess { State.reset with dis := true } 0x7C0 true = some .illegalInstruction ∧
    checkAccess { inMode .supervisor false false false false false with
      cfg := { Config.full with hasSmstateen := false } } 0x5C0 true = none := by decide

/-- T65 to T79: the context CSRs. -/
theorem test_access_context :
    checkAccess (inMode .supervisor false false true false true) 0x5A8 true = some .illegalInstruction ∧
    checkAccess (inMode .supervisor false false true false true) 0x6A8 true = some .illegalInstruction ∧
    checkAccess (inMode .supervisor false true false false false) 0x5A8 true = none ∧
    checkAccess (inMode .supervisor false false false true false) 0x6A8 true = none ∧
    checkAccess (inMode .supervisor true false true false true) 0x5A8 true = some .illegalInstruction ∧
    checkAccess (inMode .supervisor true true false true false) 0x5A8 true = some .virtualInstruction ∧
    checkAccess (inMode .supervisor true true false true true) 0x5A8 true = none ∧
    checkAccess (inMode .supervisor true true true false true) 0x5A8 true = none ∧
    checkAccess (inMode .supervisor true true false false true) 0x5A8 true = some .virtualInstruction ∧
    checkAccess (inMode .supervisor true false true true false) 0x5A8 true = some .virtualInstruction ∧
    checkAccess (inMode .supervisor true false true true true) 0x5A8 true = none ∧
    checkAccess (inMode .supervisor true true true true true) 0x6A8 true = some .virtualInstruction ∧
    checkAccess (inMode .user true true true true true) 0x5A8 true = some .virtualInstruction ∧
    checkAccess (inMode .user false true true true true) 0x6A8 true = some .illegalInstruction ∧
    checkAccess (inMode .machine false false false false false) 0x5A8 true = none := by decide

/-! ## The trace encoder -/

/-- EN, IT, the three mode bits of `mstrcctl`, the two of `vsstrcctl`, and the mode. -/
def tracing (en it m s u vs vu : Bool) (p : Priv) (v : Bool) : Bool :=
  State.generating { State.reset with
    priv := p, virt := v, vsctl := ⟨vs, vu⟩
    ctl := { State.reset.ctl with en := en, it := it, m := m, s := s, u := u } }

/-- T90 to T99. -/
theorem test_generating :
    tracing true true true false false false false .machine false = true ∧
    tracing true true true false false false false .supervisor false = false ∧
    tracing true true false true true false false .supervisor true = false ∧
    tracing true true false false false true false .supervisor true = true ∧
    tracing true true false false false true false .user true = false ∧
    tracing true true false false false false true .user true = true ∧
    tracing true false true true true true true .machine false = false ∧
    tracing false true true true true true true .machine false = false ∧
    State.generating { withCtl 0xE000000000000005 with dis := true } = false ∧
    State.generating { withCtl 0xE000000000000005 with debugMode := true } = false := by decide

/-- X4 and the vector below T99: M = 1, S = 0, U = 1, VS = 1, VU = 0. -/
theorem test_privilege_vector :
    State.privilegeChoice { withCtl 0xA000000000000000 with vsctl := ⟨true, false⟩ } = 0x29#8 := by decide

/-- T102 to T105: trigger actions. -/
theorem test_trigger_actions :
    (act (withCtl 0x401) (.trigger .traceOn)).ctl.it = true ∧ (act (withCtl 0x405) (.trigger .traceOff)).ctl.it =
        false ∧
    (act (withCtl 0x1) (.trigger .traceOn)).ctl.it = false ∧ (act (withCtl 0x400) (.trigger .traceOn)).ctl.it = true :=
        by
  decide

/-- X1, X2, T112 to T114: the constants of the encapsulation, and the sync thresholds. -/
theorem test_sync_constants :
    encapTimestampWidth = 2 ∧ encapSrcIdWidth = 0 ∧ encapSyncLength = 33 ∧ syncThreshold 0 = 16 ∧
    syncThreshold 15 = 524288 ∧ advanceCount { State.reset.ctl with smod := 3 } 14 2 = 16 := by decide

/-- A state with a given `time`, `htimedelta` and (STRCS, STRCV), mSTRC = 1. -/
def timed (time delta : Word) (strcs strcv : Bool) : State :=
  { State.reset with
    time := time
    env := { State.reset.env with mstrc := true, strcs := strcs, strcv := strcv, htimedelta := delta } }

/-- T130 to T135. -/
theorem test_timestamp :
    (timed 0x123456789A 0x1000 false false).timestampValue = 0x123456789A ∧
    (timed 0x123456789A 0x1000 true false).timestampValue = 0x123456789A ∧
    (timed 0x123456789A 0x1000 true true).timestampValue = 0x123456889A ∧
    (timed 0x123456789A 0x1000 false true).timestampValue = 0x123456789A ∧
    (timed 0xFFFFFFFFFFFFFFFF 1 true true).timestampValue = 0 ∧
    encapTime 0x123456889A = 0x889A ∧ format3Time 40 0x123456889A = 0x123456 := by decide

/-- T140, T142, T143, T144: the reported context, V and VMID of an instruction in VS-mode. -/
theorem test_context :
    let s : State := { timed 0 0 false false with
      priv := .supervisor, virt := true, vmid := 5, ctl := { State.reset.ctl with cen := true }
      env := { (timed 0 0 false false).env with scontext := 0x1234, hcontext := 0x002ABCDE } }
    let g : State := { s with env := { s.env with strcs := true, strcv := true } }
    let h : State := { g with cfg := { Config.full with guestCtxHidesHcontext := true } }
    ((mkRecord s .sync).context, (mkRecord s .sync).virt) = (some ⟨0x002ABCDE00001234, 5⟩, true) ∧
    ((mkRecord g .sync).context, (mkRecord g .sync).virt) = (some ⟨0x002ABCDE00001234, 0⟩, false) ∧
    (mkRecord h .sync).context = some ⟨0x0000000000001234, 0⟩ ∧
    (mkRecord { s with ctl := State.reset.ctl } .sync).context = none := by decide

/-- P1, its last but one step: `csrrw x0, mstrcctl, t0` starts the session; the instruction itself is not traced. -/
theorem test_program_p1_enables :
    (match exec (.csrrw 0 0x7C0 5) (State.reset.writeReg 5 0xF000000000088105) with
     | .next t => (t.ctl.en, t.ctl.smod, t.ctl.smax, State.generating (State.reset.writeReg 5 0), t.generating)
     | _ => default) = (true, 1, 1, false, true) := by decide

/-! ## Memory and the sink -/

/-- R86: a store and a load of the value 0x0102, little-endian after reset, big-endian with MBE set. -/
theorem test_byte_order :
    let big : State := { State.reset with trap := { TrapRegs.reset with
      mstatus := { TrapRegs.reset.mstatus with rest := bitAt 37 true } } }
    let value : List Byte := [2, 1, 0, 0, 0, 0, 0, 0]
    (memRead (storeBytes State.reset 0x100 value).mem 0x100, memRead (storeBytes big 0x100 value).mem 0x107) = (2, 2) ∧
    loadWord (storeBytes State.reset 0x100 value) 0x100 = 0x0102 ∧
    loadWord (storeBytes big 0x100 value) 0x100 = 0x0102 := by decide

/-- T163: with EMPTY = 0 the byte that the encoder still holds is under way. -/
theorem test_buffered_byte_is_in_flight :
    (withCtlBusy 0).empty = false ∧ (withCtlBusy 0).inFlight.length = 1 ∧ (withCtl 0).inFlight = [] := by decide

/-- R83: a buffer of 8 KiB begins at a multiple of 8 KiB. -/
theorem test_buffer_alignment :
    let r : AmbRegs := { State.reset.amb.regs with extraSize := 1, index := 3 }
    ambSize r = 8192 ∧ ambBase r = 0x6000 := by decide

/-! ## Witnesses: for every obligation with hypotheses, a state and operands that meet them, each clause apart

Where the conclusion of a hypothesis is an opaque free value, existence is shown by a lemma. -/

/-- M-mode, "full", the instruction of T1 stored at the pc. -/
def placed : State := State.reset.withFetchWord 32 0x7C0312F3

/-- All of the invariant for a concrete state is decided field by field. -/
theorem witness_inv_placed : Inv placed :=
  ⟨by decide, by decide, by decide, by decide, by decide, by decide, by decide, by decide, by decide⟩

theorem witness_DecodeOfEncode : (Instr.csrrci 31 4095 31).WellFormed := by decide
theorem witness_EncodeOfDecode : decodeWord 0xFFFFFFF3#32 = .ok (.csrrci 31 4095 31) := by decide

theorem witness_EncodingLayout :
    4095 < 4096 ∧ 0x73#32 &&& 0x707F#32 = 0x0073#32 ∧ 0xFFF04073#32 &&& 0x707F#32 = 0x4073#32 := by decide

theorem witness_StepRunsTheDecodedInstruction :
    placed.agenda = [] ∧ arrive placed = placed ∧ placed.hartInputs = [] ∧ placed.hartHeld = false ∧ placed.pc.getLsbD 0 = false ∧
    { placed with hartInputs := [.table, .retire true .mret] }.hartInputs = .table :: [.retire true .mret] ∧
    decodeWord (fetchWord placed.mem placed.pc) = .ok (.csrrw 5 0x7C0 6) ∧
    { placed with agenda := [.hart, .handOver] }.agenda = .hart :: [.handOver] := by decide

/-- An item waits for space, and an interrupt is the hart's next input. -/
def waiting : State :=
  { State.reset with
    enc := { State.reset.enc with owed := [⟨mkRecord State.reset .sync, [7]⟩] }
    hartInputs := [.trap true 7 0] }

/-- U10: an interrupt does not overtake a stall; it stays the next input. -/
theorem test_stall_keeps_input :
    (match step waiting with
     | .next t => (t.hartInputs, t.priv, t.trap.mcause, t.ctl.stof)
     | _ => default) = ([.trap true 7 0], .machine, 0, true) := by decide

/-- U10, T122: the item of a stalled instruction is longer than what is left of the buffers; neither Debug Mode nor a
trigger that ends tracing lets the instruction retire untraced. -/
def stalledByInstruction : State :=
  let s := withCtl 0x8000000000001405
  { s with
    cfg := { Config.full with bufCap := 2 }
    enc := { s.enc with buffer := [0], produced := 1, active := true, held := [1, 2] } }

theorem test_stall_is_not_lifted :
    stalledByInstruction.hartHeld = true ∧ (act stalledByInstruction (.debugMode true)).hartHeld = true ∧
    (act stalledByInstruction (.trigger .traceOff)).generating = false ∧
    (act stalledByInstruction (.trigger .traceOff)).hartHeld = true := by decide

theorem witness_HartTurnStops :
    (waiting.agenda = [] ∧ waiting.hartHeld = true) ∧ stalledByInstruction.hartHeld = true ∧
    ({ State.reset with pc := 1 }.agenda = [] ∧ { State.reset with pc := 1 }.hartHeld = false ∧
      ({ State.reset with pc := 1 } : State).hartInputs = [] ∧
      ({ State.reset with pc := 1 } : State).pc.getLsbD 0 = true) ∧
    (State.reset.hartHeld = false ∧ State.reset.pc.getLsbD 0 = false ∧
      decodeWord (fetchWord (arrive State.reset).mem State.reset.pc) = .error .notThirtyTwoBits) := by decide

theorem witness_PlacedInstructionRuns :
    (Instr.csrrw 31 4095 31).WellFormed ∧ memWf State.reset.mem ∧
    ({ State.reset with pc := 0xFFFFFFFFFFFFFFFE } : State).pc.getLsbD 0 = false := by decide

theorem witness_StepKeepsInv : ∃ t, Inv placed ∧ step placed = .next t := ⟨_, witness_inv_placed, rfl⟩

theorem witness_ResetMeetsInv :
    Legal (Config.mini 1) ∧ CtlLegal (Config.mini 1) { ResetValues.zero.ctl with en := true, smod := 1, smax := 15 } ∧
    (0xFFFFFFFF#32).toNat < 2 ^ (Config.mini 1).scontextBits ∧
        (0xFFFFFFFF#32).toNat < 2 ^ (Config.mini 1).hcontextBits := by
  decide

theorem witness_ResetReachesEveryStrcCsr :
    CsrNumbersLegal Config.full ∧ ResetValues.zero.dis = false ∧ Config.full.hasH = true ∧
    0x5C2 ∈ strcNumbers Config.full := by decide

theorem witness_CsrrwSwaps :
    checkAccess (inMode .user false true true true true) 0x5C0 true = some .illegalInstruction ∧
    checkAccess State.reset 0x5C0 true = none := by decide

theorem witness_CsrrsSetsBits :
    checkAccess State.reset 0xC00 (decide ((5 : Reg) ≠ 0)) = some .illegalInstruction ∧
    checkAccess State.reset 0xC00 (decide ((0 : Reg) ≠ 0)) = none ∧
    checkAccess State.reset 0x7C0 (decide ((31 : Reg) ≠ 0)) = none := by decide

theorem witness_CsrrcClearsBits :
    checkAccess (inMode .user true true true true true) 0x5A8 (decide ((5 : Reg) ≠ 0)) = some .virtualInstruction ∧
    checkAccess State.reset 0x5C0 (decide ((0 : Reg) ≠ 0)) = none ∧
    checkAccess State.reset 0x5C0 (decide ((7 : Reg) ≠ 0)) = none := by decide

theorem witness_CsrrwiWritesImmediate :
    checkAccess { State.reset with dis := true } 0x7C0 true = some .illegalInstruction ∧
    checkAccess (inMode .supervisor true true true true true) 0x5C0 true = none := by decide

theorem witness_CsrrsiSetsImmediateBits :
    checkAccess State.reset 0xC01 (decide ((1 : BitVec 5) ≠ 0)) = some .illegalInstruction ∧
    checkAccess State.reset 0xC01 (decide ((0 : BitVec 5) ≠ 0)) = none ∧
    checkAccess State.reset 0x6C0 (decide ((31 : BitVec 5) ≠ 0)) = none := by decide

theorem witness_CsrrciClearsImmediateBits :
    checkAccess State.reset 0x123 (decide ((1 : BitVec 5) ≠ 0)) = some .illegalInstruction ∧
    checkAccess State.reset 0x7C0 (decide ((0 : BitVec 5) ≠ 0)) = none ∧
    checkAccess State.reset 0x7C0 (decide ((31 : BitVec 5) ≠ 0)) = none := by decide

theorem witness_CsrAccessFrame :
    (instrRaises (.csrrw 5 0x5A8 6) State.reset = none ∧ csrOf State.reset.cfg 0x5A8 = some .scontext ∧
      (resolveCsr .scontext State.reset.virt).isControl = false ∧ (resolveCsr .scontext State.reset.virt).isSink =
          false ∧
      (resolveCsr .scontext State.reset.virt).isTrap = false) ∧
    (instrRaises (.csrrw 5 0x7C0 6) State.reset = none ∧ csrOf State.reset.cfg 0x7C0 = some .mstrcctl ∧
      (resolveCsr .mstrcctl State.reset.virt).isEnv = false) := by decide

theorem witness_RaisingChangesNoTraceState :
    instrRaises (.csrrs 5 0x7C0 0) (inMode .supervisor false true true true true) = some .illegalInstruction ∧
    instrRaises (.csrrs 5 0x5C0 0) (inMode .supervisor true true false true true) = some .virtualInstruction :=
        by decide

/-- A mode with `medeleg` and `hedeleg`. -/
def delegating (p : Priv) (v : Bool) (med hed : Word) : State :=
  { inMode p v true false false false with trap := { TrapRegs.reset with medeleg := med, hedeleg := hed } }

theorem witness_IllegalInstructionTrap :
    instrRaises (.csrrs 5 0x123 0) (delegating .machine false 4 4) = some .illegalInstruction ∧
    (instrRaises (.csrrs 5 0x123 0) (delegating .user false 0 0) = some .illegalInstruction ∧
      (delegating .user false 0 0).trap.medeleg.getLsbD 2 = false) ∧
    (instrRaises (.csrrs 5 0x123 0) (delegating .user false 4 4) = some .illegalInstruction ∧
      (delegating .user false 4 4).priv ≠ .machine ∧ (delegating .user false 4 4).trap.medeleg.getLsbD 2 = true ∧
      (delegating .user false 4 4).virt = false) ∧
    (instrRaises (.csrrs 5 0x123 0) (delegating .user true 4 0) = some .illegalInstruction ∧
      (delegating .user true 4 0).trap.medeleg.getLsbD 2 = true ∧
      (delegating .user true 4 0).trap.hedeleg.getLsbD 2 = false) ∧
    (instrRaises (.csrrs 5 0x123 0) (delegating .supervisor true 4 4) = some .illegalInstruction ∧
      (delegating .supervisor true 4 4).priv ≠ .machine ∧ (delegating .supervisor true 4 4).virt = true ∧
      (delegating .supervisor true 4 4).trap.medeleg.getLsbD 2 = true ∧
      (delegating .supervisor true 4 4).trap.hedeleg.getLsbD 2 = true) := by decide

theorem witness_VirtualInstructionTrap :
    (instrRaises (.csrrs 5 0x5C0 0) (delegating .supervisor true 0 0) = some .virtualInstruction ∧
      (delegating .supervisor true 0 0).trap.medeleg.getLsbD 22 = false) ∧
    (instrRaises (.csrrs 5 0x6C0 0) (delegating .user true 0x400000 0x400000) = some .virtualInstruction ∧
      (delegating .user true 0x400000 0x400000).trap.medeleg.getLsbD 22 = true) := by decide

theorem witness_TrapReturnReversesEntry :
    ModeLegal State.reset ∧
    (ModeLegal (inMode .user false true true true true) ∧ (inMode .user false true true true true).priv ≠ .machine) ∧
    (ModeLegal (inMode .supervisor true true true true true) ∧ (inMode .supervisor true true true true true).virt =
        true) := by
  decide

theorem witness_StrcCsrExistence :
    CsrNumbersLegal Config.full ∧ (0x7C0 ∈ strcNumbers Config.full ∧ { State.reset with dis := true }.dis = true) ∧
    (0x6C0 = Config.full.csrVsstrcctl ∧ { Config.full with hasH := false }.hasH = false) := by decide

theorem witness_UnimplementedCsrIsIllegal :
    csrOf Config.full 0x123 = none ∧
    (csrOf { Config.full with hasH := false } 0x600 = some .hstatus ∧ CsrId.hstatus.isStrc = false ∧
      hostCsrExists { Config.full with hasH := false } .hstatus = false) := by decide

theorem witness_AccessTable :
    CsrNumbersLegal State.reset.cfg ∧ State.reset.dis = false ∧ State.reset.cfg.hasH = true ∧
    0x5C2 ∈ [State.reset.cfg.csrSstrcctl, State.reset.cfg.csrSstrcambcs, State.reset.cfg.csrSstrcambaddr] := by decide

theorem witness_ContextCsrsUnderMstateen0 :
    CsrNumbersLegal Config.full ∧ (Instr.csrrw 5 0x5A8 6).csrNumber = 0x5A8 ∧ (Instr.csrrs 5 0x6A8 0).csrNumber =
        0x6A8 ∧
    ((inMode .user true false true false true).priv ≠ .machine ∧ (inMode .user true false true false true).mSTRC =
        false ∧
      (inMode .user true false true false true).m57 = false) ∧
    (InHS (inMode .supervisor false true false false false) ∧ (inMode .supervisor false true false false false).mSTRC =
        true) ∧
    (InHS (inMode .supervisor false false false true false) ∧ (inMode .supervisor false false false true false).m57 =
        true) := by
  decide

theorem witness_ContextCsrsWithVirtualization :
    ((inMode .supervisor true true true false false).virt = true ∧
        (inMode .supervisor true true true false false).mSTRC = true ∧
      (inMode .supervisor true true true false false).priv = .supervisor ∧
      (inMode .supervisor true true true false false).hSTRC = true) ∧
    ((inMode .supervisor true false false true true).m57 = true ∧ (inMode .supervisor true false false true true).h57 =
        true) ∧
    ((inMode .supervisor true true false false true).hSTRC = false ∧
        (inMode .supervisor true true false false true).h57 = false) ∧
    ((inMode .user true true true true true).priv = .user ∧ (inMode .user true true true true true).virt = true ∧
      (inMode .user true true true true true).mSTRC = true) := by decide

theorem witness_PrivilegeByCsrNumber :
    CsrNumbersLegal State.reset.cfg ∧ State.reset.cfg.hasH = true ∧ State.reset.cfg.hasSmstateen = true ∧
    (Instr.csrrw 5 0x30A 6).csrNumber = 0x30A ∧ (Instr.csrrs 5 0x60C 0).csrNumber = 0x60C := by decide

theorem witness_CountersAreReadOnly :
    CsrNumbersLegal State.reset.cfg ∧ (Instr.csrrsi 5 0xC01 1).csrNumber = 0xC01 ∧ instrWrites (.csrrsi 5 0xC01 1) =
        true ∧
    (Instr.csrrw 0 0xC00 0).csrNumber = 0xC00 ∧ instrWrites (.csrrw 0 0xC00 0) = true := by decide

theorem witness_VsstrcctlSubstitutes :
    CsrNumbersLegal (inMode .supervisor true true true true true).cfg ∧
    (inMode .supervisor true true true true true).virt = true ∧
    checkAccess (inMode .supervisor true true true true true) 0x5C0 true = none := by decide

theorem witness_CsrReadValues :
    State.reset.cfg.strcSeBit < 64 ∧ (inMode .machine false false true false false).mSTRC = false ∧
    checkAccess State.reset 0x5C2 false = none := by decide

theorem witness_MstrcctlWriteStores :
    ((0xF00000FF00799D05#64) ^^^ (BitVec.allOnes 64)) &&& 0xF000_00FF_0079_9D05#64 = 0 := by decide

theorem witness_MstrcctlReadsBackUnderMask :
    (let c := Config.full
     c.implIten ∧ c.implSten ∧ c.implNta ∧ c.implEsj ∧ c.implEir ∧ c.implEbp ∧ c.implEtc ∧ c.implErh ∧ c.implEaj ∧
      c.implEam ∧ c.smodImpl1 ∧ c.smodImpl2 ∧ c.smodImpl3) ∧
    (let c := Config.mini 1
     !c.implIten ∧ !c.implSten ∧ !c.implNta ∧ !c.implEsj ∧ !c.implEir ∧ !c.implEbp ∧ !c.implEtc ∧ !c.implErh ∧
      !c.implEaj ∧ !c.implEam) := by decide

theorem witness_WriteBackChangesNothing : CtlLegal Config.full (withCtl (BitVec.allOnes 64)).ctl := by decide

theorem witness_EnableBitWrites :
    State.reset.cfg.strcSeBit < 64 ∧ State.reset.cfg.hasH = true ∧ State.reset.cfg.hasSmstateen = true ∧
    State.reset.mSTRC = false ∧ { State.reset with dis := true }.dis = true := by decide

theorem witness_ContextCsrWrites :
    State.reset.cfg.scontextBits ≤ 32 ∧ State.reset.cfg.hcontextBits ≤ 32 := by decide

/-- U-mode, V = 1, reading `cycle`. -/
def placedUser : State := State.withFetchWord (inMode .user true true true true true) 32 0xC00022F3

theorem witness_PrivilegeOverTraceControl :
    ∃ t, step placedUser = .next t ∧ (∀ v, placedUser.agenda.head? ≠ some (.debuggerSetDis v)) ∧
      placedUser.priv ≠ .machine ∧ placedUser.virt = true ∧ placedUser.priv = .user :=
  ⟨_, rfl, by decide, by decide, by decide, by decide⟩

theorem witness_HardwareWritesOnlyItAndStof :
    (∀ v, Action.handOver ≠ .debuggerSetDis v) ∧ (withCtl 0).ctl.iten = false ∧ (withCtl 0x800).ctl.stof = true :=
        by decide

/-- Traced M-mode: EN, IT, ITEN, STEN, SMOD = 1, CEN, TSEN and M set. -/
def traced (w : Word) : State :=
  { withCtl w with enc := { State.reset.enc with active := true } }

theorem witness_TriggerActions :
    ((traced 0x8000000000001405).dis = false ∧ (traced 0x8000000000001405).ctl.iten = true ∧
      (traced 0x8000000000001405).generating = true ∧ (traced 0x8000000000001405).enc.owed = [] ∧
      SyncSettled (traced 0x8000000000001405)) ∧
    ((withCtl 0x400).ctl.iten = true ∧ (withCtl 0x400).generating = false ∧ SyncSettled (withCtl 0x400)) ∧
    ((withCtl 0).ctl.iten = false ∧ SyncSettled (withCtl 0)) := by decide

theorem witness_PrivilegeVectorIsFilter :
    ModeLegal State.reset ∧ ModeLegal (inMode .user true true true true true) := by decide

theorem witness_UntracedInstructionAddsNothing :
    ∃ t, exec (.csrrsi 5 0x7C0 4) State.reset = .next t ∧ State.reset.generating = false ∧
      t.ctl.en = State.reset.ctl.en ∧ SyncSettled State.reset ∧ t.generating = false ∧
      t.ctl.smod = State.reset.ctl.smod ∧ t.ctl.smax = State.reset.ctl.smax :=
  ⟨_, rfl, by decide, by decide, by decide, by decide, by decide, by decide⟩

theorem witness_TracedInstructionIsRecorded :
    ∃ t u, exec (.csrrsi 5 0x7C0 4) (traced 0x8000000000001405) = .next t ∧
      instrRaises (.csrrsi 5 0x7C0 4) (traced 0x8000000000001405) = none ∧
      (traced 0x8000000000001405).generating = true ∧ t.ctl.en = true ∧ (traced 0x8000000000001405).ctl.sten = true ∧
      exec (.csrrci 5 0x7C0 1) (traced 0x8000000000000405) = .next u ∧ u.ctl.en = false ∧
      instrRaises (.csrrci 5 0x7C0 1) (traced 0x8000000000000405) = none ∧
      (traced 0x8000000000000405).generating = true ∧ (traced 0x8000000000000405).ctl.sten = false :=
  ⟨_, _, rfl, by decide, by decide, by decide, by decide, rfl, by decide, by decide, by decide, by decide⟩

theorem witness_TracedExceptionIsRecorded :
    ∃ t u, exec (.csrrs 5 0x123 0) (traced 0x8000000000001405) = .next t ∧
      instrRaises (.csrrs 5 0x123 0) (traced 0x8000000000001405) = some .illegalInstruction ∧
      (traced 0x8000000000001405).generating = true ∧ (traced 0x8000000000001405).ctl.sten = true ∧
      exec (.csrrs 5 0x123 0) (traced 0x8000000000000405) = .next u ∧
      (traced 0x8000000000000405).generating = true ∧ (traced 0x8000000000000405).ctl.sten = false :=
  ⟨_, _, rfl, by decide, by decide, by decide, rfl, by decide, by decide⟩

theorem witness_SessionStartsAndEndsWithSupport :
    ∃ t u, exec (.csrrsi 5 0x7C0 1) State.reset = .next t ∧ State.reset.cfg.kind = .etrace ∧
      State.reset.ctl.en = false ∧ t.ctl.en = true ∧
      exec (.csrrci 5 0x7C0 1) (traced 0x8000000000001405) = .next u ∧
      (traced 0x8000000000001405).cfg.kind = .etrace ∧ (traced 0x8000000000001405).ctl.en = true ∧ u.ctl.en = false :=
  ⟨_, _, rfl, by decide, by decide, by decide, rfl, by decide, by decide, by decide⟩

theorem witness_EmptyStaysUntilEnabled :
    ∃ t, step placed = .next t ∧ placed.dis = false ∧ placed.ctl.en = false ∧ placed.empty = true ∧ t.ctl.en = false :=
  ⟨_, rfl, by decide, by decide, by decide, by decide⟩

theorem witness_FlushCompletes :
    (withCtlBusy 0).dis = false ∧ (withCtlBusy 0).enc.owed = [] ∧ SyncSettled (withCtlBusy 0) ∧
    (withCtlBusy 0).enc.buffer.length = 1 ∧
    ambAccepts (((withCtlBusy 0).enc.buffer.take 0).foldl ambPushByte (withCtlBusy 0).amb) = true := by decide

/-- SMOD = 3 and 2, one event short of the threshold. -/
def atThreshold (w : Word) (count : Nat) : State :=
  { traced w with enc := { (traced w).enc with syncCount := count } }

/-- The clauses apart: a state that generates trace after the instruction (IT goes to 1), and the two that reach the
threshold of 16. -/
theorem witness_NoSyncOverdue :
    (∃ t, exec (.csrrsi 5 0x7C0 4) (traced 0x8000000000008001) = .next t ∧
      (observeInstr (.csrrsi 5 0x7C0 4) (traced 0x8000000000008001) t).generating = true ∧
      (observeInstr (.csrrsi 5 0x7C0 4) (traced 0x8000000000008001) t).ctl.smod ≠ 0) ∧
    (∃ t, exec (.csrrs 5 0x7C0 0) (atThreshold 0x8000000000018005 14) = .next t ∧
      instrRaises (.csrrs 5 0x7C0 0) (atThreshold 0x8000000000018005 14) = none ∧
      (atThreshold 0x8000000000018005 14).generating = true ∧ t.ctl.en = true ∧
      (atThreshold 0x8000000000018005 14).ctl.smod = 3 ∧
      2 ^ ((atThreshold 0x8000000000018005 14).ctl.smax.toNat + 4) ≤
        (atThreshold 0x8000000000018005 14).enc.syncCount + 2) ∧
    ((atThreshold 0x8000000000010005 15).generating = true ∧ (atThreshold 0x8000000000010005 15).ctl.smod = 2 ∧
      2 ^ ((atThreshold 0x8000000000010005 15).ctl.smax.toNat + 4) ≤
        (atThreshold 0x8000000000010005 15).enc.syncCount + 1) ∧
    (atThreshold 0x8000000000008005 15).ctl.smod = 1 ∧ SyncSettled (atThreshold 0x8000000000008005 15) :=
  ⟨⟨_, rfl, by decide, by decide⟩,
    ⟨_, rfl, by decide, by decide, by decide, by decide, by decide⟩, by decide, by decide, by decide⟩

/-- Both clauses: a `Sync`, and another item. What the item's bytes are is open, so the answer is only shown to
exist. -/
theorem witness_SyncResetsCounter :
    (∃ q, deliver Config.full (withCtl 0x8005).ctl false (State.reset.enc, false) (mkRecord State.reset .sync) =
        some q) ∧
    (∃ q, deliver Config.full (withCtl 0x8005).ctl false (State.reset.enc, false)
        (mkRecord State.reset .triggerNotify) = some q) ∧ Item.triggerNotify ≠ .sync ∧ (withCtl 0x8005).ctl.smod = 1 :=
  ⟨Option.isSome_iff_exists.mp (deliver_noStall_isSome ..), Option.isSome_iff_exists.mp (deliver_noStall_isSome ..),
    by decide, by decide⟩

theorem witness_HalfwordsAreCounted :
    (∃ t, exec (.csrrs 5 0x7C0 0) (traced 0x8000000000018005) = .next t ∧
      instrRaises (.csrrs 5 0x7C0 0) (traced 0x8000000000018005) = none ∧
      (traced 0x8000000000018005).generating = true ∧ t.ctl.en = true ∧
      t.ctl.smod = (traced 0x8000000000018005).ctl.smod ∧ t.ctl.smax = (traced 0x8000000000018005).ctl.smax ∧
      (traced 0x8000000000018005).ctl.smod = 3 ∧
      (traced 0x8000000000018005).enc.syncCount + 2 < 2 ^ ((traced 0x8000000000018005).ctl.smax.toNat + 4)) ∧
    ((traced 0x8000000000010005).generating = true ∧ SyncSettled (traced 0x8000000000010005) ∧
      (traced 0x8000000000010005).ctl.smod = 2 ∧
      (traced 0x8000000000010005).enc.syncCount + 1 < 2 ^ ((traced 0x8000000000010005).ctl.smax.toNat + 4)) ∧
    ((traced 0x8000000000018005).ctl.smod ≠ 2 ∧ SyncSettled (traced 0x8000000000018005)) ∧
    ((traced 0x8000000000010005).ctl.smod ≠ 1 ∧ (traced 0x8000000000010005).ctl.smod ≠ 3) :=
  ⟨⟨_, rfl, by decide, by decide, by decide, by decide, by decide, by decide, by decide⟩, by decide, by decide,
    by decide⟩

theorem witness_TimestampValue :
    (withCtl 0).ctl.tsen = false ∧
    ((withCtl 0x1000000000000000).ctl.tsen = true ∧ (withCtl 0x1000000000000000).cfg.kind = .etrace ∧
      16 ≤ (withCtl 0x1000000000000000).cfg.etrace.timeWidth) ∧
    ({ withCtl 0x1000000000000000 with cfg := { Config.full with kind := .ntrace } }.cfg.kind = .ntrace) ∧
    ∃ q, deliver Config.full (withCtl 0x1000000000000005).ctl false (State.reset.enc, false)
      (mkRecord (withCtl 0x1000000000000005) (.flow ⟨0, 2, .call false, 0x100⟩)) = some q :=
  ⟨by decide, by decide, by decide, Option.isSome_iff_exists.mp (deliver_noStall_isSome ..)⟩

theorem witness_ContextReported : (withCtl 0).ctl.cen = false ∧ (withCtl 0x100).ctl.cen = true := by decide

theorem witness_GuestSeesItselfAsHost :
    ((timed 0 0 true true).strcs = true ∧ (timed 0 0 true true).strcv = true) ∧
    ¬((timed 0 0 false true).strcs = true ∧ (timed 0 0 false true).strcv = true) := by decide

/-- A packet at the very start, and one of two bytes that does not fit in the last byte of its block. -/
theorem witness_BlocksBeginWithSyncSequence :
    (([] : List Byte).length ≤ 4096 - 33 ∧ 0 ≤ 4096 * 0 ∧ 4096 * 0 < 0 + (layOut .etrace 0 []).length) ∧
    (([1, 2] : List Byte).length ≤ 4096 - 33 ∧ 4095 ≤ 4096 * 1 ∧
      4096 * 1 < 4095 + (layOut .etrace 4095 [1, 2]).length) ∧
    Config.full.kind = .etrace ∧ (⟨mkRecord State.reset .sync, [1, 2]⟩ : Waiting).body.length ≤ 4096 - 33 ∧
    ∃ q, deliver Config.full State.reset.ctl false (State.reset.enc, false) (mkRecord State.reset .sync) = some q :=
  ⟨by decide, by decide, by decide, by decide, Option.isSome_iff_exists.mp (deliver_noStall_isSome ..)⟩

/-- The sink has taken the byte 7 for the address 0x10. -/
def holding : State := { State.reset with amb := { State.reset.amb with pending := [(0x10, 7)] } }

theorem witness_SinkWritesOldestByte :
    (holding.dis = false ∧ memWf holding.mem ∧ holding.amb.pending = (0x10, 7) :: []) ∧
    ambAccepts State.reset.amb = true ∧ (State.reset.amb.regs.position < ambSize State.reset.amb.regs) ∧
    ({ State.reset.amb.regs with wraps := true, position := 5000 } : AmbRegs).wraps = true :=
  ⟨by decide, rfl, Nat.two_pow_pos _, rfl⟩

/-- The byte 7 is written at one place, which leaves another address for the frame. -/
theorem witness_DrainFrame :
    SyncSettled holding ∧ ∃ a, ∀ w ∈ holding.physical (holding.amb.pending.take 1), w.1.toNat ≠ a :=
  ⟨by decide, (Config.ambTranslate holding.sinkContext 0x10).toNat + 1, by
    simp [holding, State.physical, State.reset, State.resetWith, State.sinkContext, State.strcs, State.strcv]⟩

/-- The read of EMPTY = 1 with an 8-byte load as the next input. -/
def readingEmpty : State := { holding with hartInputs := [.table, .retire false (.load 6 0x10)] }

/-- A read of EMPTY = 1 has promised the byte 7. -/
def promising (agenda : List Action) : State := { holding with promised := 1, agenda := agenda }

theorem witness_LoadSeesAllTrace :
    ∃ t, exec (.csrrs 5 0x7C0 0) readingEmpty.nextInput = .next t ∧ readingEmpty.ctl.en = false ∧
      readsEmpty (.csrrs 5 0x7C0 0) readingEmpty.nextInput = true ∧ t.ctl.en = false ∧
      (observeInstr (.csrrs 5 0x7C0 0) readingEmpty.nextInput t).agenda = [] ∧
      (observeInstr (.csrrs 5 0x7C0 0) readingEmpty.nextInput t).hartHeld = false ∧
      (observeInstr (.csrrs 5 0x7C0 0) readingEmpty.nextInput t).hartInputs = [.retire false (.load 6 0x10)] ∧
      (promising [.drainFault]).dis = false ∧ (promising [.drainFault]).agenda.head? = some .drainFault ∧
      stalledByInstruction.dis = false ∧ stalledByInstruction.hartHeld = true :=
  ⟨_, rfl, by decide, by decide, by decide, by decide, by decide, by decide, by decide, by decide, by decide, by decide⟩

/-- R82, D8: a fault makes no write that was not pending, and leaves the buffer and the position. -/
theorem test_fault_brings_no_write :
    (ambFault State.reset.amb).pending = [] ∧ ambPlace (ambFault holding.amb).regs = ambPlace holding.amb.regs :=
  ⟨rfl, rfl⟩

/-- R84: a write that a read of EMPTY = 1 has promised is lost neither by a fault nor by the debugger's bit. -/
theorem test_promise_is_kept :
    (act (promising []) .drainFault).mem = (arrive (promising [])).mem ∧ (promising []).promised = 1 ∧
    (act (promising []) (.debuggerSetDis true)).mem = (arrive (promising [])).mem :=
  ⟨rfl, rfl, by
    show (if Config.freeBool .machine (promising []).draws then
        writePending (arrive (promising [])).inFlight (arrive (promising [])).mem else (arrive (promising [])).mem) = _
    rw [show (arrive (promising [])).inFlight = [] from rfl]
    exact ite_self _⟩

/-- R88: reading EMPTY = 1 changes neither memory nor the sink, though a write is pending. -/
theorem test_reading_empty_has_no_effect :
    (match exec (.csrrs 5 0x7C0 0) holding with
     | .next t =>
       let u := observeInstr (.csrrs 5 0x7C0 0) holding t
       (u.amb, u.mem, u.promised, u.readReg 5)
     | _ => default) = (holding.amb, [], 1, 2) := by decide

theorem test_disabled_sink_does_not_fault :
    act { State.reset with dis := true } .drainFault = { State.reset with dis := true } ∧
    (act { State.reset with dis := true } (.sinkReady false)).amb.regs.ready = true ∧
    (act State.reset (.sinkReady false)).amb.regs.ready = false := by decide

theorem witness_DisabledTraceIsIdle :
    ∃ t, step { placed with dis := true } = .next t ∧ { placed with dis := true }.dis = true ∧ t.dis = true ∧
      placed.dis = false :=
  ⟨_, rfl, by decide, by decide, by decide⟩

end Sys2Proof.Tests
end

section
/-! SUPPORT. The hart's turn as an equation, and the settlement of O5. -/

namespace Sys2Proof.Machine

theorem nextInput_of_nil {s : State} (h : s.hartInputs = []) : s.nextInput = s := by
  show { s with hartInputs := s.hartInputs.tail } = s
  rw [h, List.tail_nil, ← h]

theorem nextInput_of_cons {s : State} {x : HartInput} {rest : List HartInput} (h : s.hartInputs = x :: rest) :
    s.nextInput = { s with hartInputs := rest } := by
  show { s with hartInputs := s.hartInputs.tail } = _
  rw [h, List.tail_cons]

theorem step_of_empty_agenda {s : State} (h : s.agenda = []) : step s = hartTurn s := by
  simp only [step, turn, h]

theorem step_of_hart_entry {s : State} {rest : List Action} (h : s.agenda = .hart :: rest) :
    step s = hartTurn { s with agenda := rest } := by
  simp only [step, turn, h]

theorem hartTurn_of_free {s : State} (h : s.hartHeld = false) : hartTurn s = hartActs (arrive s) := by
  simp [hartTurn, h]

/-- Whether the hart is stalled is no matter of the agenda. -/
theorem hartHeld_agenda (s : State) (rest : List Action) : State.hartHeld { s with agenda := rest } = s.hartHeld := rfl

theorem tableTurn_of_decode {s t : State} {i : Instr} (hpc : s.pc.getLsbD 0 = false)
    (hi : decodeWord (fetchWord s.mem s.pc) = .ok i) (ht : exec i s.nextInput = .next t) :
    tableTurn s = .next (observeInstr i s t) := by
  simp only [tableTurn, hpc, Bool.false_eq_true, if_false, hi, ht]

/-- With no input left, or an instruction of the table as the next one, the hart takes its instruction from memory;
`v` is the state in which that input is consumed. -/
theorem hartActs_of_table {u v : State}
    (h : (u.hartInputs = [] ∧ v = u) ∨ ∃ rest, u.hartInputs = .table :: rest ∧ v = { u with hartInputs := rest }) :
    hartActs u = tableTurn u ∧ u.nextInput = v := by
  rcases h with ⟨hnil, rfl⟩ | ⟨rest, hcons, rfl⟩
  · exact ⟨by simp only [hartActs, hnil], nextInput_of_nil hnil⟩
  · exact ⟨by simp only [hartActs, hcons], nextInput_of_cons hcons⟩

/-- A step at the hart's turn lets a hart that is not stalled act, what was promised to it having arrived. -/
theorem step_of_hart_turn {s u : State}
    (h : (s.agenda = [] ∧ u = arrive s) ∨ ∃ rest, s.agenda = .hart :: rest ∧ u = arrive { s with agenda := rest })
    (hfree : s.hartHeld = false) : step s = hartActs u := by
  rcases h with ⟨hnil, rfl⟩ | ⟨rest, hcons, rfl⟩
  · rw [step_of_empty_agenda hnil, hartTurn_of_free hfree]
  · rw [step_of_hart_entry hcons, hartTurn_of_free (hartHeld_agenda s rest ▸ hfree)]

/-- Settles O5: every instruction's `exec` answers a next state, and the equations of a turn lead to it. -/
theorem stepRunsTheDecodedInstruction : Obligations.StepRunsTheDecodedInstruction := by
  intro s u v i hturn hinput hfree hpc hdecode
  obtain ⟨hacts, rfl⟩ := hartActs_of_table hinput
  obtain ⟨newValue, rd, hexec⟩ := exec_eq_csrAccess i u.nextInput
  refine ⟨_, hexec, ?_⟩
  rw [step_of_hart_turn hturn hfree, hacts, tableTurn_of_decode hpc hdecode hexec]

end Sys2Proof.Machine
end

section
/-! SUPPORT. What the entries of the agenda can do, each said once. -/

namespace Sys2Proof.Machine

theorem emitExtra_cases (s : State) (x : ExtraItem) :
    emitExtra s x = s ∨ ∃ item, emitExtra s x = emitNow s item := by
  unfold emitExtra
  split
  · split
    · exact Or.inr ⟨_, rfl⟩
    · exact Or.inl rfl
  · exact Or.inl rfl

/-- What a firing trigger does: nothing; with ITEN = 1, a write of IT; or a notification's item. -/
theorem fireTrigger_cases (s : State) (a : TriggerAction) :
    fireTrigger s a = s ∨ (s.ctl.iten = true ∧ ∃ b, fireTrigger s a = { s with ctl := { s.ctl with it := b } }) ∨
    fireTrigger s a = emitNow s .triggerNotify := by
  unfold fireTrigger
  split
  · exact Or.inl rfl
  · rename_i h
    have hiten : s.ctl.iten = true := by simp_all
    cases a with
    | traceOn => exact Or.inr (Or.inl ⟨hiten, _, rfl⟩)
    | traceOff => exact Or.inr (Or.inl ⟨hiten, _, rfl⟩)
    | notify =>
      dsimp only
      split
      · exact Or.inr (Or.inr rfl)
      · exact Or.inl rfl

/-- What a hand-over does: nothing, or waiting items are settled after at most one byte has left the buffers. -/
theorem handOverByte_cases (s : State) :
    handOverByte s = s ∨
    (s.enc.buffer = [] ∧ handOverByte s = { s with enc := settleOwed s.cfg s.enc s.enc.owed }) ∨
    ∃ b bs, s.enc.buffer = b :: bs ∧ handOverByte s =
      { s with enc := settleOwed s.cfg { s.enc with buffer := bs } s.enc.owed, amb := ambPushByte s.amb b } := by
  unfold handOverByte
  split
  · exact Or.inl rfl
  · split
    · rename_i hb; exact Or.inr (Or.inl ⟨hb, rfl⟩)
    · rename_i b bs hb
      split
      · exact Or.inr (Or.inr ⟨b, bs, hb, rfl⟩)
      · exact Or.inl rfl

end Sys2Proof.Machine
end

section
/-! SUPPORT. What the turns of the agents may write of trace control, and the settlement of O40. -/

namespace Sys2Proof.Machine

/-- From `s` to `t` hardware has written no trace control but IT, only with ITEN = 1, and STOF, which it only sets. -/
structure HardwareKeeps (s t : State) : Prop where
  ctl : t.ctl = { s.ctl with it := t.ctl.it, stof := t.ctl.stof }
  it : s.ctl.iten = false → t.ctl.it = s.ctl.it
  stof : s.ctl.stof = true → t.ctl.stof = true
  vsctl : t.vsctl = s.vsctl
  env : t.env = s.env
  dis : t.dis = s.dis

theorem HardwareKeeps.of_same {s t : State} (hctl : t.ctl = s.ctl) (hvs : t.vsctl = s.vsctl) (henv : t.env = s.env)
    (hdis : t.dis = s.dis) : HardwareKeeps s t :=
  ⟨by rw [hctl], fun _ => by rw [hctl], fun h => by rw [hctl, h], hvs, henv, hdis⟩

theorem HardwareKeeps.refl (s : State) : HardwareKeeps s s := .of_same rfl rfl rfl rfl

theorem HardwareKeeps.trans {s t u : State} (h : HardwareKeeps s t) (k : HardwareKeeps t u) : HardwareKeeps s u where
  ctl := by rw [k.ctl, h.ctl]
  it := fun hi => (k.it (by rw [h.ctl]; exact hi)).trans (h.it hi)
  stof := k.stof ∘ h.stof
  vsctl := k.vsctl.trans h.vsctl
  env := k.env.trans h.env
  dis := k.dis.trans h.dis

/-- Items that go to the buffers can set STOF and write nothing else of trace control. -/
theorem withDelivery_hardwareKeeps (s : State) (p : Encoder × Bool) : HardwareKeeps s (s.withDelivery p) :=
  ⟨rfl, fun _ => rfl, fun h => by simp [State.withDelivery, h], rfl, rfl, rfl⟩

theorem settleSync_hardwareKeeps (s : State) : HardwareKeeps s (settleSync s) := withDelivery_hardwareKeeps s _

theorem fireTrigger_hardwareKeeps (s : State) (a : TriggerAction) : HardwareKeeps s (fireTrigger s a) := by
  rcases fireTrigger_cases s a with h | ⟨hiten, b, h⟩ | h <;> rw [h]
  · exact .refl s
  · exact ⟨rfl, fun hi => by simp [hiten] at hi, id, rfl, rfl, rfl⟩
  · exact withDelivery_hardwareKeeps s _

theorem actItself_hardwareKeeps (s : State) (a : Action) (ha : ∀ v, a ≠ .debuggerSetDis v) :
    HardwareKeeps s (actItself s a) := by
  cases a with
  | hart => exact .refl s
  | trigger action => exact fireTrigger_hardwareKeeps s action
  | debuggerSetDis v => exact absurd rfl (ha v)
  | debugMode v => exact .of_same rfl rfl rfl rfl
  | encoderItem x =>
    show HardwareKeeps s (emitExtra s x)
    rcases emitExtra_cases s x with h | ⟨item, h⟩ <;> rw [h]
    · exact .refl s
    · exact withDelivery_hardwareKeeps s _
  | handOver =>
    show HardwareKeeps s (handOverByte s)
    rcases handOverByte_cases s with h | ⟨_, h⟩ | ⟨b, bs, _, h⟩ <;> rw [h]
    · exact .refl s
    · exact .of_same rfl rfl rfl rfl
    · exact .of_same rfl rfl rfl rfl
  | sinkReady v =>
    show HardwareKeeps s (sinkAccepts s v)
    rw [sinkAccepts_eq]; exact .of_same rfl rfl rfl rfl
  | drain n =>
    show HardwareKeeps s (drainSink s n)
    rw [drainSink_eq]; exact .of_same rfl rfl rfl rfl
  | drainFault =>
    show HardwareKeeps s (drainFaults s)
    rw [drainFaults_eq]; exact .of_same rfl rfl rfl rfl
  | hartClock waiting => exact .of_same rfl rfl rfl rfl
  | timeAdvance n => exact .of_same rfl rfl rfl rfl
  | vmidChange v => exact .of_same rfl rfl rfl rfl

theorem act_hardwareKeeps (s : State) (a : Action) (ha : ∀ v, a ≠ .debuggerSetDis v) : HardwareKeeps s (act s a) :=
  (actItself_hardwareKeeps s a ha).trans (settleSync_hardwareKeeps _)

/-- Settles O40, by what each entry of the agenda writes and the periodic `Sync` after it. -/
theorem hardwareWritesOnlyItAndStof : Obligations.HardwareWritesOnlyItAndStof := fun s a ha =>
  have h := act_hardwareKeeps s a ha
  ⟨h.ctl, h.it, h.stof, h.vsctl, h.env, h.dis⟩

end Sys2Proof.Machine
end

section
/-! SUPPORT. Which bits of a written word `mstrcctl` stores, as a mask, and the settlement of O32 and O33. -/

namespace Sys2Proof.Machine

/-! ## Words that agree under a mask -/

theorem getLsbD_eq_of_masked {w w' mask : Word} (h : (w ^^^ w') &&& mask = 0) {i : Nat}
    (hi : mask.getLsbD i = true) : w'.getLsbD i = w.getLsbD i := by
  have hbit : ((w ^^^ w') &&& mask).getLsbD i = false := by rw [h]; exact BitVec.getLsbD_zero
  rw [BitVec.getLsbD_and, BitVec.getLsbD_xor, hi, Bool.and_true] at hbit
  exact (bne_eq_false_iff_eq.mp hbit).symm

theorem extractLsb'_eq_of_masked {w w' mask : Word} (h : (w ^^^ w') &&& mask = 0) {start len : Nat}
    (hslice : ∀ i < len, mask.getLsbD (start + i) = true) : w'.extractLsb' start len = w.extractLsb' start len := by
  apply BitVec.eq_of_getLsbD_eq
  intro i hi
  rw [BitVec.getLsbD_extractLsb', BitVec.getLsbD_extractLsb', getLsbD_eq_of_masked h (hslice i hi)]

/-- What is stored depends on the bits of the named fields but EMPTY. -/
theorem mstrcctlFields_of_masked (c : Config) {w w' : Word} (h : (w ^^^ w') &&& 0xF000_00FF_0079_9D05#64 = 0) :
    mstrcctlFields c w' = mstrcctlFields c w := by
  have bit (i : Nat) (hi : (0xF000_00FF_0079_9D05#64).getLsbD i = true) : w'.getLsbD i = w.getLsbD i :=
    getLsbD_eq_of_masked h hi
  have smod : w'.extractLsb' 15 2 = w.extractLsb' 15 2 := extractLsb'_eq_of_masked h (by decide)
  have smax : w'.extractLsb' 19 4 = w.extractLsb' 19 4 := extractLsb'_eq_of_masked h (by decide)
  simp (disch := decide) only [mstrcctlFields, bit, smod, smax]

/-! ## What is read back -/

/-- The bits of a written word that an implementation stores as they are: those of its fields, SMOD and EMPTY apart. -/
def storedMask (c : Config) : Word :=
  0xF000_0000_0078_0905#64 ||| bitAt 10 c.implIten ||| bitAt 12 c.implSten ||| bitAt 32 c.implNta |||
  bitAt 33 c.implEsj ||| bitAt 34 c.implEir ||| bitAt 35 c.implEbp ||| bitAt 36 c.implEtc ||| bitAt 37 c.implErh |||
  bitAt 38 c.implEaj ||| bitAt 39 c.implEam

/-- The word that shows what a write has stored: the written bits under the mask, SMOD as stored, and EMPTY. Each of the
64 bits belongs to one field or to none. -/
theorem mstrcctlWord_mstrcctlFields (c : Config) (w : Word) (e : Bool) :
    mstrcctlWord (mstrcctlFields c w) e =
      (w &&& storedMask c) ||| fieldAt 15 (smodStored c (w.extractLsb' 15 2)) ||| bitAt 1 e := by
  apply BitVec.eq_of_getLsbD_eq
  intro j hj
  rw [mstrcctlWord_getLsbD _ _ _ hj]
  simp only [storedMask, mstrcctlFields, BitVec.getLsbD_or, BitVec.getLsbD_and, getLsbD_bitAt _ _ _ hj,
    getLsbD_fieldAt _ _ _ hj]
  interval_cases j <;> simp [Bool.and_comm]

theorem smodStored_of_all {c : Config} (h1 : c.smodImpl1) (h2 : c.smodImpl2) (h3 : c.smodImpl3) (v : BitVec 2) :
    smodStored c v = v := by
  have hlegal : smodLegal c v = true := by unfold smodLegal; split <;> simp [h1, h2, h3]
  simp [smodStored, hlegal]

/-- The SMOD slice of a word, put back at its place. -/
theorem fieldAt_extractLsb'_smod (w : Word) : fieldAt 15 (w.extractLsb' 15 2) = w &&& 0x1_8000#64 := by
  apply BitVec.eq_of_getLsbD_eq
  intro j hj
  rw [getLsbD_fieldAt _ _ _ hj, BitVec.getLsbD_and, BitVec.getLsbD_extractLsb']
  interval_cases j <;> simp

theorem readMstrcctl_after_write (s : State) (w : Word) :
    csrRead (csrWrite s .mstrcctl w) .mstrcctl =
      (w &&& storedMask s.cfg) ||| fieldAt 15 (smodStored s.cfg (w.extractLsb' 15 2)) ||| bitAt 1 s.empty :=
  mstrcctlWord_mstrcctlFields s.cfg w s.empty

/-- Settles O32: the fields are the model's, and none takes a bit outside the mask. -/
theorem mstrcctlWriteStores : Obligations.MstrcctlWriteStores := by
  intro s w
  refine ⟨rfl, rfl, rfl, rfl, rfl, rfl, rfl, rfl, rfl, rfl, rfl, rfl, rfl, rfl, rfl, rfl, rfl, rfl, rfl, rfl, rfl, rfl,
    fun w' h => ?_⟩
  show s.writeMstrcctl w' = s.writeMstrcctl w
  rw [writeMstrcctl_eq, writeMstrcctl_eq, mstrcctlFields_of_masked s.cfg h]

/-- Settles O33, from the mask of what is stored at the two extreme implementations. -/
theorem mstrcctlReadsBackUnderMask : Obligations.MstrcctlReadsBackUnderMask := by
  intro s w
  constructor
  · rintro ⟨h1, h2, h3, h4, h5, h6, h7, h8, h9, h10, hs1, hs2, hs3⟩
    have hmask : storedMask s.cfg = 0xF000_00FF_0078_1D05#64 := by
      rw [storedMask, h1, h2, h3, h4, h5, h6, h7, h8, h9, h10]; decide
    rw [readMstrcctl_after_write, smodStored_of_all hs1 hs2 hs3, fieldAt_extractLsb'_smod, hmask,
      ← BitVec.and_or_distrib_left]
    rfl
  · intro h
    simp only [Bool.not_eq_true'] at h
    obtain ⟨h1, h2, h3, h4, h5, h6, h7, h8, h9, h10⟩ := h
    have hmask : storedMask s.cfg = 0xF000_0000_0078_0905#64 := by
      rw [storedMask, h1, h2, h3, h4, h5, h6, h7, h8, h9, h10]; decide
    rw [readMstrcctl_after_write, hmask]

end Sys2Proof.Machine
end

section
/-! SUPPORT. The part of the invariant that speaks of the hart, and that every operation on the hart keeps it. -/

namespace Sys2Proof.Machine

/-! ## Even addresses -/

theorem evenAddr_even (t : Word) : (evenAddr t).getLsbD 0 = false := by
  rw [evenAddr, BitVec.getLsbD_and, BitVec.getLsbD_not]; simp

theorem vectorAddr_even (t : Word) : (vectorAddr t).getLsbD 0 = false := by
  rw [vectorAddr, BitVec.getLsbD_and, BitVec.getLsbD_not]; simp

theorem add_even {a b : Word} (ha : a.getLsbD 0 = false) (hb : b.getLsbD 0 = false) : (a + b).getLsbD 0 = false := by
  rw [BitVec.getLsbD_add (by decide), ha, hb, BitVec.carry_zero]; rfl

theorem hostLength_even (compressed : Bool) : (hostLength compressed).getLsbD 0 = false := by
  cases compressed <;> decide

/-! ## Legal fields -/

theorem contextStored_lt (bits : Nat) (w : Word) : (contextStored bits w).toNat < 2 ^ bits := by
  rw [contextStored, BitVec.toNat_ofNat]
  exact lt_of_le_of_lt (Nat.mod_le _ _) (Nat.mod_lt _ (Nat.two_pow_pos bits))

/-- Whatever word is written, legal fields are stored. -/
theorem mstrcctlFields_legal {c : Config} (h : SmodLegal c) (w : Word) : CtlLegal c (mstrcctlFields c w) := by
  have implemented (impl b : Bool) (hb : (impl && b) = true) : impl = true := (Bool.and_eq_true_iff.mp hb).1
  obtain ⟨_, h1, h2, h3⟩ := h
  exact ⟨implemented _ _, implemented _ _, implemented _ _, implemented _ _, implemented _ _, implemented _ _,
    implemented _ _, implemented _ _, implemented _ _, implemented _ _, smodStored_legal h1 h2 h3 _⟩

/-! ## The hart's part of the invariant -/

/-- The invariant but for what it says of the encoder: the hart, its memory, and the stored trace control. -/
structure HartOk (s : State) : Prop where
  legal : Legal s.cfg
  memory : memWf s.mem
  x0 : s.x[0] = 0
  pcs : PcsEven s
  mode : ModeLegal s
  ctl : CtlLegal s.cfg s.ctl
  context : ContextFits s

theorem inv_iff (s : State) : Inv s ↔ HartOk s ∧ EncoderOk s ∧ SyncSettled s :=
  ⟨fun h => ⟨⟨h.legal, h.memory, h.x0, h.pcs, h.mode, h.ctl, h.context⟩, h.encoder, h.sync⟩,
   fun ⟨h, he, hs⟩ => ⟨h.legal, h.memory, h.x0, h.pcs, h.mode, h.ctl, h.context, he, hs⟩⟩

theorem Inv.hart {s : State} (h : Inv s) : HartOk s := ((inv_iff s).mp h).1

theorem HartOk.smodLegal {s : State} (h : HartOk s) : SmodLegal s.cfg := by
  obtain ⟨_, hsmod, _⟩ := h.legal
  exact hsmod

/-! ## Registers, traps and returns -/

section hart
variable {s : State}

theorem setPc_hartOk (h : HartOk s) {t : Word} (ht : t.getLsbD 0 = false) : HartOk (s.setPc t) := by
  obtain ⟨_, hm, hs, hv⟩ := h.pcs
  exact { h with pcs := ⟨ht, hm, hs, hv⟩ }

theorem writeReg_hartOk (h : HartOk s) (rd : Reg) (v : Word) : HartOk (s.writeReg rd v) where
  legal := by rw [writeReg_cfg]; exact h.legal
  memory := by rw [writeReg_mem]; exact h.memory
  x0 := writeReg_x_zero s rd v h.x0
  pcs := by simp only [PcsEven, writeReg_pc, writeReg_trap]; exact h.pcs
  mode := by simp only [ModeLegal, writeReg_virt, writeReg_cfg, writeReg_priv]; exact h.mode
  ctl := by rw [writeReg_cfg, writeReg_ctl]; exact h.ctl
  context := by simp only [ContextFits, writeReg_env, writeReg_cfg]; exact h.context

theorem takeTrap_hartOk (h : HartOk s) (interrupt : Bool) (cause : BitVec 6) (tval : Word) :
    HartOk (takeTrap s interrupt cause tval) := by
  obtain ⟨hpc, hm, hs, hv⟩ := h.pcs
  unfold takeTrap
  split
  · exact { h with pcs := ⟨vectorAddr_even _, hpc, hs, hv⟩, mode := nofun }
  · exact { h with pcs := ⟨vectorAddr_even _, hm, hpc, hv⟩, mode := nofun }
  · exact { h with pcs := ⟨vectorAddr_even _, hm, hs, hpc⟩, mode := fun hvirt => ⟨(h.mode hvirt).1, nofun⟩ }

theorem raiseExc_hartOk (h : HartOk s) (e : Exc) (word : BitVec 32) : HartOk (raiseExc s e word) :=
  takeTrap_hartOk h _ _ _

theorem sppPriv_ne_machine (spp : Bool) : sppPriv spp ≠ .machine := by cases spp <;> decide

theorem returnMachine_hartOk (h : HartOk s) : HartOk (returnMachine s) := by
  obtain ⟨_, hm, hs, hv⟩ := h.pcs
  refine { h with pcs := ⟨hm, hm, hs, hv⟩, mode := fun hvirt => ?_ }
  simp only [returnMachine, Bool.and_eq_true, decide_eq_true_eq] at hvirt
  exact ⟨hvirt.1.1, hvirt.2⟩

theorem returnSupervisor_hartOk (h : HartOk s) : HartOk (returnSupervisor s) := by
  obtain ⟨_, hm, hs, hv⟩ := h.pcs
  exact { h with
    pcs := ⟨hs, hm, hs, hv⟩
    mode := fun hvirt => ⟨(Bool.and_eq_true_iff.mp hvirt).1, sppPriv_ne_machine _⟩ }

theorem returnVirtualSupervisor_hartOk (h : HartOk s) : HartOk (returnVirtualSupervisor s) := by
  obtain ⟨_, hm, hs, hv⟩ := h.pcs
  exact { h with
    pcs := ⟨hv, hm, hs, hv⟩
    mode := fun hvirt => ⟨(h.mode hvirt).1, sppPriv_ne_machine _⟩ }

theorem returnFromTrap_hartOk (h : HartOk s) : HartOk (returnFromTrap s) := by
  unfold returnFromTrap
  split
  · exact returnVirtualSupervisor_hartOk h
  · exact returnSupervisor_hartOk h

/-! ## A CSR access -/

theorem csrWrite_pcsEven (h : PcsEven s) (id : CsrId) (w : Word) : PcsEven (csrWrite s id w) := by
  obtain ⟨hpc, hm, hs, hv⟩ := h
  cases id with
  | mepc => exact ⟨hpc, evenAddr_even w, hs, hv⟩
  | sepc => exact ⟨hpc, hm, evenAddr_even w, hv⟩
  | vsepc => exact ⟨hpc, hm, hs, evenAddr_even w⟩
  | _ => exact ⟨hpc, hm, hs, hv⟩

theorem csrWrite_contextFits (h : ContextFits s) (id : CsrId) (w : Word) : ContextFits (csrWrite s id w) := by
  obtain ⟨hsc, hhc⟩ := h
  cases id with
  | scontext => exact ⟨contextStored_lt _ w, hhc⟩
  | hcontext => exact ⟨hsc, contextStored_lt _ w⟩
  | _ => exact ⟨hsc, hhc⟩

theorem csrWrite_ctlLegal (h : HartOk s) (id : CsrId) (w : Word) : CtlLegal s.cfg (csrWrite s id w).ctl := by
  rcases csrWrite_ctl s id w with heq | ⟨v, heq⟩ <;> rw [heq]
  · exact h.ctl
  · exact mstrcctlFields_legal h.smodLegal v

theorem csrWrite_hartOk (h : HartOk s) (id : CsrId) (w : Word) : HartOk (csrWrite s id w) where
  legal := by rw [csrWrite_cfg]; exact h.legal
  memory := by rw [csrWrite_mem]; exact h.memory
  x0 := by rw [csrWrite_x]; exact h.x0
  pcs := csrWrite_pcsEven h.pcs id w
  mode := by simp only [ModeLegal, csrWrite_virt, csrWrite_cfg, csrWrite_priv]; exact h.mode
  ctl := by rw [csrWrite_cfg]; exact csrWrite_ctlLegal h id w
  context := csrWrite_contextFits h.context id w

theorem csrPerform_hartOk (h : HartOk s) (id : CsrId) (isWrite : Bool) (newValue : Word → Word) (rd : Reg) :
    HartOk (csrPerform s id isWrite newValue rd) := by
  obtain ⟨hpc, _⟩ := h.pcs
  refine setPc_hartOk (writeReg_hartOk ?_ rd _) (add_even hpc (by decide))
  split
  · exact csrWrite_hartOk h id _
  · exact h

/-! ## What the hart executes -/

/-- An instruction of the table keeps the hart's part of the invariant, and the parameters. -/
theorem exec_hartOk {t : State} {i : Instr} (h : HartOk s) (hexec : exec i s = .next t) :
    HartOk t ∧ t.cfg = s.cfg := by
  rcases exec_cases i s with ⟨e, _, heq⟩ | ⟨id, newValue, rd, _, _, heq⟩ <;> rw [heq] at hexec <;> cases hexec
  · exact ⟨raiseExc_hartOk h e _, takeTrap_cfg _ _ _ _⟩
  · exact ⟨csrPerform_hartOk h _ _ _ _, csrPerform_cfg _ _ _ _ _⟩

theorem hostEffect_hartOk (h : HartOk s) (compressed : Bool) (op : HostOp) :
    HartOk (hostEffect s compressed op).1 := by
  obtain ⟨hpc, _⟩ := h.pcs
  have hnext : (s.pc + hostLength compressed).getLsbD 0 = false := add_even hpc (hostLength_even compressed)
  cases op with
  | compute rd v => exact setPc_hartOk (writeReg_hartOk h rd v) hnext
  | load rd addr =>
    have hdraws : HartOk { s with draws := s.draws + 8 } := { h with }
    exact setPc_hartOk (writeReg_hartOk hdraws rd _) hnext
  | store addr bytes =>
    have hstore : HartOk (storeBytes s addr bytes) := { h with memory := memWriteBytes_wf h.memory addr _ }
    exact setPc_hartOk hstore hnext
  | transfer kind rd v target => exact setPc_hartOk (writeReg_hartOk h rd v) (evenAddr_even target)
  | mret =>
    simp only [hostEffect]
    split
    · exact returnMachine_hartOk h
    · exact raiseExc_hartOk h _ _
  | sret =>
    simp only [hostEffect]
    split
    · split
      · exact raiseExc_hartOk h _ _
      · exact raiseExc_hartOk h _ _
    · exact returnFromTrap_hartOk h

theorem hostEffect_cfg (s : State) (compressed : Bool) (op : HostOp) : (hostEffect s compressed op).1.cfg = s.cfg :=
  (hostEffect_keeps s compressed op).1

theorem nextInput_hartOk (h : HartOk s) : HartOk s.nextInput := { h with }

theorem afterRead_hartOk {t : State} (h : HartOk t) (i : Instr) : HartOk (afterRead i s t) := by
  rw [afterRead_eq]; exact { h with }

end hart

end Sys2Proof.Machine
end

section
/-! SUPPORT. What keeps the whole invariant: the encoder's reaction, the hart's turn, and every entry of the agenda; and
the settlement of O8. -/

namespace Sys2Proof.Machine

/-! ## The encoder's part -/

/-- Items that went to the buffers keep the hart's part of the invariant: only STOF changes of it. -/
theorem withDelivery_hartOk {s : State} (h : HartOk s) (p : Encoder × Bool) : HartOk (s.withDelivery p) := { h with }

theorem withDelivery_encoderOk {s : State} {b : Bool} {p : Encoder × Bool} (h : EncoderOk s)
    (hp : Progress s.cfg (s.enc, b) p) (hcount : p.1.syncCount ≤ syncThreshold s.ctl.smax) :
    EncoderOk (s.withDelivery p) := by
  obtain ⟨hbuffer, _, hactive⟩ := h
  exact ⟨hp.buffer hbuffer, hcount, hp.active.trans hactive⟩

theorem emitNow_encoderOk {s : State} (h : EncoderOk s) (item : Item) : EncoderOk (emitNow s item) := by
  have ⟨_, hcount, _⟩ := h
  exact withDelivery_encoderOk h (emit_progress s _ _ item) (emit_count_le s _ item hcount)

/-- The periodic `Sync`, if it is due, completes the invariant. -/
theorem settleSync_inv {s : State} (h : HartOk s) (he : EncoderOk s) : Inv (settleSync s) := by
  have ⟨_, hcount, _⟩ := he
  exact (inv_iff _).mpr ⟨withDelivery_hartOk h _,
    withDelivery_encoderOk he (syncAfter_progress s _ _) (syncAfter_count_le s _ hcount), settleSync_settled s⟩

/-! ## The hart's turn -/

theorem stallOn_inv {s : State} (h : Inv s) (body : List Byte) : Inv (stallOn s body) := { h with }

theorem stalled_inv {s : State} (h : Inv s) : Inv (stalled s) := { h with }

theorem arrive_inv {s : State} (h : Inv s) : Inv (arrive s) := by
  have hmem := arrive_wf s h.memory
  rw [arrive_eq]
  exact { h with memory := hmem }

/-- An effect that keeps the hart's part of the invariant keeps all of it once the encoder has reacted: the instruction
stalls, or the reaction keeps the encoder within its bounds and generates the `Sync` that is due. -/
theorem observe_inv {s s' : State} (h : Inv s) (h' : HartOk s') (hcfg : s'.cfg = s.cfg) (own : Option Item) (n : Nat) :
    Inv (observe s s' own n) := by
  rcases observe_cases s s' own n with ⟨_, hstall⟩ | hreacts
  · rw [hstall]; exact stallOn_inv h _
  · obtain ⟨heq, _, _, hsync⟩ := encoderReacts_eq hreacts
    have hhart : HartOk (observe s s' own n) := by rw [heq]; exact { h' with }
    exact (inv_iff _).mpr ⟨hhart, encoderReacts_bounded hreacts hcfg h.encoder, hsync⟩

theorem observeInstr_inv {s t : State} {i : Instr} (h : Inv s) (hexec : exec i s.nextInput = .next t) :
    Inv (observeInstr i s t) := by
  obtain ⟨ht, hcfg⟩ := exec_hartOk (nextInput_hartOk h.hart) hexec
  obtain ⟨item, n, heq⟩ := observeInstr_eq i s t
  rw [heq]
  exact observe_inv h (afterRead_hartOk ht i) (by rw [afterRead_eq]; exact hcfg) _ n

theorem hostRetire_inv {s : State} (h : Inv s) (compressed : Bool) (op : HostOp) :
    Inv (hostRetire s compressed op) := by
  obtain ⟨item, n, heq⟩ := hostRetire_eq s compressed op
  rw [heq]
  exact observe_inv h (hostEffect_hartOk (nextInput_hartOk h.hart) compressed op) (hostEffect_cfg _ _ _) _ n

theorem hostTrap_inv {s : State} (h : Inv s) (interrupt : Bool) (cause : BitVec 6) (tval : Word) :
    Inv (hostTrap s interrupt cause tval) :=
  observe_inv h (takeTrap_hartOk (nextInput_hartOk h.hart) _ _ _) (takeTrap_cfg _ _ _ _) _ _

theorem hartActs_inv {s t : State} (h : Inv s) (hacts : hartActs s = .next t) : Inv t := by
  rcases hartActs_cases hacts with ⟨_, i, s', hexec, rfl⟩ | ⟨compressed, op, rfl⟩ | ⟨interrupt, cause, tval, rfl⟩
  · exact observeInstr_inv h hexec
  · exact hostRetire_inv h compressed op
  · exact hostTrap_inv h interrupt cause tval

theorem hartTurn_inv {s t : State} (h : Inv s) (hturn : hartTurn s = .next t) : Inv t := by
  rcases hartTurn_cases hturn with rfl | ⟨_, hacts⟩
  · exact stalled_inv h
  · exact hartActs_inv (arrive_inv h) hacts

/-! ## An entry of the agenda -/

/-- The invariant but for the periodic `Sync`, which may have become due. -/
abbrev InvUnsettled (s : State) : Prop := HartOk s ∧ EncoderOk s

theorem emitNow_unsettled {s : State} (h : InvUnsettled s) (item : Item) : InvUnsettled (emitNow s item) :=
  ⟨withDelivery_hartOk h.1 _, emitNow_encoderOk h.2 item⟩

theorem fireTrigger_unsettled {s : State} (h : InvUnsettled s) (a : TriggerAction) :
    InvUnsettled (fireTrigger s a) := by
  have ⟨hhart, hencoder⟩ := h
  rcases fireTrigger_cases s a with heq | ⟨_, b, heq⟩ | heq <;> rw [heq]
  · exact h
  · exact ⟨{ hhart with }, hencoder⟩
  · exact emitNow_unsettled h _

theorem emitExtra_unsettled {s : State} (h : InvUnsettled s) (x : ExtraItem) : InvUnsettled (emitExtra s x) := by
  rcases emitExtra_cases s x with heq | ⟨item, heq⟩ <;> rw [heq]
  · exact h
  · exact emitNow_unsettled h item

/-- Settling waiting items keeps the bounds of an encoder whose buffers are within their capacity. -/
theorem settleOwed_bounds {s : State} (h : EncoderOk s) {buffer : List Byte} (hbuffer : buffer.length ≤ s.cfg.bufCap)
    (ws : List Waiting) :
    (settleOwed s.cfg { s.enc with buffer := buffer } ws).buffer.length ≤ s.cfg.bufCap ∧
    (settleOwed s.cfg { s.enc with buffer := buffer } ws).syncCount ≤ syncThreshold s.ctl.smax ∧
    (settleOwed s.cfg { s.enc with buffer := buffer } ws).active = s.ctl.en := by
  obtain ⟨_, hcount, hactive⟩ := h
  obtain ⟨kbuffer, kcount, kactive, _⟩ := settleOwed_keeps s.cfg ws { s.enc with buffer := buffer }
  exact ⟨kbuffer hbuffer, kcount.trans_le hcount, kactive.trans hactive⟩

theorem handOverByte_unsettled {s : State} (h : InvUnsettled s) : InvUnsettled (handOverByte s) := by
  have ⟨hhart, hencoder⟩ := h
  have ⟨hbuffer, _⟩ := hencoder
  rcases handOverByte_cases s with heq | ⟨_, heq⟩ | ⟨b, bs, hbs, heq⟩ <;> rw [heq]
  · exact h
  · exact ⟨{ hhart with }, settleOwed_bounds hencoder hbuffer _⟩
  · have hrest : bs.length ≤ s.cfg.bufCap := by
      rw [hbs, List.length_cons] at hbuffer
      exact Nat.le_of_succ_le hbuffer
    exact ⟨{ hhart with }, settleOwed_bounds hencoder hrest _⟩

theorem disableSelfHosted_unsettled {s : State} (h : InvUnsettled s) : InvUnsettled (disableSelfHosted s) := by
  obtain ⟨hhart, _, hcount, hactive⟩ := h
  have hmem : memWf (disableSelfHosted s).mem := by
    have harrived := arrive_wf s hhart.memory
    simp only [disableSelfHosted]
    split
    · exact writePending_wf _ harrived
    · exact harrived
  exact ⟨{ hhart with memory := hmem }, Nat.zero_le _, hcount, hactive⟩

theorem enableSelfHosted_unsettled {s : State} (h : InvUnsettled s) : InvUnsettled (enableSelfHosted s) := by
  obtain ⟨hhart, _⟩ := h
  exact ⟨{ hhart with ctl := mstrcctlFields_legal hhart.smodLegal _ },
    List.length_take_le _ _, Nat.le_of_lt_succ (Nat.mod_lt _ (Nat.succ_pos _)), rfl⟩

theorem setDis_unsettled {s : State} (h : InvUnsettled s) (v : Bool) : InvUnsettled (setDis s v) := by
  unfold setDis
  split
  · exact h
  · split
    · exact disableSelfHosted_unsettled h
    · exact enableSelfHosted_unsettled h

theorem clockTick_unsettled {s : State} (h : InvUnsettled s) (waiting : Bool) : InvUnsettled (clockTick s waiting) := by
  obtain ⟨hhart, hbuffer, hcount, hactive⟩ := h
  obtain ⟨k, d, heq, hle⟩ := countCycle_fields s s.enc waiting
  rw [clockTick, heq]
  exact ⟨{ hhart with }, hbuffer, hle hcount, hactive⟩

theorem actItself_unsettled {s : State} (h : InvUnsettled s) (a : Action) : InvUnsettled (actItself s a) := by
  have ⟨hhart, hencoder⟩ := h
  cases a with
  | hart => exact h
  | trigger action => exact fireTrigger_unsettled h action
  | debuggerSetDis v => exact setDis_unsettled h v
  | debugMode v => exact ⟨{ hhart with }, hencoder⟩
  | encoderItem x => exact emitExtra_unsettled h x
  | handOver => exact handOverByte_unsettled h
  | sinkReady v =>
    show InvUnsettled (sinkAccepts s v)
    rw [sinkAccepts_eq]
    exact ⟨{ hhart with }, hencoder⟩
  | drain n =>
    have hmem := drainSink_wf s n hhart.memory
    show InvUnsettled (drainSink s n)
    rw [drainSink_eq]
    exact ⟨{ hhart with memory := hmem }, hencoder⟩
  | drainFault =>
    have hmem := drainFaults_wf s hhart.memory
    show InvUnsettled (drainFaults s)
    rw [drainFaults_eq]
    exact ⟨{ hhart with memory := hmem }, hencoder⟩
  | hartClock waiting => exact clockTick_unsettled h waiting
  | timeAdvance n => exact ⟨{ hhart with }, hencoder⟩
  | vmidChange v => exact ⟨{ hhart with }, hencoder⟩

theorem act_inv {s : State} (h : Inv s) (a : Action) : Inv (act s a) := by
  obtain ⟨hhart, hencoder⟩ := actItself_unsettled ⟨h.hart, h.encoder⟩ a
  exact settleSync_inv hhart hencoder

/-- The invariant does not speak of the turns to come. -/
theorem agenda_inv {s : State} (h : Inv s) (rest : List Action) : Inv { s with agenda := rest } := { h with }

/-- Settles O8: a step is the hart's turn or an entry of the agenda, and each keeps the invariant. -/
theorem stepKeepsInv : Obligations.StepKeepsInv := by
  intro s t h hstep
  rcases turn_cases hstep with ⟨u, hu, hturn⟩ | ⟨a, rest, _, _, rfl⟩
  · rcases hu with ⟨rfl, _⟩ | ⟨rest, _, rfl⟩
    · exact hartTurn_inv h hturn
    · exact hartTurn_inv (agenda_inv h rest) hturn
  · exact act_inv (agenda_inv h rest) a

end Sys2Proof.Machine
end

section
/-! SUPPORT. What software below M-mode may do to trace control, in a guest and in user mode, and the
settlement of O39. -/

namespace Sys2Proof.Machine

/-! ## Which CSRs an access check lets through -/

/-- A number names an STRC CSR, or what the host table says. -/
theorem csrOf_cases {c : Config} {n : Nat} {id : CsrId} (h : csrOf c n = some id) :
    id.isStrc = true ∨ hostCsrTable.lookup n = some id := by
  unfold csrOf at h
  split_ifs at h
  iterate 5 · cases h; exact Or.inl rfl
  · exact Or.inr h

/-- Below M-mode no access goes to `mstrcctl` by its own number (R129). -/
theorem ne_mstrcctl_of_checkAccess {s : State} {n : Nat} {isWrite : Bool} {id : CsrId} (hpriv : s.priv ≠ .machine)
    (hid : csrOf s.cfg n = some id) (hok : checkAccess s n isWrite = none) : id ≠ .mstrcctl := by
  rintro rfl
  simp only [checkAccess, hid, CsrId.isStrc, Bool.true_or, if_true, checkStrcAccess] at hok
  split_ifs at hok

/-- In user mode the STRC and context CSRs are out of reach (R129). -/
theorem checkStrcAccess_user {s : State} (hpriv : s.priv = .user) (id : CsrId) : checkStrcAccess s id ≠ none := by
  unfold checkStrcAccess
  cases hvirt : s.virt
  · simp [hpriv]
  · simp only [Bool.and_eq_true, decide_eq_true_eq, Bool.not_eq_eq_eq_not, Bool.not_true, hpriv, reduceCtorEq,
      ↓reduceIte, Bool.or_eq_true, decide_true, Bool.and_true, Bool.false_eq_true, Bool.true_and, Bool.and_self,
      ite_self, ne_eq]
    split_ifs <;> simp

/-- The host CSRs that user mode may reach are read-only (R104, R105). -/
theorem readOnly_or_level_of_hostCsrTable {n : Nat} {id : CsrId} (h : hostCsrTable.lookup n = some id) :
    csrReadOnly n = true ∨ csrLevel n ≠ 0 := by
  have table : ∀ p ∈ hostCsrTable, csrReadOnly p.1 = true ∨ csrLevel p.1 ≠ 0 := by decide
  obtain ⟨l₁, l₂, hl, _⟩ := List.lookup_eq_some_iff.mp h
  exact table (n, id) (by simp [hl])

theorem checkHostAccess_user_write {s : State} {n : Nat} (hpriv : s.priv = .user)
    (h : csrReadOnly n = true ∨ csrLevel n ≠ 0) (id : CsrId) : checkHostAccess s id n true ≠ none := by
  unfold checkHostAccess
  rcases h with hro | hlevel
  · simp only [hro, Bool.and_self, if_true]
    split_ifs <;> simp
  · simp only [hpriv, hlevel, if_false]
    split_ifs <;> simp_all

/-- User mode can write no CSR. -/
theorem checkAccess_user_write {s : State} (hpriv : s.priv = .user) (n : Nat) : checkAccess s n true ≠ none := by
  unfold checkAccess
  split
  · simp
  · rename_i id hid
    split
    · exact checkStrcAccess_user hpriv id
    · rename_i hother
      have hhost := (csrOf_cases hid).resolve_left fun hs => hother (by simp [hs])
      exact checkHostAccess_user_write hpriv (readOnly_or_level_of_hostCsrTable hhost) id

/-! ## What a CSR write keeps of the privileged enable bits -/

theorem writeSstrcctl_keepM (s : State) (w : Word) :
    s.writeSstrcctl w = { s with ctl := { mstrcctlFields s.cfg w with m := s.ctl.m } } := by
  rw [writeSstrcctl_eq, mstrcctlFields_keepM]

theorem writeVsstrcctl_keepMSU (s : State) (w : Word) :
    s.writeVsstrcctl w =
      { s with
        vsctl := ⟨w.getLsbD 62, w.getLsbD 61⟩
        ctl := { mstrcctlFields s.cfg w with m := s.ctl.m, s := s.ctl.s, u := s.ctl.u } } := by
  rw [writeVsstrcctl_eq, mstrcctlFields_keepMSU]

/-- Only a write of `mstrcctl` itself changes M (R44, R143). -/
theorem csrWrite_ctl_m (s : State) {id : CsrId} (h : id ≠ .mstrcctl) (w : Word) :
    (csrWrite s id w).ctl.m = s.ctl.m := by
  cases id with
  | mstrcctl => exact absurd rfl h
  | sstrcctl => exact congrArg (·.ctl.m) (writeSstrcctl_keepM s w)
  | vsstrcctl => exact congrArg (·.ctl.m) (writeVsstrcctl_keepMSU s w)
  | _ => rfl

/-- Only a write of `mstrcctl` or `sstrcctl` changes the S and U of `mstrcctl` (R143, D4). -/
theorem csrWrite_ctl_su (s : State) {id : CsrId} (hm : id ≠ .mstrcctl) (hs : id ≠ .sstrcctl) (w : Word) :
    (csrWrite s id w).ctl.s = s.ctl.s ∧ (csrWrite s id w).ctl.u = s.ctl.u := by
  cases id with
  | mstrcctl => exact absurd rfl hm
  | sstrcctl => exact absurd rfl hs
  | vsstrcctl =>
    have h := writeVsstrcctl_keepMSU s w
    exact ⟨congrArg (·.ctl.s) h, congrArg (·.ctl.u) h⟩
  | _ => exact ⟨rfl, rfl⟩

theorem resolveCsr_ne_mstrcctl {id : CsrId} (h : id ≠ .mstrcctl) (virt : Bool) : resolveCsr id virt ≠ .mstrcctl := by
  cases virt
  · exact h
  · cases id <;> simp_all [resolveCsr]

/-- With V = 1 no access goes to `sstrcctl` (R137). -/
theorem resolveCsr_ne_sstrcctl (id : CsrId) : resolveCsr id true ≠ .sstrcctl := by
  cases id <;> simp [resolveCsr]

/-! ## What stays of the trace control -/

/-- What a step that begins in `s`, below M-mode, keeps of the trace control. -/
structure PrivilegeKeeps (s t : State) : Prop where
  m : t.ctl.m = s.ctl.m
  guest : s.virt = true → t.ctl.s = s.ctl.s ∧ t.ctl.u = s.ctl.u
  user : s.priv = .user →
    t.ctl = { s.ctl with it := t.ctl.it, stof := t.ctl.stof } ∧ t.vsctl = s.vsctl ∧ t.env = s.env

/-- What hardware may write is open to a step in every mode. -/
theorem HardwareKeeps.privilegeKeeps {s t : State} (h : HardwareKeeps s t) : PrivilegeKeeps s t where
  m := by rw [h.ctl]
  guest _ := by rw [h.ctl]; exact ⟨rfl, rfl⟩
  user _ := ⟨h.ctl, h.vsctl, h.env⟩

theorem PrivilegeKeeps.then_hardware {s t u : State} (h : PrivilegeKeeps s t) (k : HardwareKeeps t u) :
    PrivilegeKeeps s u where
  m := by rw [k.ctl]; exact h.m
  guest hv := by rw [k.ctl]; exact h.guest hv
  user hu := by
    obtain ⟨hctl, hvsctl, henv⟩ := h.user hu
    exact ⟨by rw [k.ctl, hctl], k.vsctl.trans hvsctl, k.env.trans henv⟩

/-- A state that agrees on the trace control and the mode keeps the same. -/
theorem PrivilegeKeeps.of_agreeing {s u t : State} (h : PrivilegeKeeps u t) (hctl : u.ctl = s.ctl)
    (hvsctl : u.vsctl = s.vsctl) (henv : u.env = s.env) (hpriv : u.priv = s.priv) (hvirt : u.virt = s.virt) :
    PrivilegeKeeps s t := by
  obtain ⟨hm, hguest, huser⟩ := h
  rw [hctl] at hm hguest huser
  rw [hvirt] at hguest
  rw [hpriv, hvsctl, henv] at huser
  exact ⟨hm, hguest, huser⟩

/-! ## What the hart does -/

/-- A CSR access that is let through below M-mode: user mode writes nothing, and the others reach the enable bits of
their own level and below. -/
theorem csrPerform_privilegeKeeps {s : State} {n : Nat} {isWrite : Bool} {id : CsrId} (hpriv : s.priv ≠ .machine)
    (hid : csrOf s.cfg n = some id) (hok : checkAccess s n isWrite = none) (f : Word → Word) (rd : Reg) :
    PrivilegeKeeps s (csrPerform s (resolveCsr id s.virt) isWrite f rd) := by
  have hne := resolveCsr_ne_mstrcctl (ne_mstrcctl_of_checkAccess hpriv hid hok) s.virt
  cases isWrite with
  | false =>
    exact (HardwareKeeps.of_same (by simp [csrPerform_ctl]) (by simp [csrPerform_vsctl]) (by simp [csrPerform_env])
      (by simp)).privilegeKeeps
  | true =>
    refine ⟨?_, fun hvirt => ?_, fun huser => absurd hok (checkAccess_user_write huser n)⟩
    · rw [csrPerform_ctl, if_pos rfl, csrWrite_ctl_m s hne]
    · rw [csrPerform_ctl, if_pos rfl]
      exact csrWrite_ctl_su s hne (by rw [hvirt]; exact resolveCsr_ne_sstrcctl id) _

theorem exec_privilegeKeeps {i : Instr} {s t : State} (hpriv : s.priv ≠ .machine) (h : exec i s = .next t) :
    PrivilegeKeeps s t := by
  rcases exec_cases i s with ⟨e, _, heq⟩ | ⟨id, f, rd, hok, hid, heq⟩ <;> rw [heq] at h <;> cases h
  · exact (HardwareKeeps.of_same (takeTrap_ctl ..) (takeTrap_vsctl ..) (takeTrap_env ..)
      (takeTrap_dis ..)).privilegeKeeps
  · exact csrPerform_privilegeKeeps hpriv hid hok f rd

/-- The encoder's reaction writes STOF alone of trace control: to the state before the instruction when that stalls, and
else to the state after it. -/
theorem observe_hardwareKeeps (s s' : State) (own : Option Item) (n : Nat) :
    HardwareKeeps s (observe s s' own n) ∨ HardwareKeeps s' (observe s s' own n) := by
  rcases observe_cases s s' own n with ⟨_, h⟩ | h
  · rw [h]; exact Or.inl ⟨rfl, fun _ => rfl, fun _ => rfl, rfl, rfl, rfl⟩
  · obtain ⟨heq, _, hstof, _⟩ := encoderReacts_eq h
    rw [heq]; exact Or.inr ⟨rfl, fun _ => rfl, hstof, rfl, rfl, rfl⟩

theorem observe_privilegeKeeps {s s' : State} (h : PrivilegeKeeps s s') (own : Option Item) (n : Nat) :
    PrivilegeKeeps s (observe s s' own n) :=
  (observe_hardwareKeeps s s' own n).elim HardwareKeeps.privilegeKeeps h.then_hardware

theorem hostEffect_hardwareKeeps (s : State) (compressed : Bool) (op : HostOp) :
    HardwareKeeps s (hostEffect s.nextInput compressed op).1 := by
  obtain ⟨_, hctl, hvsctl, henv, hdis, _⟩ := hostEffect_keeps s.nextInput compressed op
  exact .of_same hctl hvsctl henv hdis

theorem hartActs_privilegeKeeps {s t : State} (hpriv : s.priv ≠ .machine) (h : hartActs s = .next t) :
    PrivilegeKeeps s t := by
  rcases hartActs_cases h with ⟨_, i, s', hexec, rfl⟩ | ⟨compressed, op, rfl⟩ | ⟨interrupt, cause, tval, rfl⟩
  · obtain ⟨item, n, heq⟩ := observeInstr_eq i s s'
    have hexec' : PrivilegeKeeps s s' :=
      (exec_privilegeKeeps (s := s.nextInput) hpriv hexec).of_agreeing rfl rfl rfl rfl rfl
    have hread : HardwareKeeps s' (afterRead i s s') := by rw [afterRead_eq]; exact .of_same rfl rfl rfl rfl
    rw [heq]
    exact observe_privilegeKeeps (hexec'.then_hardware hread) _ n
  · obtain ⟨item, n, heq⟩ := hostRetire_eq s compressed op
    rw [heq]
    exact observe_privilegeKeeps (hostEffect_hardwareKeeps s compressed op).privilegeKeeps _ n
  · have htrap : HardwareKeeps s (takeTrap s.nextInput interrupt cause tval) :=
      .of_same (takeTrap_ctl ..) (takeTrap_vsctl ..) (takeTrap_env ..) (takeTrap_dis ..)
    exact observe_privilegeKeeps htrap.privilegeKeeps _ 0

theorem hartTurn_privilegeKeeps {s t : State} (hpriv : s.priv ≠ .machine) (h : hartTurn s = .next t) :
    PrivilegeKeeps s t := by
  rcases hartTurn_cases h with rfl | ⟨_, hacts⟩
  · exact HardwareKeeps.privilegeKeeps ⟨rfl, fun _ => rfl, fun _ => rfl, rfl, rfl, rfl⟩
  · rw [arrive_eq] at hacts
    exact (hartActs_privilegeKeeps (by exact hpriv) hacts).of_agreeing rfl rfl rfl rfl rfl

/-- Settles O39: the hart's turn reaches only the enable bits its mode may write, and the other agents write IT and STOF
alone. -/
theorem privilegeOverTraceControl : Obligations.PrivilegeOverTraceControl := by
  intro s t hstep hdebugger hpriv
  have hkeeps : PrivilegeKeeps s t := by
    rcases turn_cases hstep with ⟨u, hu, hturn⟩ | ⟨a, rest, hagenda, _, rfl⟩
    · rcases hu with ⟨rfl, _⟩ | ⟨rest, _, rfl⟩
      · exact hartTurn_privilegeKeeps hpriv hturn
      · exact (hartTurn_privilegeKeeps (by exact hpriv) hturn).of_agreeing rfl rfl rfl rfl rfl
    · have ha (v : Bool) : a ≠ .debuggerSetDis v := fun h => hdebugger v (by rw [hagenda, h]; rfl)
      exact (act_hardwareKeeps _ a ha).privilegeKeeps.of_agreeing rfl rfl rfl rfl rfl
  refine ⟨hkeeps.m, hkeeps.guest, fun huser => ?_⟩
  obtain ⟨hctl, hvsctl, henv⟩ := hkeeps.user huser
  exact ⟨hctl, hvsctl, by rw [henv], by rw [henv], by rw [henv], by rw [henv], by rw [henv], by rw [henv]⟩

end Sys2Proof.Machine
end

section
/-! SUPPORT. What reads and writes of the trace CSRs, the context CSRs and the counters give, the reset state, and the
settlement of O9, O29, O31, O36 and O38. -/

namespace Sys2Proof.Machine

/-! ## Writes -/

/-- Settles O36: the word handed to `mstrcctl` keeps M, S and U. -/
theorem vsstrcctlWriteKeepsMSU : Obligations.VsstrcctlWriteKeepsMSU := writeVsstrcctl_keepMSU

/-- With at most 32 bits implemented, a context CSR holds the low ones. -/
theorem contextStored_toNat {bits : Nat} (h : bits ≤ 32) (w : Word) :
    ((contextStored bits w).setWidth 64).toNat = w.toNat % 2 ^ bits := by
  have hlt : w.toNat % 2 ^ bits < 2 ^ 32 :=
    lt_of_lt_of_le (Nat.mod_lt _ (Nat.two_pow_pos bits)) (Nat.pow_le_pow_right (by decide) h)
  rw [BitVec.toNat_setWidth, contextStored, BitVec.toNat_ofNat, Nat.mod_eq_of_lt hlt, Nat.mod_eq_of_lt (by omega)]

/-- Settles O38. -/
theorem contextCsrWrites : Obligations.ContextCsrWrites := fun _ w =>
  ⟨fun hs hh => ⟨contextStored_toNat hs w, contextStored_toNat hh w⟩, rfl, rfl⟩

/-! ## Reads -/

/-- Every bit outside the named fields and EMPTY reads 0 (R43). -/
theorem mstrcctlWord_wpri (c : StrcCtl) (e : Bool) : mstrcctlWord c e &&& 0x0FFF_FF00_FF86_62F8#64 = 0 := by
  apply BitVec.eq_of_getLsbD_eq
  intro j hj
  rw [BitVec.getLsbD_and, mstrcctlWord_getLsbD _ _ _ hj]
  interval_cases j <;> simp

/-- An access that only reads changes at most a register and the pc. -/
theorem csrPerform_read (s : State) (id : CsrId) (f : Word → Word) (rd : Reg) :
    csrPerform s id false f rd =
      { s with x := (csrPerform s id false f rd).x, pc := (csrPerform s id false f rd).pc } := by
  simp only [csrPerform, Bool.false_eq_true, if_false, State.writeReg]
  split <;> rfl

/-- A pure read that the check lets through is performed on the CSR its number resolves to. -/
theorem exec_csrrs_read {s : State} {csr : Nat} {id : CsrId} (hok : checkAccess s csr false = none)
    (hid : csrOf s.cfg csr = some id) (rd : Reg) :
    ∃ f, exec (.csrrs rd csr 0) s = .next (csrPerform s (resolveCsr id s.virt) false f rd) :=
  ⟨_, congrArg _ (csrAccess_of_ok hok hid _ rd _)⟩

/-- Settles O31, from the layout of `mstrcctl` and the frame of a pure read. -/
theorem csrReadValues : Obligations.CsrReadValues := by
  intro s hbit
  refine ⟨⟨mstrcctlWord_en .., mstrcctlWord_empty .., mstrcctlWord_it .., mstrcctlWord_cen .., mstrcctlWord_iten ..,
    mstrcctlWord_stof .., mstrcctlWord_sten .., mstrcctlWord_smod .., mstrcctlWord_smax .., mstrcctlWord_nta ..,
    mstrcctlWord_esj .., mstrcctlWord_eir .., mstrcctlWord_ebp .., mstrcctlWord_etc .., mstrcctlWord_erh ..,
    mstrcctlWord_eaj .., mstrcctlWord_eam .., mstrcctlWord_tsen .., mstrcctlWord_u .., mstrcctlWord_s ..,
    mstrcctlWord_m .., mstrcctlWord_wpri .., rfl, rfl⟩, rfl, rfl, fun hstrc => ⟨?_, ?_⟩, fun rd csr hok => ?_⟩
  · show (putBit s.env.henvcfgRest 58 s.strcv).getLsbD 58 = false
    rw [getLsbD_putBit _ _ _ _ (by decide), if_pos rfl, State.strcv, hstrc, Bool.and_false, Bool.false_and]
  · show (putBit _ s.cfg.strcSeBit s.hSTRC).getLsbD s.cfg.strcSeBit = false
    rw [getLsbD_putBit _ _ _ _ hbit, if_pos rfl, State.hSTRC, hstrc, Bool.false_and]
  · obtain ⟨id, hid⟩ := csrOf_of_checkAccess_none hok
    obtain ⟨f, hexec⟩ := exec_csrrs_read hok hid rd
    exact ⟨_, hexec, csrPerform_read ..⟩

/-! ## The read-only counters -/

/-- A counter that every mode may read and none write: its number is of level 0 and read-only (R104, R105). -/
theorem checkAccess_counter {s : State} {n : Nat} {id : CsrId} (hid : csrOf s.cfg n = some id)
    (hcounter : id = .time ∨ id = .cycle) (hlevel : csrLevel n = 0) (hro : csrReadOnly n = true) (isWrite : Bool) :
    checkAccess s n isWrite = if isWrite then some .illegalInstruction else none := by
  have hhost : checkAccess s n isWrite = checkHostAccess s id n isWrite := by
    simp only [checkAccess, hid]
    rcases hcounter with rfl | rfl <;> rfl
  have hexists : hostCsrExists s.cfg id = true := by rcases hcounter with rfl | rfl <;> rfl
  rw [hhost]
  cases isWrite <;> simp [checkHostAccess, hexists, hlevel, hro]

theorem checkAccess_time {s : State} (h : CsrNumbersLegal s.cfg) (isWrite : Bool) :
    checkAccess s 0xC01 isWrite = if isWrite then some .illegalInstruction else none :=
  checkAccess_counter (csrOf_host h rfl) (Or.inl rfl) rfl rfl isWrite

theorem checkAccess_cycle {s : State} (h : CsrNumbersLegal s.cfg) (isWrite : Bool) :
    checkAccess s 0xC00 isWrite = if isWrite then some .illegalInstruction else none :=
  checkAccess_counter (csrOf_host h rfl) (Or.inr rfl) rfl rfl isWrite

theorem resolveCsr_counter {id : CsrId} (virt : Bool) (h : id = .time ∨ id = .cycle) : resolveCsr id virt = id := by
  rcases h with rfl | rfl <;> cases virt <;> rfl

/-- An access puts the CSR's old value in `rd`. -/
theorem csrPerform_readReg_rd (s : State) (id : CsrId) (b : Bool) (f : Word → Word) (rd : Reg) :
    (csrPerform s id b f rd).readReg rd = if rd = 0 then 0 else csrRead s id := by
  rw [csrPerform_readReg]
  by_cases h : rd = 0 <;> simp [h]

/-- An instruction that the check raises for takes that exception. -/
theorem exec_of_raise {i : Instr} {s : State} {e : Exc} (h : instrRaises i s = some e) :
    exec i s = .next (raiseExc s e (encode i)) := by
  obtain ⟨f, rd, hexec⟩ := exec_eq_csrAccess i s
  rw [hexec, csrAccess_of_raise h]

/-- Settles O29: the check depends on the number alone, in every mode. -/
theorem countersAreReadOnly : Obligations.CountersAreReadOnly := by
  intro s rd hlegal
  refine ⟨?_, ?_, fun i hn hw => ?_⟩
  · obtain ⟨f, hexec⟩ := exec_csrrs_read (checkAccess_time hlegal false) (csrOf_host hlegal (id := .time) rfl) rd
    refine ⟨_, hexec, rfl, ?_⟩
    rw [csrPerform_readReg_rd, resolveCsr_counter s.virt (Or.inl rfl)]
    rfl
  · obtain ⟨f, hexec⟩ := exec_csrrs_read (checkAccess_cycle hlegal false) (csrOf_host hlegal (id := .cycle) rfl) rd
    refine ⟨_, hexec, rfl, ?_⟩
    rw [csrPerform_readReg_rd, resolveCsr_counter s.virt (Or.inr rfl)]
    rfl
  · have hraise : instrRaises i s = some .illegalInstruction := by
      rw [instrRaises, hw]
      rcases hn with hn | hn <;> rw [hn]
      · exact checkAccess_cycle hlegal true
      · exact checkAccess_time hlegal true
    exact exec_of_raise hraise

/-! ## Reset -/

/-- Below the threshold no `Sync` is due (R168). -/
theorem syncDue_of_count_lt {s : State} {e : Encoder} (h : e.syncCount < syncThreshold s.ctl.smax) :
    syncDue s e = false := by
  simp [syncDue, Nat.not_le.mpr h]

theorem resetWith_inv {c : Config} {r : ResetValues} (hc : Legal c) (hctl : CtlLegal c r.ctl)
    (hs : r.scontext.toNat < 2 ^ c.scontextBits) (hh : r.hcontext.toNat < 2 ^ c.hcontextBits) :
    Inv (State.resetWith c r) where
  legal := hc
  memory := ⟨List.Pairwise.nil, by simp [State.resetWith]⟩
  x0 := by simp [State.resetWith]
  pcs := by
    obtain ⟨_, _, _, _, _, _, _, _, _, _, hvector⟩ := hc
    exact ⟨hvector, BitVec.getLsbD_zero, BitVec.getLsbD_zero, BitVec.getLsbD_zero⟩
  mode := nofun
  ctl := hctl
  context := ⟨hs, hh⟩
  encoder := ⟨Nat.zero_le _, Nat.zero_le _, rfl⟩
  sync := syncDue_of_count_lt (syncThreshold_pos _)

/-- Settles O9: `State.reset` is the reset state of one legal implementation. -/
theorem resetMeetsInv : Obligations.ResetMeetsInv :=
  ⟨resetWith_inv (by decide) (by decide) (by decide) (by decide), fun _ _ hc hctl hs hh => resetWith_inv hc hctl hs hh⟩

end Sys2Proof.Machine
end

section
/-! SUPPORT. What a record carries: its context and its timestamp, and the settlement of O53 and O54. -/

namespace Sys2Proof.Machine

/-! ## The context -/

/-- Settles O54: the two halves of the context value. -/
theorem contextReported : Obligations.ContextReported := by
  intro s item
  refine ⟨fun hcen => ?_, fun hcen => ⟨⟨s.contextValue, s.reportedVmid⟩, ?_, ?_, ?_⟩⟩
  · simp [mkRecord, State.contextReport, hcen]
  · simp [mkRecord, State.contextReport, hcen]
  · rw [State.contextValue, BitVec.extractLsb'_append_eq_right]
  · rw [State.contextValue, BitVec.extractLsb'_append_eq_left]
    simp only [Bool.and_eq_true]
    rfl

/-! ## The timestamp of an item -/

theorem mkRecord_time_off {s : State} (h : s.ctl.tsen = false) (item : Item) : (mkRecord s item).time = none := by
  simp [mkRecord, State.timestamp, h]

theorem mkRecord_time_on {s : State} (h : s.ctl.tsen = true) (item : Item) :
    (mkRecord s item).time = some (timestampOf s.cfg s.timestampValue) := by
  simp [mkRecord, State.timestamp, h]

theorem timestampValue_eq (s : State) :
    s.timestampValue = if s.strcs = true ∧ s.strcv = true then s.time + s.env.htimedelta else s.time := by
  simp only [State.timestampValue, State.guestCfg, Bool.and_eq_true]

/-- The two parts of an E-trace timestamp are the low `time_width_p` bits, split at bit 16 (R176). -/
theorem format3Time_encapTime {width : Nat} (h : 16 ≤ width) (t : Word) :
    (format3Time width t).toNat * 2 ^ 16 + (encapTime t).toNat = t.toNat % 2 ^ width := by
  have hle : t.toNat % 2 ^ width / 2 ^ 16 < 2 ^ 64 :=
    lt_of_le_of_lt ((Nat.div_le_self _ _).trans (Nat.mod_le _ _)) t.isLt
  have hlow : t.toNat % 2 ^ 16 = t.toNat % 2 ^ width % 2 ^ 16 := (Nat.mod_mod_of_dvd _ (Nat.pow_dvd_pow 2 h)).symm
  rw [format3Time, encapTime, BitVec.toNat_ofNat, BitVec.toNat_setWidth, Nat.mod_eq_of_lt hle, hlow]
  exact Nat.div_add_mod' _ _

/-! ## The timestamp of a packet that reports control transfers -/

theorem stamp_time (c : Config) (f : StrcCtl) (e : Encoder) (r : Record) :
    (stamp c f e r).time =
      if r.time.isSome ∧ (lastTransfer e r).isSome ∧ reports c f e r then lastTransfer e r else r.time := by
  unfold stamp
  cases lastTransfer e r with
  | none => simp
  | some t =>
    simp only [Option.isSome_some, Bool.and_eq_true, true_and]
    split <;> rfl

/-- The control transfers that wait to be reported after an item: none once a packet of some bytes has reported them. -/
theorem deliver_transferTime {c : Config} {f : StrcCtl} {stall : Bool} {p q : Encoder × Bool} {r : Record}
    (h : deliver c f stall p r = some q) :
    q.1.transferTime = if itemBytes c f p.1 r ≠ [] ∧ reports c f p.1 r then none else lastTransfer p.1 r := by
  have hnote : q.1.transferTime = (noteItem c f p.1 r (itemBytes c f p.1 r)).transferTime := by
    rcases deliver_cases h with ⟨_, rfl⟩ | ⟨_, _, _, rfl⟩ | ⟨_, _, _, _, rfl⟩ <;> rfl
  simp [hnote, noteItem]

/-- Settles O53. -/
theorem timestampValue : Obligations.TimestampValue := by
  refine ⟨fun s item => ?_, fun c f stall p q r h => ⟨stamp_time c f p.1 r, deliver_transferTime h⟩⟩
  rw [← timestampValue_eq s]
  refine ⟨fun hoff => mkRecord_time_off hoff item, fun hon hkind => ?_, fun hon hkind hwidth => ?_⟩
  · rw [mkRecord_time_on hon, timestampOf, hkind]
  · refine ⟨format3Time s.cfg.etrace.timeWidth s.timestampValue, encapTime s.timestampValue, ?_,
      format3Time_encapTime hwidth _⟩
    rw [mkRecord_time_on hon, timestampOf, hkind]

end Sys2Proof.Machine
end

section
/-! SUPPORT. That nothing but a hand-over of bytes or the debugger's bit ends a stall, and the settlement of O6. -/

namespace Sys2Proof.Machine

/-! ## What is laid out for a packet that comes after another -/

/-- How many bytes a packet of `n` bytes takes in the stream at `pos` (R187). -/
theorem layOut_etrace_length (pos : Nat) (body : List Byte) :
    (layOut .etrace pos body).length =
      if pos % 4096 = 0 ∨ 4096 < pos % 4096 + body.length then (4096 - pos % 4096) % 4096 + 33 + body.length
      else body.length := by
  have hopens : opensBlock pos body.length = true ↔ pos % 4096 = 0 ∨ 4096 < pos % 4096 + body.length := by
    rw [opensBlock, Bool.or_eq_true, decide_eq_true_eq, decide_eq_true_eq]
    rfl
  simp only [layOut, hopens]
  split
  · simp [encapBlock, encapSyncBytes, encapSyncLength, Nat.add_assoc]
  · rfl

/-- Another packet before it does not make room for a packet: both together take no less than it takes alone. -/
theorem layOut_length_le (kind : TraceKind) (pos : Nat) (first body : List Byte) :
    (layOut kind pos body).length ≤
      (layOut kind pos first).length + (layOut kind (pos + (layOut kind pos first).length) body).length := by
  cases kind with
  | ntrace => exact Nat.le_add_left _ _
  | etrace =>
    simp only [layOut_etrace_length]
    split_ifs <;> omega

/-! ## A stalled encoder -/

/-- The encoder stalls the hart: `State.hartHeld`, of which it is the encoder's part. -/
def encoderHeld (c : Config) (e : Encoder) : Bool := !e.owed.isEmpty || (!e.held.isEmpty && !fitsBuffer c e e.held)

theorem hartHeld_eq (s : State) : s.hartHeld = encoderHeld s.cfg s.enc := rfl

theorem encoderHeld_iff {c : Config} {e : Encoder} :
    encoderHeld c e = true ↔ e.owed ≠ [] ∨ (e.held ≠ [] ∧ fitsBuffer c e e.held = false) := by
  simp [encoderHeld]

/-- What does not fit does not fit after another item either. -/
theorem fitsBuffer_appendItem {c : Config} {e : Encoder} {body : List Byte} (h : fitsBuffer c e body = false)
    (r : Record) (first : List Byte) : fitsBuffer c (appendItem c e r first) body = false := by
  have hle := layOut_length_le c.kind e.produced first body
  simp only [fitsBuffer, decide_eq_false_iff_not, appendItem, List.length_append] at h ⊢
  omega

theorem deliver_held {c : Config} {f : StrcCtl} {stall : Bool} {p q : Encoder × Bool} {r : Record}
    (h : deliver c f stall p r = some q) (hheld : encoderHeld c p.1 = true) : encoderHeld c q.1 = true := by
  rcases deliver_cases h with ⟨_, rfl⟩ | ⟨_, _, n, rfl⟩ | ⟨_, _, _, n, rfl⟩
  · exact hheld
  · rw [encoderHeld_iff] at hheld ⊢
    exact hheld.imp_right fun ⟨hsome, hfit⟩ => ⟨hsome, fitsBuffer_appendItem (by exact hfit) _ _⟩
  · exact hheld

/-- An item of the encoder's own does not end a stall. -/
theorem emit_held (s : State) (stall : Bool) {p : Encoder × Bool} (item : Item)
    (hheld : encoderHeld s.cfg p.1 = true) : encoderHeld s.cfg (emit s stall p item).1 = true := by
  rcases emit_cases s stall p item with ⟨_, h⟩ | ⟨_, h⟩
  · exact deliver_held h hheld
  · rw [h, encoderHeld_iff]
    exact Or.inl (List.append_ne_nil_of_right_ne_nil _ (List.cons_ne_nil _ _))

theorem emitNow_held {s : State} (h : s.hartHeld = true) (item : Item) : (emitNow s item).hartHeld = true :=
  emit_held s s.ctl.sten (p := (s.enc, false)) item h

theorem settleSync_held {s : State} (h : s.hartHeld = true) : (settleSync s).hartHeld = true := by
  show encoderHeld s.cfg (syncAfter s s.ctl.sten (s.enc, false)).1 = true
  unfold syncAfter
  split
  · exact emit_held s _ _ h
  · exact h

/-- The turns of the other agents but a hand-over and the debugger's leave a stall as it is. -/
theorem actItself_held {s : State} {a : Action} (h : s.hartHeld = true) (hhand : a ≠ .handOver)
    (hdebugger : ∀ v, a ≠ .debuggerSetDis v) : (actItself s a).hartHeld = true := by
  cases a with
  | trigger action =>
    show (fireTrigger s action).hartHeld = true
    rcases fireTrigger_cases s action with heq | ⟨_, b, heq⟩ | heq <;> rw [heq]
    · exact h
    · exact h
    · exact emitNow_held h _
  | debuggerSetDis v => exact absurd rfl (hdebugger v)
  | encoderItem x =>
    show (emitExtra s x).hartHeld = true
    rcases emitExtra_cases s x with heq | ⟨item, heq⟩ <;> rw [heq]
    · exact h
    · exact emitNow_held h item
  | handOver => exact absurd rfl hhand
  | sinkReady v =>
    show (sinkAccepts s v).hartHeld = true
    rw [sinkAccepts_eq]; exact h
  | drain n =>
    show (drainSink s n).hartHeld = true
    rw [drainSink_eq]; exact h
  | drainFault =>
    show (drainFaults s).hartHeld = true
    rw [drainFaults_eq]; exact h
  | hartClock waiting =>
    obtain ⟨k, d, heq, _⟩ := countCycle_fields s s.enc waiting
    show (clockTick s waiting).hartHeld = true
    rw [clockTick, heq]; exact h
  | hart | debugMode | timeAdvance | vmidChange => exact h

theorem act_held {s : State} {a : Action} (h : s.hartHeld = true) (hhand : a ≠ .handOver)
    (hdebugger : ∀ v, a ≠ .debuggerSetDis v) : (act s a).hartHeld = true :=
  settleSync_held (actItself_held h hhand hdebugger)

/-! ## The hart's turn when it runs no instruction -/

theorem step_of_held {s : State} (hagenda : s.agenda = []) (h : s.hartHeld = true) : step s = .next (stalled s) := by
  rw [step_of_empty_agenda hagenda, hartTurn, if_pos h]

/-- When no base instruction or trap is its next input, a hart that is not stalled fetches from memory as what was
promised to it has left it. -/
theorem step_of_table {s : State} (hagenda : s.agenda = []) (hfree : s.hartHeld = false)
    (hinput : s.hartInputs = [] ∨ s.hartInputs.head? = some .table) : step s = tableTurn (arrive s) := by
  rw [step_of_hart_turn (Or.inl ⟨hagenda, rfl⟩) hfree]
  rcases hinput with hnil | hhead
  · exact (hartActs_of_table (Or.inl ⟨by rw [arrive_hartInputs, hnil], rfl⟩)).1
  · obtain ⟨rest, hcons⟩ := List.head?_eq_some_iff.mp hhead
    exact (hartActs_of_table (Or.inr ⟨rest, by rw [arrive_hartInputs, hcons], rfl⟩)).1

theorem tableTurn_odd {s : State} (h : s.pc.getLsbD 0 = true) : tableTurn s = .fault .pcMisaligned := by
  rw [tableTurn, if_pos h]

theorem tableTurn_outside {s : State} {e : DecodeError} (hpc : s.pc.getLsbD 0 = false)
    (h : decodeWord (fetchWord s.mem s.pc) = .error e) : tableTurn s = .refused (.outsideTable e) := by
  simp only [tableTurn, hpc, Bool.false_eq_true, if_false, h]

/-- Settles O6: what a turn is while the hart is stalled or has no instruction to run, and that an item of the encoder's
own makes no room. -/
theorem hartTurnStops : Obligations.HartTurnStops := by
  refine ⟨fun s hagenda => ⟨fun hheld => ⟨step_of_held hagenda hheld, hheld⟩, fun hfree hinput => ⟨?_, ?_⟩⟩,
    fun s a => act_held⟩
  · intro hodd
    rw [step_of_table hagenda hfree hinput, tableTurn_odd (by rw [arrive_pc]; exact hodd)]
  · intro e hpc hdecode
    rw [step_of_table hagenda hfree hinput,
      tableTurn_outside (by rw [arrive_pc]; exact hpc) (by rw [arrive_pc]; exact hdecode)]

end Sys2Proof.Machine
end

section
/-! SUPPORT. What becomes of a record between two states (appended, waiting, lost), and the settlement of O41. -/

namespace Sys2Proof.Machine

/-! ## Effects that stand -/

theorem Completes.refl (s : State) : Completes s s := ⟨rfl, id⟩

theorem Completes.trans {s t u : State} (h : Completes s t) (k : Completes t u) : Completes s u := by
  obtain ⟨heq, hstof⟩ := h
  obtain ⟨keq, kstof⟩ := k
  exact ⟨by rw [keq, heq], kstof ∘ hstof⟩

theorem withDelivery_completes (s : State) (p : Encoder × Bool) : Completes s (s.withDelivery p) :=
  ⟨rfl, (withDelivery_hardwareKeeps s p).stof⟩

theorem settleSync_completes (s : State) : Completes s (settleSync s) := withDelivery_completes s _

/-! ## What the periodic `Sync` leaves of a record's fate -/

theorem settleSync_owed (s : State) : s.enc.owed <+: (settleSync s).enc.owed :=
  (syncAfter_progress s s.ctl.sten (s.enc, false)).owed

theorem Appends.mono {s u v : State} {such : Record → Prop} (h : Appends s u such)
    (hpre : u.enc.trace <+: v.enc.trace) : Appends s v such := by
  obtain ⟨l, heq, r, hr, hsuch⟩ := h
  obtain ⟨l', heq'⟩ := hpre
  exact ⟨l ++ l', by rw [← heq', heq, List.append_assoc], r, List.mem_append_left _ hr, hsuch⟩

theorem Appends.settle {s u : State} {such : Record → Prop} (h : Appends s u such) : Appends s (settleSync u) such :=
  h.mono (settleSync_grows u)

theorem Waits.settle {u : State} {such : Record → Prop} (h : Waits u such) : Waits (settleSync u) such := by
  obtain ⟨hstof, w, hw, hsuch⟩ := h
  exact ⟨settleSync_stof u hstof, w, (settleSync_owed u).subset hw, hsuch⟩

theorem Lost.settle {c : Config} {f : StrcCtl} {e : Encoder} {r : Record} {u : State} (h : Lost c f e r u) :
    Lost c f e r (settleSync u) := by
  obtain ⟨hsten, hstof, hlost⟩ := h
  exact ⟨hsten, settleSync_stof u hstof, hlost⟩

/-! ## An item of the encoder's own -/

/-- The record of an item of the encoder's own is appended, or waits for space, or is lost. -/
theorem emitNow_outcome (s : State) (item : Item) :
    Appends s (emitNow s item) (· = stamp s.cfg s.ctl s.enc (mkRecord s item)) ∨
    Waits (emitNow s item) (· = stamp s.cfg s.ctl s.enc (mkRecord s item)) ∨
    Lost s.cfg s.ctl s.enc (mkRecord s item) (emitNow s item) := by
  have hstof (h : (emit s s.ctl.sten (s.enc, false) item).2 = true) : (emitNow s item).ctl.stof = true := by
    simp [emitNow, State.withDelivery, h]
  rcases emit_outcome s s.ctl.sten (s.enc, false) item with
    ⟨_, l, htrace, _⟩ | ⟨hflag, _, b, howed⟩ | ⟨_, hsten, hflag, _, _, hlost⟩
  · exact Or.inl ⟨l ++ [_], htrace.trans (List.append_assoc ..), _, List.mem_concat_self, rfl⟩
  · refine Or.inr (Or.inl ⟨hstof hflag, ⟨_, b⟩, ?_, rfl⟩)
    exact howed ▸ List.mem_concat_self
  · exact Or.inr (Or.inr ⟨hsten, hstof hflag, hlost⟩)

/-! ## A firing trigger -/

theorem act_trigger (s : State) (a : TriggerAction) : act s (.trigger a) = settleSync (fireTrigger s a) := rfl

theorem fireTrigger_traceOn {s : State} (hdis : s.dis = false) (hiten : s.ctl.iten = true) :
    fireTrigger s .traceOn = { s with ctl := { s.ctl with it := true } } := by
  simp [fireTrigger, hdis, hiten]

theorem fireTrigger_traceOff {s : State} (hdis : s.dis = false) (hiten : s.ctl.iten = true) :
    fireTrigger s .traceOff = { s with ctl := { s.ctl with it := false } } := by
  simp [fireTrigger, hdis, hiten]

theorem fireTrigger_notify {s : State} (hdis : s.dis = false) (hiten : s.ctl.iten = true) :
    fireTrigger s .notify = if s.generating then emitNow s .triggerNotify else s := by
  simp [fireTrigger, hdis, hiten]

theorem fireTrigger_disabled {s : State} (hiten : s.ctl.iten = false) (a : TriggerAction) : fireTrigger s a = s := by
  simp [fireTrigger, hiten]

/-- With IT = 0 a `Sync` is due only where one is due whatever IT is. -/
theorem traceOff_settled {s : State} (h : SyncSettled s) :
    SyncSettled { s with ctl := { s.ctl with it := false } } := by
  have hoff : State.generating { s with ctl := { s.ctl with it := false } } = false := by simp [State.generating]
  have hopen : State.sessionOpen { s with ctl := { s.ctl with it := false } } = s.sessionOpen := rfl
  simp only [SyncSettled, syncDue, hoff, hopen] at h ⊢
  revert h
  cases s.generating <;> simp +contextual

/-- Settles O41: each firing by its own equation, and what the periodic `Sync` after it may add. -/
theorem triggerActions : Obligations.TriggerActions := by
  intro s hdis hsettled
  refine ⟨fun hiten => ⟨?_, ?_, ?_, fun hgen => ?_, fun hgen => ?_⟩, fun hiten a => ?_⟩
  · rw [act_trigger, fireTrigger_traceOn hdis hiten]
    exact ⟨settleSync_completes _, settleSync_of_not_due _⟩
  · rw [act_trigger, fireTrigger_traceOff hdis hiten]
    exact settleSync_of_not_due _ (traceOff_settled hsettled)
  · rw [act_trigger, fireTrigger_notify hdis hiten]
    split
    · exact (withDelivery_completes s _).trans (settleSync_completes _)
    · exact settleSync_completes s
  · rw [act_trigger, fireTrigger_notify hdis hiten, hgen]
    exact settleSync_of_not_due s hsettled
  · have hact : act s (.trigger .notify) = settleSync (emitNow s .triggerNotify) := by
      rw [act_trigger, fireTrigger_notify hdis hiten, if_pos hgen]
    intro r u
    rw [show u = _ from hact]
    exact (emitNow_outcome s .triggerNotify).imp Appends.settle (Or.imp Waits.settle Lost.settle)
  · rw [act_trigger, fireTrigger_disabled hiten]
    exact settleSync_of_not_due s hsettled

end Sys2Proof.Machine
end

section
/-! SUPPORT. What the encoder's reaction to a traced instruction records, and the settlement of O45 and O46. -/

namespace Sys2Proof.Machine

/-! ## An instruction's effect as the encoder sees it -/

@[simp] theorem afterRead_ctl (i : Instr) (s t : State) : (afterRead i s t).ctl = t.ctl := by rw [afterRead_eq]
@[simp] theorem afterRead_cfg (i : Instr) (s t : State) : (afterRead i s t).cfg = t.cfg := by rw [afterRead_eq]

theorem exec_cfg {i : Instr} {s t : State} (h : exec i s = .next t) : t.cfg = s.cfg := by
  rcases exec_cases i s with ⟨e, _, heq⟩ | ⟨id, f, rd, _, _, heq⟩ <;> rw [heq] at h <;> cases h
  · exact takeTrap_cfg ..
  · exact csrPerform_cfg ..

theorem observeInstr_of_retire {i : Instr} {s : State} (h : instrRaises i s = none) (hg : s.generating = true)
    (t : State) :
    observeInstr i s t = observe s (afterRead i s t) (some (.flow ⟨s.pc, 2, .sequential, t.pc⟩)) 2 := by
  simp only [observeInstr, h, whenGenerating_on hg]

theorem observeInstr_of_raise {i : Instr} {s : State} {e : Exc} (h : instrRaises i s = some e)
    (hg : s.generating = true) (t : State) :
    observeInstr i s t = observe s t (some (trapItem s t false (excCause e))) 0 := by
  simp only [observeInstr, h, whenGenerating_on hg]

/-- While EN = 1 an instruction's items are under STEN as it is before the instruction's own write (R147). -/
theorem stallEnabled_of_en {s : State} (h : s.ctl.en = true) (s' : State) : stallEnabled s s' = s.ctl.sten := by
  rw [stallEnabled, if_pos h]

/-! ## Counting half-words leaves what an item becomes -/

section countHalfwords
variable (s : State) (n : Nat)

theorem countHalfwords_trace : (countHalfwords s s.enc n).trace = s.enc.trace := by
  obtain ⟨k, d, h, _⟩ := countHalfwords_fields s s.enc n
  rw [h]

theorem countHalfwords_dropping : (countHalfwords s s.enc n).dropping = s.enc.dropping := by
  obtain ⟨k, d, h, _⟩ := countHalfwords_fields s s.enc n
  rw [h]

theorem stamp_countHalfwords (r : Record) :
    stamp s.cfg s.ctl (countHalfwords s s.enc n) r = stamp s.cfg s.ctl s.enc r := by
  obtain ⟨k, d, h, _⟩ := countHalfwords_fields s s.enc n
  rw [h]; rfl

theorem itemBytes_countHalfwords (r : Record) :
    itemBytes s.cfg s.ctl (countHalfwords s s.enc n) r = itemBytes s.cfg s.ctl s.enc r := by
  obtain ⟨k, d, h, _⟩ := countHalfwords_fields s s.enc n
  rw [h]; rfl

theorem fitsBuffer_countHalfwords (body : List Byte) :
    fitsBuffer s.cfg (countHalfwords s s.enc n) body = fitsBuffer s.cfg s.enc body := by
  obtain ⟨k, d, h, _⟩ := countHalfwords_fields s s.enc n
  rw [h]; rfl

end countHalfwords

/-! ## The instruction's own item -/

/-- The instruction's own item is turned away with STEN = 1 when its bytes do not fit, and only then (R171). -/
theorem encoderReacts_own_eq_none {s s' : State} (hen : s.ctl.en = true) (item : Item) (n : Nat) :
    encoderReacts s s' (some item) n = none ↔ s.ctl.sten = true ∧ NoRoom s.cfg s.ctl s.enc (mkRecord s item) := by
  rw [encoderReacts_eq_none, stallEnabled_of_en hen, deliverOwn, deliver_eq_none, itemBytes_countHalfwords,
    fitsBuffer_countHalfwords]
  rfl

/-- What the retuned counter leaves. -/
theorem reacted_enc (s s' : State) (q : Encoder × Bool) :
    (reacted s s' q).enc.trace = q.1.trace ∧ (reacted s s' q).enc.owed = q.1.owed ∧
    (reacted s s' q).enc.dropping = q.1.dropping := by
  obtain ⟨k, d, h, _⟩ := retune_fields s.ctl s'.ctl q.1
  simp [reacted, h]

theorem reacted_stof (s s' : State) {q : Encoder × Bool} (h : q.2 = true) : (reacted s s' q).ctl.stof = true := by
  simp [reacted, h]

/-- What the instruction's own item leaves is kept by the rest of the reaction: the trace grows, and backpressure is not
forgotten. -/
theorem encoderReacts_keeps_own {s s' t : State} {item : Item} {n : Nat} (hcfg : s'.cfg = s.cfg) (hen : s.ctl.en = true)
    (h : encoderReacts s s' (some item) n = some t) :
    ∃ p, deliver s.cfg s.ctl s.ctl.sten (countHalfwords s s.enc n, false) (mkRecord s item) = some p ∧
      p.1.trace <+: t.enc.trace ∧ (p.2 = true → t.ctl.stof = true) := by
  obtain ⟨p, hp, rfl⟩ := encoderReacts_some h
  rw [stallEnabled_of_en hen] at hp ⊢
  have hq := (syncAfter_progress s s.ctl.sten p).trans (sessionItems_progress hcfg s.ctl.sten _)
  refine ⟨p, hp, ?_, fun hflag => settleSync_stof _ (reacted_stof s s' (hq.flag hflag))⟩
  refine hq.trace.trans ?_
  rw [← (reacted_enc s s' _).1]
  exact settleSync_grows _

/-- The record of an instruction that does not stall is among those appended, or lost. -/
theorem encoderReacts_records {s s' t : State} {item : Item} {n : Nat} (hcfg : s'.cfg = s.cfg) (hen : s.ctl.en = true)
    (h : encoderReacts s s' (some item) n = some t) :
    Appends s t (· = stamp s.cfg s.ctl s.enc (mkRecord s item)) ∨ Lost s.cfg s.ctl s.enc (mkRecord s item) t := by
  obtain ⟨p, hp, ⟨later, htrace⟩, hstof⟩ := encoderReacts_keeps_own hcfg hen h
  rcases deliver_trace hp with ⟨_, l, hl, _⟩ | ⟨hsten, hflag, _, _, hlost⟩
  · rw [countHalfwords_trace, stamp_countHalfwords] at hl
    refine Or.inl ⟨l ++ [_] ++ later, ?_, _, List.mem_append_left _ List.mem_concat_self, rfl⟩
    rw [← htrace, hl, List.append_assoc, List.append_assoc, List.append_assoc]
  · rw [countHalfwords_dropping, itemBytes_countHalfwords, fitsBuffer_countHalfwords] at hlost
    exact Or.inr ⟨hsten, hstof hflag, hlost⟩

/-- Bytes that do not fit stall the hart. -/
theorem stallOn_held {s : State} {item : Item} (h : NoRoom s.cfg s.ctl s.enc (mkRecord s item)) :
    (stallOn s (ownBytes s (some item))).hartHeld = true := by
  rw [hartHeld_eq, encoderHeld_iff]
  exact Or.inr h

/-- What the encoder makes of an instruction with an item of its own: with STEN = 1 and no room for it the hart stalls
and nothing of the instruction happens; otherwise its effect stands, and its record is appended or lost. -/
theorem observe_records {s s' : State} (hcfg : s'.cfg = s.cfg) (hen : s.ctl.en = true) (item : Item) (n : Nat) :
    let r := mkRecord s item
    let u := observe s s' (some item) n
    ((s.ctl.sten = true ∧ NoRoom s.cfg s.ctl s.enc r) ∧ u.hartHeld = true ∧
      u = { s with enc := { s.enc with held := u.enc.held }, ctl := { s.ctl with stof := true } }) ∨
    (¬(s.ctl.sten = true ∧ NoRoom s.cfg s.ctl s.enc r) ∧
      Completes s' u ∧ (Appends s u (· = stamp s.cfg s.ctl s.enc r) ∨ Lost s.cfg s.ctl s.enc r u)) := by
  intro r u
  rcases observe_cases s s' (some item) n with ⟨hnone, hstall⟩ | hsome
  · have hroom := (encoderReacts_own_eq_none hen item n).mp hnone
    rw [show u = _ from hstall]
    exact Or.inl ⟨hroom, stallOn_held hroom.2, rfl⟩
  · obtain ⟨heq, _, hstof, _⟩ := encoderReacts_eq hsome
    refine Or.inr ⟨fun hroom => ?_, ⟨heq, hstof⟩, encoderReacts_records hcfg hen hsome⟩
    rw [(encoderReacts_own_eq_none hen item n).mpr hroom] at hsome
    cases hsome

/-- Settles O45: the instruction's own item is its flow record. -/
theorem tracedInstructionIsRecorded : Obligations.TracedInstructionIsRecorded := by
  intro i s t hexec hretire hgen
  rw [observeInstr_of_retire hretire hgen]
  exact observe_records ((afterRead_cfg i s t).trans (exec_cfg hexec)) (generating_en hgen) _ 2

/-- Settles O46: the instruction's own item is its trap record. -/
theorem tracedExceptionIsRecorded : Obligations.TracedExceptionIsRecorded := by
  intro i s t e hexec hraise hgen
  have hcause : (if e = .illegalInstruction then 2 else 22) = excCause e := by cases e <;> rfl
  rw [observeInstr_of_raise hraise hgen, hcause]
  exact observe_records (exec_cfg hexec) (generating_en hgen) _ 0

end Sys2Proof.Machine
end

section
/-! SUPPORT. How the sync event counter moves with an instruction and with a clock cycle, when a `Sync` is generated,
and the settlement of O50 and O52. -/

namespace Sys2Proof.Machine

/-! ## The counter after a traced instruction or cycle -/

theorem countHalfwords_count {s : State} (hg : s.generating = true) (n : Nat) :
    (countHalfwords s s.enc n).syncCount =
      if s.ctl.smod = 3 then min (s.enc.syncCount + n) (syncThreshold s.ctl.smax) else s.enc.syncCount := by
  unfold countHalfwords
  split
  · rw [countEvents, if_pos hg]; rfl
  · rfl

/-- A traced clock cycle counts one with SMOD = 2, and does nothing else. -/
theorem countCycle_running {s : State} (hg : s.generating = true) :
    countCycle s s.enc false =
      if s.ctl.smod = 2 then { s.enc with syncCount := min (s.enc.syncCount + 1) (syncThreshold s.ctl.smax) }
      else s.enc := by
  simp [countCycle, countEvents, hg, advanceCount]

/-- An item other than a `Sync` counts one with SMOD = 1, if it becomes some bytes. -/
theorem countAfterItem_other {r : Record} (h : r.item ≠ .sync) (f : StrcCtl) (count : Nat) (body : List Byte) :
    countAfterItem f count r body =
      if f.smod = 1 ∧ body ≠ [] then min (count + 1) (syncThreshold f.smax) else count := by
  rw [countAfterItem, if_neg h]
  cases body <;> simp [advanceCount]

/-- The counter once a traced instruction's own item has been delivered: SMOD selects what has counted. -/
theorem deliver_own_count {s : State} {stall : Bool} {p : Encoder × Bool} {item : Item} {n : Nat}
    (hg : s.generating = true) (hitem : item ≠ .sync)
    (h : deliver s.cfg s.ctl stall (countHalfwords s s.enc n, false) (mkRecord s item) = some p) :
    p.1.syncCount =
      if s.ctl.smod = 3 then min (s.enc.syncCount + n) (syncThreshold s.ctl.smax)
      else if s.ctl.smod = 1 ∧ itemBytes s.cfg s.ctl s.enc (mkRecord s item) ≠ [] then
        min (s.enc.syncCount + 1) (syncThreshold s.ctl.smax)
      else s.enc.syncCount := by
  rw [deliver_count h, itemBytes_countHalfwords, countAfterItem_other hitem, countHalfwords_count hg]
  by_cases h3 : s.ctl.smod = 3
  · simp [h3]
  · simp only [if_neg h3]

/-- The reaction to a traced instruction that leaves EN at 1: its own item, the `Sync` that makes due, and a `Sync` due
after it. -/
theorem encoderReacts_of_en {s s' t : State} {item : Item} {n : Nat} (hen : s.ctl.en = true) (hen' : s'.ctl.en = true)
    (h : encoderReacts s s' (some item) n = some t) :
    ∃ p, deliver s.cfg s.ctl s.ctl.sten (countHalfwords s s.enc n, false) (mkRecord s item) = some p ∧
      t = settleSync (reacted s s' (syncAfter s s.ctl.sten p)) := by
  obtain ⟨p, hp, rfl⟩ := encoderReacts_some h
  rw [stallEnabled_of_en hen] at hp ⊢
  rw [sessionItems_same (hen'.trans hen.symm)]
  exact ⟨p, hp, rfl⟩

/-! ## A `Sync` that is due is generated -/

theorem syncDue_of_generating {s : State} {e : Encoder} (hg : s.generating = true) (hmod : s.ctl.smod ≠ 0)
    (h : syncThreshold s.ctl.smax ≤ e.syncCount) : syncDue s e = true := by
  simp only [syncDue, hg, ne_eq, hmod, not_false_eq_true, h, decide_true, Bool.true_or, Bool.and_self]

/-- A state in which no `Sync` is overdue while it generates trace has its counter below the threshold. -/
theorem count_lt_of_settled {s : State} (h : SyncSettled s) (hg : s.generating = true) (hmod : s.ctl.smod ≠ 0) :
    s.enc.syncCount < syncThreshold s.ctl.smax := by
  by_contra hle
  rw [SyncSettled, syncDue_of_generating hg hmod (Nat.not_lt.mp hle)] at h
  cases h

/-- The three ways in which a `Sync` that an encoder emits is generated: `u` holds what the emission has left. -/
theorem syncGenerated_of_emit {s v u : State} {stall : Bool} {p : Encoder × Bool}
    (htrace : s.enc.trace <+: p.1.trace) (hsten : stall = false → s.ctl.sten = false)
    (hu : u.enc.trace = (emit v stall p .sync).1.trace ∧ u.enc.owed = (emit v stall p .sync).1.owed ∧
      u.enc.dropping = (emit v stall p .sync).1.dropping)
    (hstof : (emit v stall p .sync).2 = true → u.ctl.stof = true) : SyncGenerated s u := by
  obtain ⟨l₀, hl₀⟩ := htrace
  obtain ⟨utrace, uowed, udropping⟩ := hu
  have hr := stamp_item v.cfg v.ctl p.1 (mkRecord v .sync)
  set r := stamp v.cfg v.ctl p.1 (mkRecord v .sync)
  rcases emit_outcome v stall p .sync with ⟨_, l, hl, _⟩ | ⟨hflag, _, b, howed⟩ | ⟨_, hs, hflag, hdropping, _⟩
  · refine Or.inl ⟨l₀ ++ l ++ [r], ?_, r, List.mem_concat_self, hr⟩
    rw [utrace, hl, ← hl₀, List.append_assoc, List.append_assoc, List.append_assoc]
  · refine Or.inr (Or.inl ⟨hstof hflag, ⟨r, b⟩, ?_, hr⟩)
    rw [uowed, howed]
    exact List.mem_concat_self
  · exact Or.inr (Or.inr ⟨hstof hflag, hsten hs, udropping.trans hdropping⟩)

/-- The periodic `Sync` of a state in which it is due. -/
theorem settleSync_generates {s v : State} (htrace : s.enc.trace <+: v.enc.trace)
    (hsten : v.ctl.sten = false → s.ctl.sten = false) (hdue : syncDue v v.enc = true) :
    SyncGenerated s (settleSync v) := by
  have hemit : settleSync v = v.withDelivery (emit v v.ctl.sten (v.enc, false) .sync) := by
    rw [settleSync, syncAfter_of_due hdue]
  rw [hemit]
  exact syncGenerated_of_emit htrace hsten ⟨rfl, rfl, rfl⟩ fun hflag => by simp [State.withDelivery, hflag]

/-- A further `Sync` does not undo one: where the first was dropped, it is appended, waits, or is dropped itself. -/
theorem SyncGenerated.settle {s v : State} (h : SyncGenerated s v) (htrace : s.enc.trace <+: v.enc.trace) :
    SyncGenerated s (settleSync v) := by
  rcases h with happends | hwaits | ⟨hstof, hsten, hdropping⟩
  · exact Or.inl happends.settle
  · exact Or.inr (Or.inl hwaits.settle)
  · cases hdue : syncDue v v.enc with
    | true => exact settleSync_generates htrace (fun _ => hsten) hdue
    | false => rw [settleSync_of_not_due v hdue]; exact Or.inr (Or.inr ⟨hstof, hsten, hdropping⟩)

/-- When a traced instruction that leaves EN at 1 brings the counter to the threshold, a `Sync` is generated. -/
theorem encoderReacts_generates {s s' t : State} {item : Item} {n : Nat} (hg : s.generating = true)
    (hen' : s'.ctl.en = true) (hmod : s.ctl.smod ≠ 0) (hitem : item ≠ .sync)
    (hcount : syncThreshold s.ctl.smax ≤ s.enc.syncCount +
      (if s.ctl.smod = 3 then n
       else if s.ctl.smod = 1 ∧ itemBytes s.cfg s.ctl s.enc (mkRecord s item) ≠ [] then 1 else 0))
    (h : encoderReacts s s' (some item) n = some t) : SyncGenerated s t := by
  obtain ⟨p, hp, rfl⟩ := encoderReacts_of_en (generating_en hg) hen' h
  have hreached : syncThreshold s.ctl.smax ≤ p.1.syncCount := by
    rw [deliver_own_count hg hitem hp]
    split_ifs at hcount ⊢ <;> omega
  have hdue := syncDue_of_generating (e := p.1) hg hmod hreached
  have htrace : s.enc.trace <+: p.1.trace := countHalfwords_trace s n ▸ (deliver_progress hp).trace
  obtain ⟨rtrace, rrest⟩ := reacted_enc s s' (syncAfter s s.ctl.sten p)
  refine SyncGenerated.settle ?_ (rtrace ▸ htrace.trans (syncAfter_progress s _ p).trace)
  rw [syncAfter_of_due hdue] at rtrace rrest ⊢
  exact syncGenerated_of_emit htrace id ⟨rtrace, rrest⟩ (reacted_stof s s')

/-- When a traced instruction that leaves EN at 1, and SMOD and SMAX as they are, leaves the counter below the
threshold, what it has counted is what the counter has moved. -/
theorem encoderReacts_counts {s s' t : State} {item : Item} {n k : Nat} (hg : s.generating = true)
    (hen' : s'.ctl.en = true) (hsmod : s'.ctl.smod = s.ctl.smod) (hsmax : s'.ctl.smax = s.ctl.smax)
    (hcount : ∀ p, deliver s.cfg s.ctl s.ctl.sten (countHalfwords s s.enc n, false) (mkRecord s item) = some p →
      p.1.syncCount = k)
    (hk : k < syncThreshold s.ctl.smax) (h : encoderReacts s s' (some item) n = some t) : t.enc.syncCount = k := by
  obtain ⟨p, hp, rfl⟩ := encoderReacts_of_en (generating_en hg) hen' h
  have hpk := hcount p hp
  rw [syncAfter_of_not_due (syncDue_of_count_lt (by rw [hpk]; exact hk))]
  have hreacted : (reacted s s' p).enc.syncCount = k := by
    obtain ⟨j, d, heq, hsame, _⟩ := retune_fields s.ctl s'.ctl p.1
    simp only [reacted, heq]
    rw [hsame hsmod.symm hsmax.symm, hpk]
  rw [settleSync_of_not_due _ (syncDue_of_count_lt ?_), hreacted]
  rw [hreacted]
  show k < syncThreshold s'.ctl.smax
  rw [hsmax]
  exact hk

/-! ## After an instruction -/

/-- An instruction of the table stalls the hart, or no `Sync` is overdue after it. -/
theorem observe_settled (s s' : State) (own : Option Item) (n : Nat) :
    observe s s' own n = stallOn s (observe s s' own n).enc.held ∨ SyncSettled (observe s s' own n) := by
  rcases observe_cases s s' own n with ⟨_, hstall⟩ | hsome
  · rw [hstall]; exact Or.inl rfl
  · obtain ⟨_, _, _, hsettled⟩ := encoderReacts_eq hsome
    exact Or.inr hsettled

theorem observeInstr_settled (i : Instr) (s t : State) :
    observeInstr i s t = stallOn s (observeInstr i s t).enc.held ∨ SyncSettled (observeInstr i s t) := by
  obtain ⟨item, n, heq⟩ := observeInstr_eq i s t
  rw [heq]
  exact observe_settled ..

theorem observeInstr_generates {i : Instr} {s t : State} (hretire : instrRaises i s = none) (hg : s.generating = true)
    (hen : t.ctl.en = true) (hmod : s.ctl.smod ≠ 0)
    (hcount : syncThreshold s.ctl.smax ≤ s.enc.syncCount +
      (if s.ctl.smod = 3 then 2
       else if s.ctl.smod = 1 ∧
          itemBytes s.cfg s.ctl s.enc (mkRecord s (.flow ⟨s.pc, 2, .sequential, t.pc⟩)) ≠ [] then 1 else 0)) :
    observeInstr i s t = stallOn s (observeInstr i s t).enc.held ∨ SyncGenerated s (observeInstr i s t) := by
  rw [observeInstr_of_retire hretire hg]
  rcases observe_cases s (afterRead i s t) (some (.flow ⟨s.pc, 2, .sequential, t.pc⟩)) 2 with ⟨_, hstall⟩ | hsome
  · rw [hstall]; exact Or.inl rfl
  · exact Or.inr (encoderReacts_generates hg (by rw [afterRead_ctl]; exact hen) hmod (by simp) hcount hsome)

/-! ## A clock cycle -/

theorem act_hartClock (s : State) (waiting : Bool) : act s (.hartClock waiting) = settleSync (clockTick s waiting) := rfl

/-- With SMOD = 2 a traced cycle that brings the counter to the threshold generates a `Sync`. -/
theorem clock_generates {s : State} (hg : s.generating = true) (hmod : s.ctl.smod = 2)
    (hcount : syncThreshold s.ctl.smax ≤ s.enc.syncCount + 1) : SyncGenerated s (act s (.hartClock false)) := by
  have htick : clockTick s false =
      { s with cycle := s.cycle + 1, enc := { s.enc with syncCount := syncThreshold s.ctl.smax } } := by
    rw [clockTick, countCycle_running hg, if_pos hmod, Nat.min_eq_right hcount]
  rw [act_hartClock, htick]
  refine settleSync_generates ⟨[], List.append_nil _⟩ id (syncDue_of_generating hg ?_ le_rfl)
  show s.ctl.smod ≠ 0
  rw [hmod]
  decide

/-- Waiting items were counted when they were generated. -/
theorem settleOwed_count (c : Config) (e : Encoder) (ws : List Waiting) :
    (settleOwed c e ws).syncCount = e.syncCount := by
  obtain ⟨_, hcount, _⟩ := settleOwed_keeps c ws e
  exact hcount

theorem handOver_count {s : State} (h : SyncSettled s) : (act s .handOver).enc.syncCount = s.enc.syncCount := by
  have settled (e : Encoder) (amb : Amb) (he : e.syncCount = s.enc.syncCount) :
      (settleSync { s with enc := e, amb := amb }).enc.syncCount = s.enc.syncCount := by
    have hdue : syncDue { s with enc := e, amb := amb } e = syncDue s s.enc := by
      show syncDue s e = _
      rw [syncDue, he]; rfl
    rw [settleSync_of_not_due _ (hdue.trans h), he]
  show (settleSync (handOverByte s)).enc.syncCount = s.enc.syncCount
  rcases handOverByte_cases s with heq | ⟨_, heq⟩ | ⟨b, bs, _, heq⟩ <;> rw [heq]
  · exact settled s.enc s.amb rfl
  · exact settled _ _ (settleOwed_count s.cfg s.enc s.enc.owed)
  · exact settled _ _ (settleOwed_count s.cfg { s.enc with buffer := bs } s.enc.owed)

/-- Settles O50. -/
theorem noSyncOverdue : Obligations.NoSyncOverdue := by
  refine ⟨fun i s t _ => ⟨observeInstr_settled i s t, fun hg hmod => ?_, observeInstr_generates⟩,
    fun s => clock_generates, fun s stall p item => emitClosing_count_lt s stall p item, fun s => handOver_count⟩
  exact (observeInstr_settled i s t).imp_right fun hsettled => count_lt_of_settled hsettled hg hmod

/-! ## What is counted -/

/-- A traced instruction stalls, or counts its two half-words with SMOD = 3, and nothing with SMOD = 0 or 2. -/
theorem observeInstr_counts {i : Instr} {s t : State} (hretire : instrRaises i s = none) (hg : s.generating = true)
    (hen : t.ctl.en = true) (hsmod : t.ctl.smod = s.ctl.smod) (hsmax : t.ctl.smax = s.ctl.smax) :
    observeInstr i s t = stallOn s (observeInstr i s t).enc.held ∨
      (s.ctl.smod = 3 → s.enc.syncCount + 2 < syncThreshold s.ctl.smax →
        (observeInstr i s t).enc.syncCount = s.enc.syncCount + 2) ∧
      (s.ctl.smod ≠ 1 → s.ctl.smod ≠ 3 → s.enc.syncCount < syncThreshold s.ctl.smax →
        (observeInstr i s t).enc.syncCount = s.enc.syncCount) := by
  rw [observeInstr_of_retire hretire hg]
  rcases observe_cases s (afterRead i s t) (some (.flow ⟨s.pc, 2, .sequential, t.pc⟩)) 2 with ⟨_, hstall⟩ | hsome
  · rw [hstall]; exact Or.inl rfl
  · rw [← afterRead_ctl i s t] at hen hsmod hsmax
    refine Or.inr ⟨fun h3 hlt => ?_, fun h1 h3 hlt => ?_⟩
    · refine encoderReacts_counts hg hen hsmod hsmax (fun p hp => ?_) hlt hsome
      rw [deliver_own_count hg (by simp) hp, if_pos h3, Nat.min_eq_left hlt.le]
    · refine encoderReacts_counts hg hen hsmod hsmax (fun p hp => ?_) hlt hsome
      rw [deliver_own_count hg (by simp) hp, if_neg h3, if_neg fun h => h1 h.1]

theorem clock_counts {s : State} (hg : s.generating = true) (hmod : s.ctl.smod = 2)
    (hlt : s.enc.syncCount + 1 < syncThreshold s.ctl.smax) :
    act s (.hartClock false) =
      { s with cycle := s.cycle + 1, enc := { s.enc with syncCount := s.enc.syncCount + 1 } } := by
  rw [act_hartClock, clockTick, countCycle_running hg, if_pos hmod, Nat.min_eq_left hlt.le]
  exact settleSync_of_not_due _ (syncDue_of_count_lt hlt)

theorem clock_counts_nothing {s : State} (hg : s.generating = true) (hsettled : SyncSettled s) (hmod : s.ctl.smod ≠ 2) :
    act s (.hartClock false) = { s with cycle := s.cycle + 1 } := by
  rw [act_hartClock, clockTick, countCycle_running hg, if_neg hmod]
  exact settleSync_of_not_due _ hsettled

/-- Settles O52. -/
theorem halfwordsAreCounted : Obligations.HalfwordsAreCounted :=
  ⟨fun _ _ _ _ hretire hg hen hsmod hsmax => observeInstr_counts hretire hg hen hsmod hsmax,
    fun _ hg hsettled => ⟨clock_counts hg, clock_counts_nothing hg hsettled⟩⟩

end Sys2Proof.Machine
end

section
/-! SUPPORT. The sink's buffer and the place of its next byte, what `push` and `drain` do, and the settlement of O57 and
O58. -/

namespace Sys2Proof.Machine

/-! ## The buffer (R83) -/

/-- The buffer begins at a multiple of its size, also where its address wraps at 2^64. -/
theorem ambBase_aligned (r : AmbRegs) : (ambBase r).toNat % ambSize r = 0 := by
  rw [ambBase, BitVec.toNat_ofNat]
  rcases Nat.le_total (12 + r.extraSize) 64 with hle | hge
  · exact Nat.mod_eq_zero_of_dvd ((Nat.dvd_mod_iff (Nat.pow_dvd_pow 2 hle)).mpr (Nat.dvd_mul_left _ _))
  · have hwhole : 2 ^ 64 ∣ r.index * ambSize r := Nat.dvd_mul_left_of_dvd (Nat.pow_dvd_pow 2 hge) _
    rw [Nat.mod_eq_zero_of_dvd hwhole, Nat.zero_mod]

theorem le_ambSize (r : AmbRegs) : 4096 ≤ ambSize r := Nat.pow_le_pow_right (n := 2) (by decide) (Nat.le_add_right 12 _)

/-- There is a place for the next byte where the buffer wraps or its end is not reached (R83, R86). -/
theorem ambPlace_of_room {r : AmbRegs} (h : r.wraps = true ∨ r.position < ambSize r) :
    ambPlace r = some (ambBase r + BitVec.ofNat 64 (r.position % ambSize r)) := by
  unfold ambPlace
  split
  · rfl
  · rename_i hw
    have hlt := h.resolve_left hw
    rw [if_pos hlt, Nat.mod_eq_of_lt hlt]

theorem room_of_ambPlace {r : AmbRegs} (h : (ambPlace r).isSome = true) :
    r.wraps = true ∨ r.position < ambSize r := by
  unfold ambPlace at h
  split_ifs at h with hw hlt
  · exact Or.inl hw
  · exact Or.inr hlt
  · cases h

theorem room_of_ambAccepts {a : Amb} (h : ambAccepts a = true) :
    a.regs.wraps = true ∨ a.regs.position < ambSize a.regs :=
  room_of_ambPlace (Bool.and_eq_true_iff.mp h).2

/-! ## Registers with the same buffer -/

/-- The two give the next byte of the stream the same place: one buffer, and one position in it (D8). -/
structure SameBuffer (r r' : AmbRegs) : Prop where
  extraSize : r'.extraSize = r.extraSize
  index : r'.index = r.index
  wraps : r'.wraps = r.wraps
  position : r'.position = r.position

section SameBuffer
variable {r r' : AmbRegs}

theorem SameBuffer.refl (r : AmbRegs) : SameBuffer r r := ⟨rfl, rfl, rfl, rfl⟩

theorem SameBuffer.size (h : SameBuffer r r') : ambSize r' = ambSize r := by rw [ambSize, h.extraSize]; rfl

theorem SameBuffer.base (h : SameBuffer r r') : ambBase r' = ambBase r := by rw [ambBase, h.size, h.index]; rfl

theorem SameBuffer.place (h : SameBuffer r r') : ambPlace r' = ambPlace r := by
  simp only [ambPlace, h.size, h.base, h.wraps, h.position]

end SameBuffer

/-- `drain` moves neither the buffer nor the position of the next byte. -/
theorem drainSink_sameBuffer (s : State) (n : Nat) : SameBuffer s.amb.regs (drainSink s n).amb.regs := by
  rcases drainSink_cases s n with h | ⟨_, h⟩ <;> rw [h] <;> exact ⟨rfl, rfl, rfl, rfl⟩

theorem ambFault_sameBuffer (a : Amb) : SameBuffer a.regs (ambFault a).regs := ⟨rfl, rfl, rfl, rfl⟩

/-- Sinks with the same buffer give a byte the same place, behind what each of them holds, and go on with the
same buffer. -/
theorem ambPushByte_of_sameBuffer {a a' : Amb} (h : SameBuffer a.regs a'.regs) (b : Byte) :
    SameBuffer (ambPushByte a b).regs (ambPushByte a' b).regs ∧
    ∃ taken, (ambPushByte a b).pending = a.pending ++ taken ∧ (ambPushByte a' b).pending = a'.pending ++ taken := by
  cases hplace : ambPlace a.regs with
  | none =>
    have hplace' := h.place.trans hplace
    simp only [ambPushByte, hplace, hplace']
    exact ⟨h, [], by simp⟩
  | some addr =>
    rw [ambPushByte_place hplace, ambPushByte_place (h.place.trans hplace)]
    exact ⟨⟨h.extraSize, h.index, h.wraps, congrArg (· + 1) h.position⟩, [(addr, b)], rfl, rfl⟩

theorem pushes_of_sameBuffer (bytes : List Byte) {a a' : Amb} (h : SameBuffer a.regs a'.regs) :
    ∃ taken, (bytes.foldl ambPushByte a).pending = a.pending ++ taken ∧
      (bytes.foldl ambPushByte a').pending = a'.pending ++ taken := by
  induction bytes generalizing a a' with
  | nil => exact ⟨[], by simp⟩
  | cons b bs ih =>
    obtain ⟨hnext, first, hf, hf'⟩ := ambPushByte_of_sameBuffer h b
    obtain ⟨rest, hr, hr'⟩ := ih hnext
    exact ⟨first ++ rest, by rw [List.foldl_cons, hr, hf, List.append_assoc],
      by rw [List.foldl_cons, hr', hf', List.append_assoc]⟩

/-! ## `drain` -/

/-- How many writes a drain of `n` bytes performs. -/
def drained (s : State) (n : Nat) : Nat := if s.dis then 0 else min n s.amb.pending.length

/-- What a drain writes, what it leaves for the sink to write, and what is left of a promise. -/
theorem drainSink_writes (s : State) (n : Nat) :
    (drainSink s n).mem = writePending (s.physical (s.amb.pending.take (drained s n))) s.mem ∧
    (drainSink s n).amb.pending = s.amb.pending.drop (drained s n) ∧
    (drainSink s n).promised = s.promised - drained s n := by
  unfold drainSink drained
  cases s.dis with
  | true => simp [State.physical]
  | false =>
    by_cases hnone : min n s.amb.pending.length = 0
    · simp [hnone, State.physical]
    · simp [hnone]

/-- A drain moves nothing that decides whether a `Sync` is due. -/
theorem act_drain_of_settled {s : State} (h : SyncSettled s) (n : Nat) : act s (.drain n) = drainSink s n := by
  refine settleSync_of_not_due _ ?_
  show syncDue (drainSink s n) (drainSink s n).enc = false
  rw [drainSink_eq]
  exact h

/-- Settles O57. -/
theorem sinkWritesOldestByte : Obligations.SinkWritesOldestByte := by
  refine ⟨fun s addr b rest hd hm hp => ?_, fun s n => ?_, fun a b => ?_⟩
  · have hone : drained s 1 = 1 := by simp [drained, hd, hp]
    obtain ⟨hmem, hpending, _⟩ := drainSink_writes s 1
    rw [hone, hp] at hmem hpending
    refine ⟨hpending, fun x => ?_⟩
    show memRead (drainSink s 1).mem x = _
    rw [hmem]
    exact memRead_memWrite hm _ b x
  · have h : SameBuffer s.amb.regs (act s (.drain n)).amb.regs := drainSink_sameBuffer s n
    exact ⟨h.position, h.base, h.size, h.wraps⟩
  · refine ⟨ambBase_aligned a.regs, ⟨_, rfl, le_ambSize a.regs⟩, room_of_ambAccepts, fun hroom => ?_⟩
    rw [ambPushByte_place (ambPlace_of_room hroom)]
    exact ⟨rfl, rfl, rfl, rfl, rfl⟩

/-- Settles O58. -/
theorem drainFrame : Obligations.DrainFrame := by
  intro s n hsettled
  obtain ⟨hmem, hpending, hpromised⟩ := drainSink_writes s n
  rw [act_drain_of_settled hsettled]
  refine ⟨?_, hmem, hpending, fun a ha => ?_⟩
  · rw [drainSink_eq s n, hpromised]; rfl
  · rw [hmem]
    exact memRead_writePending_of_outside _ s.mem a ha

end Sys2Proof.Machine
end

section
/-! SUPPORT. Handing over all the encoder holds to a sink that accepts it, and the settlement of O49. -/

namespace Sys2Proof.Machine

/-! ## A sink that accepts a run of bytes -/

/-- The sink accepts each of the bytes, those before it having been pushed. -/
def AcceptsEach (a : Amb) (bytes : List Byte) : Prop :=
  ∀ k, k < bytes.length → ambAccepts ((bytes.take k).foldl ambPushByte a) = true

theorem AcceptsEach.head {a : Amb} {b : Byte} {bs : List Byte} (h : AcceptsEach a (b :: bs)) : ambAccepts a = true :=
  h 0 (Nat.succ_pos _)

theorem AcceptsEach.tail {a : Amb} {b : Byte} {bs : List Byte} (h : AcceptsEach a (b :: bs)) :
    AcceptsEach (ambPushByte a b) bs :=
  fun k hk => h (k + 1) (Nat.succ_lt_succ hk)

/-- A byte that the sink accepts is the last of those it has to write. -/
theorem ambPushByte_byte {a : Amb} (h : ambAccepts a = true) (b : Byte) :
    (ambPushByte a b).pending.map (·.2) = a.pending.map (·.2) ++ [b] := by
  rw [ambPushByte_place (ambPlace_of_room (room_of_ambAccepts h))]
  simp

theorem pushes_bytes {a : Amb} {bytes : List Byte} (h : AcceptsEach a bytes) :
    (bytes.foldl ambPushByte a).pending.map (·.2) = a.pending.map (·.2) ++ bytes := by
  induction bytes generalizing a with
  | nil => simp
  | cons b bs ih => rw [List.foldl_cons, ih h.tail, ambPushByte_byte h.head, List.append_assoc, List.singleton_append]

/-! ## Hand-overs -/

/-- With nothing waiting and no `Sync` overdue, a hand-over moves the oldest byte from the encoder to the sink. -/
theorem act_handOver_of_accepts {s : State} {b : Byte} {bs : List Byte} (hdis : s.dis = false) (howed : s.enc.owed = [])
    (hsettled : SyncSettled s) (hbuffer : s.enc.buffer = b :: bs) (haccepts : ambAccepts s.amb = true) :
    act s .handOver = { s with enc := { s.enc with buffer := bs }, amb := ambPushByte s.amb b } := by
  have hmoved : handOverByte s = { s with enc := { s.enc with buffer := bs }, amb := ambPushByte s.amb b } := by
    simp only [handOverByte, hdis, hbuffer, haccepts, howed, Bool.false_eq_true, if_false, if_true]
    rw [settleOwed_nil s.cfg { s.enc with buffer := bs, owed := [] } rfl]
  show settleSync (handOverByte s) = _
  rw [hmoved]
  exact settleSync_of_not_due _ hsettled

theorem handOvers_of_accepts (bytes : List Byte) {s : State} (hdis : s.dis = false) (howed : s.enc.owed = [])
    (hsettled : SyncSettled s) (hbuffer : s.enc.buffer = bytes) (haccepts : AcceptsEach s.amb bytes) :
    (List.replicate bytes.length Action.handOver).foldl act s =
      { s with enc := { s.enc with buffer := [] }, amb := bytes.foldl ambPushByte s.amb } := by
  induction bytes generalizing s with
  | nil =>
    show s = { s with enc := { s.enc with buffer := [] } }
    rw [← hbuffer]
  | cons b bs ih =>
    rw [List.length_cons, List.replicate_succ, List.foldl_cons,
      act_handOver_of_accepts hdis howed hsettled hbuffer haccepts.head]
    exact ih hdis howed hsettled rfl haccepts.tail

/-- Settles O49. -/
theorem flushCompletes : Obligations.FlushCompletes := by
  intro s hdis howed hsettled haccepts t
  have ht : t = { s with enc := { s.enc with buffer := [] }, amb := s.enc.buffer.foldl ambPushByte s.amb } :=
    handOvers_of_accepts s.enc.buffer hdis howed hsettled rfl haccepts
  have hempty : t.empty = true := by rw [ht]; simp [State.empty, howed]
  have hbytes : t.amb.pending.map (·.2) = s.amb.pending.map (·.2) ++ s.enc.buffer := by rw [ht]; exact pushes_bytes haccepts
  exact ⟨hempty, hbytes, by rw [ht]⟩

end Sys2Proof.Machine
end

section
/-! SUPPORT. What is under way to memory, what an instruction that reads EMPTY = 1 leaves as it was, that the other agents
keep what such a read has promised, and the settlement of O59. -/

namespace Sys2Proof.Machine

/-! ## Writes under way -/

theorem sinkContext_congr {s t : State} (hcfg : t.cfg = s.cfg) (henv : t.env = s.env) (hdis : t.dis = s.dis) :
    t.sinkContext = s.sinkContext := by
  simp only [State.sinkContext, State.strcs, State.strcv, State.mSTRC, hcfg, henv, hdis]

theorem physical_congr {s t : State} (h : t.sinkContext = s.sinkContext) (ws : List (Word × Byte)) :
    t.physical ws = s.physical ws := by
  rw [State.physical, h]; rfl

theorem physical_subset (s : State) {ws vs : List (Word × Byte)} (h : ws ⊆ vs) : s.physical ws ⊆ s.physical vs :=
  List.map_subset _ h

@[simp] theorem arrive_sinkContext (s : State) : (arrive s).sinkContext = s.sinkContext :=
  sinkContext_congr (arrive_cfg s) (arrive_env s) (arrive_dis s)

/-- Under way are the writes of the bytes the sink has when the encoder has handed over all it holds. -/
theorem inFlight_eq {s : State} (hd : s.dis = false) :
    s.inFlight = s.physical ((heldBytes s.cfg s.enc).foldl ambPushByte s.amb).pending := by
  simp [State.inFlight, hd]

theorem arrive_inFlight {s : State} (hd : s.dis = false) :
    (arrive s).inFlight = s.physical ((heldBytes s.cfg s.enc).foldl ambPushByte (arrive s).amb).pending := by
  rw [inFlight_eq ((arrive_dis s).trans hd), physical_congr (arrive_sinkContext s), arrive_cfg, arrive_enc]

theorem appendWaiting_buffer_prefix (c : Config) (e : Encoder) (w : Waiting) :
    e.buffer <+: (appendWaiting c e w).buffer := by
  unfold appendWaiting
  split
  · exact List.prefix_rfl
  · exact List.prefix_append _ _

/-- The bytes of the internal buffers come before those of waiting items. -/
theorem buffer_prefix_heldBytes (c : Config) (e : Encoder) : e.buffer <+: heldBytes c e := by
  have grows (ws : List Waiting) (e : Encoder) : e.buffer <+: (ws.foldl (appendWaiting c) e).buffer := by
    induction ws generalizing e with
    | nil => exact List.prefix_rfl
    | cons w ws ih => exact (appendWaiting_buffer_prefix c e w).trans (ih _)
  exact grows e.owed e

theorem pushes_prefix {bytes more : List Byte} (h : bytes <+: more) (a : Amb) :
    (bytes.foldl ambPushByte a).pending <+: (more.foldl ambPushByte a).pending := by
  obtain ⟨rest, rfl⟩ := h
  rw [List.foldl_append]
  exact ambPushByte_prefix rest _

/-! ## Which states have the same promised writes -/

/-- The sink has the same bytes to write to the same memory in both, and the same of them are promised. -/
structure SamePromise (s t : State) : Prop where
  dis : t.dis = s.dis
  context : t.sinkContext = s.sinkContext
  pending : t.amb.pending = s.amb.pending
  promised : t.promised = s.promised
  mem : t.mem = s.mem

theorem SamePromise.arrive_mem {s t : State} (h : SamePromise s t) : (arrive t).mem = (arrive s).mem := by
  obtain ⟨ht, _⟩ := drainSink_writes t t.promised
  obtain ⟨hs, _⟩ := drainSink_writes s s.promised
  rw [arrive, arrive, ht, hs, physical_congr h.context, drained, drained, h.dis, h.pending, h.promised, h.mem]

/-- The promised writes arrive in `t` as they do in `s`, with at most writes after them that are under way in `s` beside
them. -/
def KeepsPromise (s t : State) : Prop :=
  ∃ l, (∀ w ∈ l, w ∈ (arrive s).inFlight) ∧ (arrive t).mem = writePending l (arrive s).mem

theorem KeepsPromise.of_mem {s t : State} (h : (arrive t).mem = (arrive s).mem) : KeepsPromise s t :=
  ⟨[], nofun, h⟩

theorem SamePromise.keepsPromise {s t : State} (h : SamePromise s t) : KeepsPromise s t := .of_mem h.arrive_mem

/-- The promised writes are the same, whatever is done to the agenda. -/
theorem arrive_with_agenda (s : State) (rest : List Action) :
    arrive { s with agenda := rest } = { arrive s with agenda := rest } := by
  unfold arrive drainSink
  dsimp only
  split <;> rfl

theorem KeepsPromise.of_agenda {s t : State} {rest : List Action} (h : KeepsPromise { s with agenda := rest } t) :
    KeepsPromise s t := by
  unfold KeepsPromise at h
  rw [arrive_with_agenda] at h
  exact h

theorem KeepsPromise.settle {s t : State} (h : KeepsPromise s t) : KeepsPromise s (settleSync t) := by
  obtain ⟨l, hl, hmem⟩ := h
  have hsame : SamePromise t (settleSync t) := ⟨rfl, rfl, rfl, rfl, rfl⟩
  exact ⟨l, hl, hsame.arrive_mem.trans hmem⟩

/-! ## The turns of the other agents keep the promise -/

/-- A drain that goes past the promised writes performs some of those that come next. -/
theorem drainSink_keepsPromise {s : State} (hd : s.dis = false) (n : Nat) : KeepsPromise s (drainSink s n) := by
  obtain ⟨hmem, hpending, hpromised⟩ := drainSink_writes s n
  set k := drained s n
  refine ⟨s.physical ((s.amb.pending.drop s.promised).take (k - s.promised)), ?_, ?_⟩
  · rw [arrive_inFlight hd, ← arrive_pending s hd]
    exact physical_subset s (List.Subset.trans (List.take_subset _ _) (ambPushByte_prefix _ _).subset)
  · have hdis : (drainSink s n).dis = false := by rw [drainSink_eq]; exact hd
    have hcontext : (drainSink s n).sinkContext = s.sinkContext := by rw [drainSink_eq]; rfl
    have hcount : k + (s.promised - k) = s.promised + (k - s.promised) := by omega
    rw [arrive_mem _ hdis, arrive_mem s hd, physical_congr hcontext, hmem, hpending, hpromised, ← writePending_append,
      ← writePending_append, ← physical_append, ← physical_append, ← List.take_add, ← List.take_add, hcount]

/-- A byte that is handed over was under way, and its write comes after those the sink had. -/
theorem handOverByte_keepsPromise {s : State} (hd : s.dis = false) : KeepsPromise s (handOverByte s) := by
  rcases handOverByte_cases s with heq | ⟨_, heq⟩ | ⟨b, bs, hbuffer, heq⟩ <;> rw [heq]
  · exact .of_mem rfl
  · exact SamePromise.keepsPromise ⟨rfl, rfl, rfl, rfl, rfl⟩
  · obtain ⟨taken, hs, harrived⟩ := pushes_of_sameBuffer [b] (drainSink_sameBuffer s s.promised)
    refine ⟨s.physical (taken.take (s.promised - s.amb.pending.length)), ?_, ?_⟩
    · have hfirst : [b] <+: heldBytes s.cfg s.enc :=
        List.IsPrefix.trans (by rw [hbuffer]; exact ⟨bs, rfl⟩) (buffer_prefix_heldBytes s.cfg s.enc)
      have htaken : taken ⊆ ([b].foldl ambPushByte (arrive s).amb).pending := by
        rw [arrive, harrived]; exact List.subset_append_right _ _
      rw [arrive_inFlight hd]
      exact physical_subset s
        (List.Subset.trans (List.take_subset _ _) (List.Subset.trans htaken (pushes_prefix hfirst _).subset))
    · refine (arrive_mem { s with enc := _, amb := ambPushByte s.amb b } hd).trans ?_
      rw [arrive_mem s hd]
      show writePending (s.physical (([b].foldl ambPushByte s.amb).pending.take s.promised)) s.mem = _
      rw [hs, List.take_append, physical_append, writePending_append]

/-- The debugger's bit: the promised writes are performed, and what is under way beside them is flushed or lost (U16). -/
theorem disableSelfHosted_keepsPromise (s : State) : KeepsPromise s (disableSelfHosted s) := by
  have hmem : (arrive (disableSelfHosted s)).mem =
      if Config.freeBool .machine s.draws then writePending (arrive s).inFlight (arrive s).mem else (arrive s).mem := by
    rw [arrive_of_none _ rfl]; rfl
  split at hmem
  · exact ⟨_, fun w hw => hw, hmem⟩
  · exact .of_mem hmem

/-- A fault of a trace write loses no promised write. -/
theorem drainFaults_keepsPromise (s : State) : KeepsPromise s (drainFaults s) := by
  rcases drainFaults_cases s with ⟨_, heq⟩ | ⟨_, heq⟩ <;> rw [heq]
  · exact .of_mem rfl
  · exact .of_mem (by rw [arrive_of_none _ rfl])

theorem emitNow_samePromise (s : State) (item : Item) : SamePromise s (emitNow s item) := ⟨rfl, rfl, rfl, rfl, rfl⟩

theorem actItself_keepsPromise {s : State} (hd : s.dis = false) (a : Action) : KeepsPromise s (actItself s a) := by
  cases a with
  | trigger action =>
    show KeepsPromise s (fireTrigger s action)
    rcases fireTrigger_cases s action with heq | ⟨_, it, heq⟩ | heq <;> rw [heq]
    · exact .of_mem rfl
    · exact SamePromise.keepsPromise ⟨rfl, rfl, rfl, rfl, rfl⟩
    · exact (emitNow_samePromise s _).keepsPromise
  | debuggerSetDis v =>
    show KeepsPromise s (setDis s v)
    cases v with
    | false => rw [setDis, if_pos hd.symm]; exact .of_mem rfl
    | true => rw [setDis, hd]; exact disableSelfHosted_keepsPromise s
  | encoderItem x =>
    show KeepsPromise s (emitExtra s x)
    rcases emitExtra_cases s x with heq | ⟨item, heq⟩ <;> rw [heq]
    · exact .of_mem rfl
    · exact (emitNow_samePromise s item).keepsPromise
  | handOver => exact handOverByte_keepsPromise hd
  | sinkReady v =>
    show KeepsPromise s (sinkAccepts s v)
    rcases sinkAccepts_cases s v with ⟨_, heq⟩ | ⟨_, heq⟩ <;> rw [heq]
    · exact .of_mem rfl
    · exact SamePromise.keepsPromise ⟨rfl, rfl, rfl, rfl, rfl⟩
  | drain n => exact drainSink_keepsPromise hd n
  | drainFault => exact drainFaults_keepsPromise s
  | hart | debugMode | hartClock | timeAdvance | vmidChange => exact SamePromise.keepsPromise ⟨rfl, rfl, rfl, rfl, rfl⟩

theorem stalled_keepsPromise (s : State) : KeepsPromise s (stalled s) :=
  SamePromise.keepsPromise ⟨rfl, rfl, rfl, rfl, rfl⟩

theorem step_of_other_entry {s : State} {a : Action} {rest : List Action} (h : s.agenda = a :: rest) (ha : a ≠ .hart) :
    step s = .next (act { s with agenda := rest } a) := by
  cases a with
  | hart => exact absurd rfl ha
  | _ => simp only [step, turn, h]

theorem hartTurn_of_held {s : State} (h : s.hartHeld = true) : hartTurn s = .next (stalled s) := by
  rw [hartTurn, if_pos h]

/-- A step that is another agent's turn, or a stalled hart's, keeps the promise (R84). -/
theorem step_keepsPromise {s : State} (hd : s.dis = false)
    (h : s.hartHeld = true ∨ ∃ a rest, s.agenda = a :: rest ∧ a ≠ .hart) :
    ∃ t, step s = .next t ∧ KeepsPromise s t := by
  have other (a : Action) (rest : List Action) (hagenda : s.agenda = a :: rest) (ha : a ≠ .hart) :
      ∃ t, step s = .next t ∧ KeepsPromise s t :=
    ⟨_, step_of_other_entry hagenda ha,
      (KeepsPromise.settle (actItself_keepsPromise (s := { s with agenda := rest }) hd a)).of_agenda⟩
  rcases h with hheld | ⟨a, rest, hagenda, ha⟩
  · cases hagenda : s.agenda with
    | nil => exact ⟨_, step_of_held hagenda hheld, stalled_keepsPromise s⟩
    | cons a rest =>
      by_cases ha : a = .hart
      · subst ha
        have hturn := (step_of_hart_entry hagenda).trans (hartTurn_of_held (hartHeld_agenda s rest ▸ hheld))
        exact ⟨_, hturn, (stalled_keepsPromise { s with agenda := rest }).of_agenda⟩
      · exact other a rest hagenda ha
  · exact other a rest hagenda ha

/-! ## A fault of a trace write -/

/-- With no `Sync` overdue a fault leaves the encoder, and the writes under way are some of those after the promised ones
have arrived. -/
theorem drainFault_inFlight_subset {s : State} (hd : s.dis = false) (hsettled : SyncSettled s) :
    (act s .drainFault).inFlight ⊆ (arrive s).inFlight := by
  have hfault : act s .drainFault =
      { s with mem := (arrive s).mem, amb := ambFault (arrive s).amb, promised := 0 } := by
    have heq : drainFaults s = { s with mem := (arrive s).mem, amb := ambFault (arrive s).amb, promised := 0 } := by
      simp [drainFaults, hd]
    show settleSync (drainFaults s) = _
    rw [heq]
    exact settleSync_of_not_due _ hsettled
  obtain ⟨taken, harrived, hfaulted⟩ :=
    pushes_of_sameBuffer (heldBytes s.cfg s.enc) (ambFault_sameBuffer (arrive s).amb)
  have hflight : (act s .drainFault).inFlight =
      s.physical ((heldBytes s.cfg s.enc).foldl ambPushByte (ambFault (arrive s).amb)).pending := by
    rw [hfault]; exact inFlight_eq hd
  rw [hflight, arrive_inFlight hd, hfaulted, harrived]
  exact physical_subset s ((faultSurvivors_sublist (arrive s).amb).append_right taken).subset

/-! ## An instruction that reads EMPTY = 1 -/

theorem writeReg_eq (s : State) (r : Reg) (v : Word) : s.writeReg r v = { s with x := (s.writeReg r v).x } := by
  unfold State.writeReg
  split <;> rfl

theorem isStrc_of_isControl {id : CsrId} (h : id.isControl = true) : id.isStrc = true := by
  cases id with
  | mstrcctl | sstrcctl | vsstrcctl => rfl
  | _ => cases h

theorem resolveCsr_isControl {id : CsrId} (h : id.isControl = true) (virt : Bool) :
    (resolveCsr id virt).isControl = true := by
  cases id with
  | mstrcctl | sstrcctl | vsstrcctl => cases virt <;> rfl
  | _ => cases h

/-- An access to `mstrcctl` or a view of it changes the trace control, one register and the pc alone. -/
theorem csrPerform_of_control (s : State) {id : CsrId} (h : id.isControl = true) (isWrite : Bool) (f : Word → Word)
    (rd : Reg) :
    let t := csrPerform s id isWrite f rd
    t = { s with x := t.x, pc := t.pc, ctl := t.ctl, vsctl := t.vsctl } := by
  have hwrite (w : Word) :
      csrWrite s id w = { s with ctl := (csrWrite s id w).ctl, vsctl := (csrWrite s id w).vsctl } := by
    cases id with
    | mstrcctl | sstrcctl | vsstrcctl => rfl
    | _ => cases h
  cases isWrite with
  | false =>
    simp only [csrPerform, Bool.false_eq_true, if_false]
    rw [writeReg_eq]; rfl
  | true =>
    simp only [csrPerform, if_true]
    rw [writeReg_eq, hwrite]; rfl

/-- `trTeDisSelfHosted` = 0 where the STRC CSRs can be accessed (R128). -/
theorem dis_of_checkAccess_strc {s : State} {n : Nat} {isWrite : Bool} {id : CsrId} (hid : csrOf s.cfg n = some id)
    (hstrc : id.isStrc = true) (hok : checkAccess s n isWrite = none) : s.dis = false := by
  cases hd : s.dis with
  | false => rfl
  | true =>
    have hraise : checkStrcAccess s id = some .illegalInstruction := by rw [checkStrcAccess, hstrc, hd]; rfl
    simp only [checkAccess, hid, hstrc, Bool.true_or, if_true, hraise] at hok
    cases hok

/-- What stands where an instruction has read EMPTY = 1: nothing waits in the encoder, and it changes registers and trace
control alone. -/
theorem exec_of_readsEmpty {i : Instr} {s t : State} (hexec : exec i s = .next t) (h : readsEmpty i s = true) :
    instrRaises i s = none ∧ s.dis = false ∧ s.enc.buffer = [] ∧ s.enc.owed = [] ∧
    t = { s with x := t.x, pc := t.pc, ctl := t.ctl, vsctl := t.vsctl } := by
  simp only [readsEmpty, State.empty, Bool.and_eq_true, List.isEmpty_iff] at h
  obtain ⟨⟨⟨_, hbuffer, howed⟩, hnone⟩, hcontrol⟩ := h
  rcases exec_cases i s with ⟨e, hraise, _⟩ | ⟨id, f, rd, hraise, hid, heq⟩
  · rw [hraise] at hnone
    cases hnone
  · rw [heq] at hexec
    cases hexec
    have hctl : id.isControl = true := by simpa [hid] using hcontrol
    exact ⟨hraise, dis_of_checkAccess_strc hid (isStrc_of_isControl hctl) hraise, hbuffer, howed,
      csrPerform_of_control s (resolveCsr_isControl hctl s.virt) _ f rd⟩

/-- With EN = 0 before and after, an instruction puts nothing into the encoder's buffers. -/
theorem observe_disabled {s s' : State} (hs : s.ctl.en = false) (hs' : s'.ctl.en = false) (n : Nat) :
    (observe s s' none n).enc.buffer = s.enc.buffer ∧ (observe s s' none n).enc.owed = s.enc.owed := by
  obtain ⟨_, _, hcount, _⟩ := countHalfwords_fields s s.enc n
  obtain ⟨_, _, hretune, _⟩ := retune_fields s.ctl s'.ctl (countHalfwords s s.enc n)
  have hobserve : observe s s' none n = reacted s s' (countHalfwords s s.enc n, false) := by
    rw [observe, encoderReacts_quiet (hs'.trans hs.symm), Option.getD_some,
      syncAfter_of_not_due (syncDue_disabled hs _), settleSync_of_not_due _ (syncDue_disabled (s := reacted s s' _) hs' _)]
  rw [hobserve]
  simp only [reacted, hretune]
  rw [hcount]
  exact ⟨rfl, rfl⟩

/-- Reading EMPTY = 1 changes neither memory nor the sink, and promises all that the sink has to write, unless the
instruction stalls. -/
theorem observeInstr_of_readsEmpty {i : Instr} {s t : State} (hexec : exec i s = .next t) (h : readsEmpty i s = true) :
    let u := observeInstr i s t
    u = stallOn s u.enc.held ∨
      u.amb = s.amb ∧ u.mem = s.mem ∧ u.dis = false ∧ u.sinkContext = s.sinkContext ∧
        u.promised = s.amb.pending.length ∧
        (s.ctl.en = false → t.ctl.en = false → u.enc.buffer = [] ∧ u.enc.owed = []) := by
  obtain ⟨hraise, hdis, hbuffer, howed, ht⟩ := exec_of_readsEmpty hexec h
  obtain ⟨x, pc, ctl, vsctl, rfl⟩ : ∃ x pc ctl vsctl, t = { s with x := x, pc := pc, ctl := ctl, vsctl := vsctl } :=
    ⟨_, _, _, _, ht⟩
  simp only [observeInstr, hraise, afterRead, h, if_true]
  set s' := promiseAll { s with x := x, pc := pc, ctl := ctl, vsctl := vsctl }
  rcases observe_cases s s' (whenGenerating s (.flow ⟨s.pc, 2, .sequential, pc⟩)) 2 with ⟨_, hstall⟩ | hsome
  · rw [hstall]; exact Or.inl rfl
  · refine Or.inr ?_
    obtain ⟨hu, _⟩ := encoderReacts_eq hsome
    rw [hu]
    refine ⟨rfl, rfl, hdis, rfl, rfl, fun hs hs' => ?_⟩
    rw [whenGenerating_off (by simp [State.generating, hs])]
    obtain ⟨hb, ho⟩ := observe_disabled (s' := s') hs hs' 2
    exact ⟨hb.trans hbuffer, ho.trans howed⟩

/-! ## A load -/

/-- Byte `j` of a word whose least significant byte stands last. -/
theorem extractLsb'_append_byte {width : Nat} (high : BitVec width) (low : Byte) (j : Nat) :
    (high ++ low).extractLsb' (8 * j) 8 = if j = 0 then low else high.extractLsb' (8 * (j - 1)) 8 := by
  cases j with
  | zero => exact BitVec.extractLsb'_append_eq_right
  | succ j => rw [BitVec.extractLsb'_append_eq_of_le (by omega)]; rfl

/-- The whole word of a load: byte `j` from the least significant, whatever the eight bytes are. -/
theorem extractLsb'_eight_bytes (b : Nat → Byte) {j : Nat} (hj : j < 8) :
    BitVec.extractLsb' (n := 64) (8 * j) 8 (b 7 ++ b 6 ++ b 5 ++ b 4 ++ b 3 ++ b 2 ++ b 1 ++ b 0) = b j := by
  iterate 7 rw [extractLsb'_append_byte]
  interval_cases j <;> simp

/-- Eight bytes in either byte order, `b 0` the one at the lowest address. -/
theorem extractLsb'_ordered_bytes (big : Bool) (b : Nat → Byte) {j : Nat} (hj : j < 8) :
    BitVec.extractLsb' (n := 64) (8 * j) 8
      (if big then b 0 ++ b 1 ++ b 2 ++ b 3 ++ b 4 ++ b 5 ++ b 6 ++ b 7
        else b 7 ++ b 6 ++ b 5 ++ b 4 ++ b 3 ++ b 2 ++ b 1 ++ b 0) = b (if big then 7 - j else j) := by
  cases big with
  | false => exact extractLsb'_eight_bytes b hj
  | true =>
    have hreversed := extractLsb'_eight_bytes (fun i => b (7 - i)) hj
    exact hreversed

/-- Byte `j` of a loaded word, from the least significant: the bytes stand in the byte order of data accesses (R86). -/
theorem loadWord_byte (s : State) (addr : Word) {j : Nat} (hj : j < 8) :
    let k := if s.bigEndian then 7 - j else j
    (loadWord s addr).extractLsb' (8 * j) 8 = loadByte s k (byteAddr addr k) :=
  extractLsb'_ordered_bytes s.bigEndian (fun i => loadByte s i (byteAddr addr i)) hj

theorem hartActs_of_retire {s : State} {compressed : Bool} {op : HostOp} {rest : List HartInput}
    (h : s.hartInputs = .retire compressed op :: rest) : hartActs s = .next (hostRetire s compressed op) := by
  simp only [hartActs, h]

/-- The hart's next base instruction runs where the promised writes have arrived. -/
theorem step_of_retire {s u : State} {compressed : Bool} {op : HostOp} {rest : List HartInput}
    (hturn : (s.agenda = [] ∧ u = s) ∨ ∃ later, s.agenda = .hart :: later ∧ u = { s with agenda := later })
    (hinput : s.hartInputs = .retire compressed op :: rest) (hfree : s.hartHeld = false) :
    step s = .next (hostRetire (arrive u) compressed op) := by
  rcases hturn with ⟨hagenda, rfl⟩ | ⟨later, hagenda, rfl⟩
  · rw [step_of_hart_turn (Or.inl ⟨hagenda, rfl⟩) hfree]
    exact hartActs_of_retire ((arrive_hartInputs _).trans hinput)
  · rw [step_of_hart_turn (Or.inr ⟨later, hagenda, rfl⟩) hfree]
    exact hartActs_of_retire ((arrive_hartInputs _).trans hinput)

/-- Settles O59. -/
theorem loadSeesAllTrace : Obligations.LoadSeesAllTrace := by
  refine ⟨fun i s t hexec hreads => ?_, fun s => step_keepsPromise, fun s u _ _ _ => step_of_retire,
    fun s hd hsettled _ hw => drainFault_inFlight_subset hd hsettled hw, fun v k a h => loadByte_of_outside h k⟩
  intro u v
  refine (observeInstr_of_readsEmpty hexec hreads).imp_right fun ⟨hamb, hmem, hdis, hcontext, hpromised, hquiet⟩ => ?_
  obtain ⟨hnone, hwritten⟩ := arrive_all u hdis (hpromised.trans (congrArg (·.pending.length) hamb.symm))
  refine ⟨hamb, hmem, hnone, ?_, fun hs ht => ?_⟩
  · rw [hwritten, physical_congr hcontext, hamb, hmem]
  · obtain ⟨hbuffer, howed⟩ := hquiet hs ht
    have hflight : v.inFlight = [] :=
      inFlight_of_nothing (by rw [arrive_enc]; exact howed) (by rw [arrive_enc]; exact hbuffer) hnone
    refine ⟨hflight, fun addr j hj => ?_⟩
    rw [loadWord_byte v addr hj]
    exact loadByte_of_outside (by simp [hflight]) _

end Sys2Proof.Machine
end

section
/-! SUPPORT. The decoder as a function of the fields of a word, its round trips with the encoder, and the settlement of
O1 to O4. -/

namespace Sys2Proof

/-! ## The decoder by fields -/

/-- The instruction with given fields, as `funct3` selects it (R103). -/
def instrOfFields (csr : Nat) (src : BitVec 5) (f3 : BitVec 3) (rd : Reg) : Except DecodeError Instr :=
  match f3.toNat with
  | 1 => .ok (.csrrw rd csr src.toFin)
  | 2 => .ok (.csrrs rd csr src.toFin)
  | 3 => .ok (.csrrc rd csr src.toFin)
  | 5 => .ok (.csrrwi rd csr src)
  | 6 => .ok (.csrrsi rd csr src)
  | 7 => .ok (.csrrci rd csr src)
  | _ => .error .notCsrAccess

/-- A word of the opcode SYSTEM decodes by its fields alone. -/
theorem decodeWord_of_system {w : BitVec 32} (h : fieldOpcode w = opcodeSystem) :
    decodeWord w = instrOfFields (fieldCsr w) (fieldUimm w) (fieldFunct3 w) (fieldRd w) :=
  decodeWord_fields w h

/-- The decoder accepts no word of another opcode. -/
theorem fieldOpcode_of_decodeWord {w : BitVec 32} {i : Instr} (h : decodeWord w = .ok i) :
    fieldOpcode w = opcodeSystem := by
  unfold decodeWord at h
  split_ifs at h with _ hopcode
  exact not_not.mp hopcode

/-- An assembled word decodes to the instruction of its fields. -/
theorem decodeWord_encodeFields {csr : Nat} (hcsr : csr < 4096) (src : BitVec 5) (f3 : BitVec 3) (rd : Reg) :
    decodeWord (encodeFields csr src f3 rd) = instrOfFields csr src f3 rd := by
  rw [decodeWord_of_system (encodeFields_op ..), encodeFields_csr csr src f3 rd hcsr, encodeFields_f3, encodeFields_rd,
    fieldUimm, encodeFields_src]

/-- The fields of an instruction are what its word is assembled from. -/
theorem encode_of_instrOfFields {csr : Nat} {src : BitVec 5} {f3 : BitVec 3} {rd : Reg} {i : Instr}
    (h : instrOfFields csr src f3 rd = .ok i) : i.csrNumber = csr ∧ encode i = encodeFields csr src f3 rd := by
  have select (b : BitVec 3) (hb : f3.toNat = b.toNat) : f3 = b := BitVec.eq_of_toNat_eq hb
  unfold instrOfFields at h
  split at h <;> cases h
  case h_1 hf3 => exact ⟨rfl, by rw [select 1#3 hf3]; rfl⟩
  case h_2 hf3 => exact ⟨rfl, by rw [select 2#3 hf3]; rfl⟩
  case h_3 hf3 => exact ⟨rfl, by rw [select 3#3 hf3]; rfl⟩
  case h_4 hf3 => exact ⟨rfl, by rw [select 5#3 hf3]; rfl⟩
  case h_5 hf3 => exact ⟨rfl, by rw [select 6#3 hf3]; rfl⟩
  case h_6 hf3 => exact ⟨rfl, by rw [select 7#3 hf3]; rfl⟩

/-! ## The round trips -/

/-- Settles O1. -/
theorem decodeOfEncode : Obligations.DecodeOfEncode := by
  intro i hi
  cases i <;> exact decodeWord_encodeFields hi ..

/-- Settles O2: an accepted word is assembled from its own fields, and the CSR number among them has 12 bits. -/
theorem encodeOfDecode : Obligations.EncodeOfDecode := by
  intro w i h
  have hopcode := fieldOpcode_of_decodeWord h
  obtain ⟨hcsr, hword⟩ := encode_of_instrOfFields ((decodeWord_of_system hopcode).symm.trans h)
  have hfits : fieldCsr w < 4096 := (w.extractLsb' 20 12).isLt
  exact ⟨hcsr.trans_lt hfits, hword.trans (encodeFields_of_fields w hopcode)⟩

/-! ## The layout of a word (R103) -/

/-- The concatenation of the fields is the sum of their shifts. -/
theorem encodeFields_eq_or (csr : Nat) (src : BitVec 5) (f3 : BitVec 3) (rd : Reg) :
    encodeFields csr src f3 rd =
      (BitVec.ofNat 32 csr <<< 20) ||| (BitVec.ofNat 32 src.toNat <<< 15) ||| (BitVec.ofNat 32 f3.toNat <<< 12) |||
      (BitVec.ofNat 32 rd.val <<< 7) ||| 0x73#32 := by
  have hrd : rd.val = (BitVec.ofFin rd : BitVec 5).toNat := rfl
  have hcsr : BitVec.ofNat 12 csr = (BitVec.ofNat 32 csr).setWidth 12 := by simp
  have hopcode : 0x73#32 = opcodeSystem.setWidth 32 := rfl
  rw [encodeFields, hrd, hcsr, hopcode]
  simp only [BitVec.ofNat_toNat]
  apply BitVec.eq_of_getLsbD_eq
  intro i hi
  simp only [BitVec.getLsbD_append, BitVec.getLsbD_or, BitVec.getLsbD_shiftLeft, BitVec.getLsbD_setWidth]
  interval_cases i <;> simp

/-- The mask of a row keeps the opcode. -/
theorem fieldOpcode_masked (w : BitVec 32) : fieldOpcode (w &&& 0x707F#32) = fieldOpcode w := by
  have hmask : (0x707F#32).extractLsb' 0 7 = BitVec.allOnes 7 := rfl
  rw [fieldOpcode, BitVec.extractLsb'_and, hmask, BitVec.and_allOnes, fieldOpcode]

/-- The mask of a row keeps `funct3`. -/
theorem fieldFunct3_masked (w : BitVec 32) : fieldFunct3 (w &&& 0x707F#32) = fieldFunct3 w := by
  have hmask : (0x707F#32).extractLsb' 12 3 = BitVec.allOnes 3 := rfl
  rw [fieldFunct3, BitVec.extractLsb'_and, hmask, BitVec.and_allOnes, fieldFunct3]

/-- `funct3` 000 and 100 are no CSR access. -/
theorem decodeWord_not_csrAccess {w : BitVec 32} (h : w &&& 0x707F#32 = 0x0073#32 ∨ w &&& 0x707F#32 = 0x4073#32) :
    decodeWord w = .error .notCsrAccess := by
  have hopcode : fieldOpcode w = opcodeSystem := by
    rw [← fieldOpcode_masked]
    rcases h with h | h <;> rw [h] <;> rfl
  rw [decodeWord_of_system hopcode, ← fieldFunct3_masked]
  rcases h with h | h <;> rw [h] <;> rfl

/-- Settles O3. -/
theorem encodingLayout : Obligations.EncodingLayout := by
  refine ⟨fun rd rs1 uimm csr _ => ?_, fun w => decodeWord_not_csrAccess⟩
  exact ⟨encodeFields_eq_or .., encodeFields_eq_or .., encodeFields_eq_or .., encodeFields_eq_or ..,
    encodeFields_eq_or .., encodeFields_eq_or ..,
    Laws.EncodingHasRowPattern.csrrw .., Laws.EncodingHasRowPattern.csrrs ..,
    Laws.EncodingHasRowPattern.csrrc .., Laws.EncodingHasRowPattern.csrrwi .., Laws.EncodingHasRowPattern.csrrsi ..,
    Laws.EncodingHasRowPattern.csrrci ..⟩

/-- A word is read as the instruction it is the encoding of. -/
theorem decodeWord_of_encode {i : Instr} {w : BitVec 32} (hi : i.WellFormed) (h : encode i = w) :
    decodeWord w = .ok i :=
  h ▸ decodeOfEncode i hi

/-- Settles O4: each word is the encoding of its instruction. -/
theorem sampleWordsDecode : Obligations.SampleWordsDecode := by
  refine ⟨?_, ?_, ?_, ?_, ?_, ?_, ?_⟩ <;> exact decodeWord_of_encode (by decide) rfl

end Sys2Proof
end

section
/-! SUPPORT. Bytes read back after they were stored, and the settlement of O7. -/

namespace Sys2Proof.Machine

theorem byteAddr_zero (addr : Word) : byteAddr addr 0 = addr.toNat := by
  simp [byteAddr]

theorem byteAddr_succ (addr : Word) (i : Nat) : byteAddr (addr + 1) i = byteAddr addr (i + 1) := by
  have hsum : 1 + BitVec.ofNat 64 i = BitVec.ofNat 64 (i + 1) := by rw [BitVec.ofNat_add, BitVec.add_comm]; rfl
  rw [byteAddr, byteAddr, BitVec.add_assoc, hsum]

/-- Addresses of an access wrap at 2^64, so only an access as long as that comes back to its first byte. -/
theorem byteAddr_succ_ne (addr : Word) {i : Nat} (h : i + 1 < 2 ^ 64) : addr.toNat ≠ byteAddr addr (i + 1) := by
  have hbound := addr.isLt
  simp only [byteAddr, BitVec.toNat_add, BitVec.toNat_ofNat]
  omega

/-- A byte that was stored reads back, also when the access goes across the top of memory. -/
theorem memRead_memWriteBytes {m : List Host.Cell} (hm : memWf m) (addr : Word) (bs : List Byte) {i : Nat}
    (hi : i < bs.length) (hlength : bs.length ≤ 2 ^ 64) :
    memRead (memWriteBytes m addr bs) (byteAddr addr i) = bs[i] := by
  induction bs generalizing m addr i with
  | nil => cases hi
  | cons b bs ih =>
    rw [List.length_cons] at hi hlength
    rw [memWriteBytes_cons]
    cases i with
    | zero =>
      rw [byteAddr_zero, memRead_memWriteBytes_of_outside, memRead_memWrite_same hm]
      · rfl
      · intro j hj
        rw [byteAddr_succ]
        exact byteAddr_succ_ne addr (by omega)
    | succ i =>
      rw [← byteAddr_succ, ih (memWrite_wf hm addr.isLt b) (addr + 1) (by omega) (by omega)]
      rfl

/-- The four bytes of a word, put together again. -/
theorem wordOfBytes_byteOfWord (w : BitVec 32) :
    wordOfBytes (byteOfWord w 0) (byteOfWord w 1) (byteOfWord w 2) (byteOfWord w 3) = w := by
  apply BitVec.eq_of_getLsbD_eq
  intro i hi
  simp only [wordOfBytes, byteOfWord, BitVec.getLsbD_append, BitVec.getLsbD_extractLsb']
  interval_cases i <;> simp

/-- A fetch gives the word that was stored at the pc. -/
theorem fetchWord_memWriteBytes {m : List Host.Cell} (hm : memWf m) (pc : Word) (w : BitVec 32) :
    fetchWord (memWriteBytes m pc (bytesOfWord w)) pc = w := by
  have hbyte (k : Nat) (hk : k < 4) :
      memRead (memWriteBytes m pc (bytesOfWord w)) (byteAddr pc k) = (bytesOfWord w)[k] :=
    memRead_memWriteBytes hm pc (bytesOfWord w) hk (show 4 ≤ 2 ^ 64 by decide)
  rw [fetchWord, hbyte 0 (by decide), hbyte 1 (by decide), hbyte 2 (by decide), hbyte 3 (by decide)]
  exact wordOfBytes_byteOfWord w

theorem withFetchWord_toNat (s : State) (w : BitVec 32) : s.withFetchWord 32 w.toNat = placeInstr s w := by
  rw [State.withFetchWord, Nat.mod_eq_of_lt w.isLt, BitVec.ofNat_toNat, BitVec.setWidth_eq]

/-- Settles O7: the placed word is fetched and decoded again, and by O5 the step runs what is decoded. -/
theorem placedInstructionRuns : Obligations.PlacedInstructionRuns := by
  intro s i hi hmem hpc
  rw [withFetchWord_toNat]
  have harrived : placeInstr s (encode i) = arrive (placeInstr s (encode i)) := (arrive_of_none _ rfl).symm
  have hdecode : decodeWord (fetchWord (placeInstr s (encode i)).mem s.pc) = .ok i := by
    rw [placeInstr, fetchWord_memWriteBytes hmem, decodeOfEncode i hi]
  exact stepRunsTheDecodedInstruction _ _ _ i (Or.inl ⟨rfl, harrived⟩) (Or.inl ⟨rfl, rfl⟩) (hartHeld_of_nothing rfl rfl)
    hpc hdecode

end Sys2Proof.Machine
end

section
/-! SUPPORT. The access check of the CSRs that are no STRC or context CSRs, by the level in the CSR number, and the
settlement of O24 and O28. -/

namespace Sys2Proof.Machine

/-! ## Which check an access goes to -/

theorem checkAccess_of_no_csr {s : State} {n : Nat} (h : csrOf s.cfg n = none) (isWrite : Bool) :
    checkAccess s n isWrite = some .illegalInstruction := by
  simp only [checkAccess, h]

theorem checkAccess_host {s : State} {n : Nat} {id : CsrId} (hid : csrOf s.cfg n = some id)
    (hstrc : id.isStrc = false) (hcontext : id.isContext = false) (isWrite : Bool) :
    checkAccess s n isWrite = checkHostAccess s id n isWrite := by
  simp only [checkAccess, hid, hstrc, hcontext, Bool.or_self, Bool.false_eq_true, if_false]

/-- The context CSRs exist in every configuration (R53, R54). -/
theorem isContext_of_not_exists {c : Config} {id : CsrId} (h : hostCsrExists c id = false) : id.isContext = false := by
  cases id with
  | scontext | hcontext => cases h
  | _ => rfl

theorem checkHostAccess_of_not_exists {s : State} {id : CsrId} (h : hostCsrExists s.cfg id = false) (n : Nat)
    (isWrite : Bool) : checkHostAccess s id n isWrite = some .illegalInstruction := by
  simp [checkHostAccess, h]

/-- Settles O24. -/
theorem unimplementedCsrIsIllegal : Obligations.UnimplementedCsrIsIllegal := by
  intro i s h
  apply exec_of_raise
  rcases h with hnone | ⟨id, hid, hstrc, hexists⟩
  · exact checkAccess_of_no_csr hnone _
  · rw [instrRaises, checkAccess_host hid hstrc (isContext_of_not_exists hexists),
      checkHostAccess_of_not_exists hexists]

/-! ## Privilege by CSR number (R104, R129) -/

section level
variable {s : State} {id : CsrId} {n : Nat} (hexists : hostCsrExists s.cfg id = true) (hrw : csrReadOnly n = false)
include hexists hrw

/-- A read/write CSR of level 3 is M-mode's. -/
theorem checkHostAccess_machine_level (hlevel : csrLevel n = 3) (isWrite : Bool) :
    checkHostAccess s id n isWrite = if s.priv = .machine then none else some .illegalInstruction := by
  simp [checkHostAccess, hexists, hrw, hlevel]

/-- A read/write CSR of level 2 is M-mode's and HS-mode's; V = 1 decides between the two exceptions. -/
theorem checkHostAccess_hypervisor_level (hlevel : csrLevel n = 2) (isWrite : Bool) :
    checkHostAccess s id n isWrite =
      match s.priv, s.virt with
      | .machine, _ => none
      | .supervisor, false => none
      | .user, false => some .illegalInstruction
      | _, true => some .virtualInstruction := by
  cases hpriv : s.priv <;> cases hvirt : s.virt <;> simp [checkHostAccess, hexists, hrw, hlevel, hpriv, hvirt]

end level

/-- Settles O28. -/
theorem privilegeByCsrNumber : Obligations.PrivilegeByCsrNumber := by
  intro i s hlegal hH hstateen
  have host {n : Nat} {id : CsrId} (hn : i.csrNumber = n) (hid : hostCsrTable.lookup n = some id)
      (hstrc : id.isStrc = false) (hcontext : id.isContext = false) :
      instrRaises i s = checkHostAccess s id n (instrWrites i) := by
    rw [instrRaises, hn]
    exact checkAccess_host (csrOf_host hlegal hid) hstrc hcontext _
  refine ⟨?_, ?_⟩
  · rintro (hn | hn)
    · rw [host (id := .menvcfg) hn rfl rfl rfl]
      exact checkHostAccess_machine_level rfl rfl rfl _
    · rw [host (id := .mstateen0) hn rfl rfl rfl]
      exact checkHostAccess_machine_level (s := s) (id := .mstateen0) hstateen rfl rfl _
  · rintro (hn | hn)
    · rw [host (id := .henvcfg) hn rfl rfl rfl]
      exact checkHostAccess_hypervisor_level (s := s) (id := .henvcfg) hH rfl rfl _
    · rw [host (id := .hstateen0) hn rfl rfl rfl]
      exact checkHostAccess_hypervisor_level (by simp [hostCsrExists, hH, hstateen]) rfl rfl _

end Sys2Proof.Machine
end

section
/-! SUPPORT. What one CSR access instruction does and what it leaves as it was, and the settlement of O11 to O18. -/

namespace Sys2Proof.Machine

/-! ## One access -/

/-- But for a register and the pc, an access is the write of the CSR, or nothing where the form does not write. -/
theorem csrPerform_eq (s : State) (id : CsrId) (isWrite : Bool) (f : Word → Word) (rd : Reg) :
    let t := csrPerform s id isWrite f rd
    t = { (if isWrite then csrWrite s id (f (csrRead s id)) else s) with x := t.x, pc := t.pc } := by
  simp only [csrPerform]
  rw [writeReg_eq]
  rfl

theorem csrPerform_sameRegsBut (s : State) (id : CsrId) (isWrite : Bool) (f : Word → Word) (rd : Reg) :
    SameRegsBut rd s (csrPerform s id isWrite f rd) := by
  intro r hr
  rw [csrPerform_readReg, if_neg fun h => hr h.1]

/-- One access instruction, whose form writes the CSR unless `p`: it raises what the check answers, or reads the CSR
into `rd`, writes it unless `p`, and goes on to the next instruction (R120). -/
theorem csrAccess_unless (p : Prop) [Decidable p] (s : State) (n : Nat) (f : Word → Word) (rd : Reg)
    (word : BitVec 32) :
    let next : Host.Outcome State Fault Refusal := .next (csrAccess s n (decide ¬p) f rd word)
    (∀ e, checkAccess s n (decide ¬p) = some e → next = .next (raiseExc s e word)) ∧
    (checkAccess s n (decide ¬p) = none → ∃ id t, csrOf s.cfg n = some id ∧ next = .next t ∧
      t.pc = s.pc + 4 ∧ t.readReg rd = (if rd = 0 then 0 else csrRead s (resolveCsr id s.virt)) ∧
      SameRegsBut rd s t ∧
      t = { (if p then s else csrWrite s (resolveCsr id s.virt) (f (csrRead s (resolveCsr id s.virt)))) with
            x := t.x, pc := t.pc }) := by
  intro next
  refine ⟨fun e he => congrArg _ (csrAccess_of_raise he f rd word), fun hok => ?_⟩
  obtain ⟨id, hid⟩ := csrOf_of_checkAccess_none hok
  refine ⟨id, _, hid, congrArg _ (csrAccess_of_ok hok hid f rd word), rfl, csrPerform_readReg_rd ..,
    csrPerform_sameRegsBut _ _ _ _ _, ?_⟩
  conv_lhs => rw [csrPerform_eq]
  by_cases hp : p <;> simp [hp]

/-- Settles O11: the form always writes. -/
theorem csrrwSwaps : Obligations.CsrrwSwaps := fun rd csr rs1 s =>
  csrAccess_unless False s csr (fun _ => s.readReg rs1) rd _

/-- Settles O12: the form writes unless `rs1` is `x0`. -/
theorem csrrsSetsBits : Obligations.CsrrsSetsBits := fun rd csr rs1 s =>
  csrAccess_unless (rs1 = 0) s csr (· ||| s.readReg rs1) rd _

/-- Settles O13: the form writes unless `rs1` is `x0`. -/
theorem csrrcClearsBits : Obligations.CsrrcClearsBits := fun rd csr rs1 s =>
  csrAccess_unless (rs1 = 0) s csr (· &&& ~~~s.readReg rs1) rd _

/-- Settles O14: the form always writes, also an immediate of 0. -/
theorem csrrwiWritesImmediate : Obligations.CsrrwiWritesImmediate := fun rd csr uimm s =>
  csrAccess_unless False s csr (fun _ => uimm.setWidth 64) rd _

/-- Settles O15: the form writes unless the immediate is 0. -/
theorem csrrsiSetsImmediateBits : Obligations.CsrrsiSetsImmediateBits := fun rd csr uimm s =>
  csrAccess_unless (uimm = 0) s csr (· ||| uimm.setWidth 64) rd _

/-- Settles O16: the form writes unless the immediate is 0. -/
theorem csrrciClearsImmediateBits : Obligations.CsrrciClearsImmediateBits := fun rd csr uimm s =>
  csrAccess_unless (uimm = 0) s csr (· &&& ~~~(uimm.setWidth 64)) rd _

/-! ## The frame of an access -/

/-- An instruction that the check lets through is performed on the CSR its number resolves to, and its `rd` is the one
in its word. -/
theorem exec_of_retire {i : Instr} {s : State} {id : CsrId} (h : instrRaises i s = none)
    (hid : csrOf s.cfg i.csrNumber = some id) :
    ∃ f, exec i s = .next (csrPerform s (resolveCsr id s.virt) (instrWrites i) f (fieldRd (encode i))) := by
  have performed (f : Word → Word) (rd : Reg) (word : BitVec 32) :
      (.next (csrAccess s i.csrNumber (instrWrites i) f rd word) : Host.Outcome State Fault Refusal) =
        .next (csrPerform s (resolveCsr id s.virt) (instrWrites i) f rd) :=
    congrArg _ (csrAccess_of_ok h hid f rd word)
  cases i <;> simp only [encode, encodeFields_rd] <;> exact ⟨_, performed _ _ _⟩

/-- An access leaves each group of CSRs that the accessed one is not in. -/
theorem csrPerform_groups (s : State) (id : CsrId) (isWrite : Bool) (f : Word → Word) (rd : Reg) :
    let t := csrPerform s id isWrite f rd
    (id.isControl = false → t.ctl = s.ctl ∧ t.vsctl = s.vsctl) ∧ (id.isSink = false → t.amb = s.amb) ∧
    (id.isEnv = false → t.env = s.env) ∧ (id.isTrap = false → t.trap = s.trap) := by
  simp only [csrPerform_ctl, csrPerform_vsctl, csrPerform_amb, csrPerform_env, csrPerform_trap]
  cases isWrite with
  | false => simp
  | true =>
    simp only [if_true]
    refine ⟨fun h => ?_, fun h => ?_, csrWrite_env_of_other s id _, csrWrite_trap_of_other s id _⟩
    · have hm : id ≠ .mstrcctl := by rintro rfl; cases h
      have hs : id ≠ .sstrcctl := by rintro rfl; cases h
      have hvs : id ≠ .vsstrcctl := by rintro rfl; cases h
      exact ⟨csrWrite_ctl_of_other s id _ ⟨hm, hs, hvs⟩, csrWrite_vsctl_of_other s id _ hvs⟩
    · exact csrWrite_amb_of_other s id _ (by constructor <;> rintro rfl <;> cases h)

/-- Settles O17, from what an access leaves of each field of the state. -/
theorem csrAccessFrame : Obligations.CsrAccessFrame := by
  intro i s id hok hid
  obtain ⟨f, hexec⟩ := exec_of_retire hok hid
  refine ⟨_, _, hexec, rfl, fun a => by rw [csrPerform_mem], csrPerform_mem .., csrPerform_sameRegsBut _ _ _ _ _,
    ?_, ?_, csrPerform_enc .., csrPerform_dis .., csrPerform_groups ..⟩
  · simp [SameMode]
  · simp [SameOutside]

/-- Settles O18: the exception is taken as a trap. -/
theorem raisingChangesNoTraceState : Obligations.RaisingChangesNoTraceState := by
  intro i s e hraise
  refine ⟨_, exec_of_raise hraise, ?_, takeTrap_env .., takeTrap_readReg _ _ _ _, fun a => ?_, ?_⟩
  · simp [raiseExc, SameTrace]
  · rw [raiseExc, takeTrap_mem]
  · simp [raiseExc, SameOutside]

end Sys2Proof.Machine
end

section
/-! SUPPORT. The access check of the STRC CSRs and the context CSRs (R128 to R136), and the settlement of O23, O25, O26
and O27. -/

namespace Sys2Proof.Machine

theorem checkAccess_strc {s : State} {n : Nat} {id : CsrId} (hid : csrOf s.cfg n = some id) (h : id.isStrc = true)
    (isWrite : Bool) : checkAccess s n isWrite = checkStrcAccess s id := by
  simp only [checkAccess, hid, h, Bool.true_or, if_true]

theorem checkAccess_context {s : State} {n : Nat} {id : CsrId} (hid : csrOf s.cfg n = some id)
    (h : id.isContext = true) (isWrite : Bool) : checkAccess s n isWrite = checkStrcAccess s id := by
  simp only [checkAccess, hid, h, Bool.or_true, if_true]

/-! ## Existence (R128) -/

theorem checkStrcAccess_of_dis {s : State} {id : CsrId} (h : id.isStrc = true) (hdis : s.dis = true) :
    checkStrcAccess s id = some .illegalInstruction := by
  simp [checkStrcAccess, h, hdis]

theorem checkStrcAccess_of_no_hypervisor {s : State} (h : s.cfg.hasH = false) :
    checkStrcAccess s .vsstrcctl = some .illegalInstruction := by
  simp [checkStrcAccess, h]

/-- Each of the five numbers names an STRC CSR. -/
theorem csrOf_strcNumbers {c : Config} (h : CsrNumbersLegal c) {n : Nat} (hn : n ∈ strcNumbers c) :
    ∃ id, csrOf c n = some id ∧ id.isStrc = true := by
  obtain ⟨hm, hs, hvs, hcs, haddr⟩ := csrOf_strc h
  simp only [strcNumbers, List.mem_cons, List.not_mem_nil, or_false] at hn
  rcases hn with rfl | rfl | rfl | rfl | rfl
  · exact ⟨_, hm, rfl⟩
  · exact ⟨_, hs, rfl⟩
  · exact ⟨_, hvs, rfl⟩
  · exact ⟨_, hcs, rfl⟩
  · exact ⟨_, haddr, rfl⟩

/-- Settles O23: the check's first step comes before it looks at the mode. -/
theorem strcCsrExistence : Obligations.StrcCsrExistence := by
  intro i s hlegal h
  apply exec_of_raise
  rcases h with ⟨hn, hdis⟩ | ⟨hn, hH⟩
  · obtain ⟨id, hid, hstrc⟩ := csrOf_strcNumbers hlegal hn
    rw [instrRaises, checkAccess_strc hid hstrc, checkStrcAccess_of_dis hstrc hdis]
  · obtain ⟨_, _, hid, _⟩ := csrOf_strc hlegal
    rw [instrRaises, hn, checkAccess_strc hid rfl, checkStrcAccess_of_no_hypervisor hH]

/-! ## The check mode by mode -/

/-- The answer of the check in each mode for a CSR below the machine level (R138): `machineLevel` says whether the
machine-level state enable lets the access through, `guest` whether VS-mode then reaches the CSR. -/
def modeAnswer (s : State) (machineLevel guest : Bool) : Option Exc :=
  match s.priv, s.virt with
  | .machine, _ => none
  | .supervisor, false => if machineLevel then none else some .illegalInstruction
  | .user, false => some .illegalInstruction
  | .supervisor, true =>
    if machineLevel then (if guest then none else some .virtualInstruction) else some .illegalInstruction
  | .user, true => if machineLevel then some .virtualInstruction else some .illegalInstruction

theorem modeAnswer_disabled {s : State} (h : s.priv ≠ .machine) (guest : Bool) :
    modeAnswer s false guest = some .illegalInstruction := by
  unfold modeAnswer
  cases hpriv : s.priv with
  | machine => exact absurd hpriv h
  | supervisor | user => cases s.virt <;> rfl

theorem modeAnswer_hs {s : State} (h : InHS s) (guest : Bool) : modeAnswer s true guest = none := by
  simp [modeAnswer, h.1, h.2]

theorem modeAnswer_vs {s : State} (h : InVS s) (guest : Bool) :
    modeAnswer s true guest = if guest then none else some .virtualInstruction := by
  simp [modeAnswer, h.1, h.2]

theorem modeAnswer_vu {s : State} (h : InVU s) (guest : Bool) :
    modeAnswer s true guest = some .virtualInstruction := by
  simp [modeAnswer, h.1, h.2]

/-- The machine-level state enable of a CSR below M-mode: either bit opens a context CSR (R131, R134). -/
def machineEnables (s : State) (id : CsrId) : Bool := s.mSTRC || (id.isContext && s.m57)

/-- The hypervisor-level state enable of a CSR in VS-mode (R133, R135). -/
def hypervisorEnables (s : State) (id : CsrId) : Bool := s.hSTRC || (id.isContext && s.h57)

/-- The CSRs with numbers of the hypervisor level, which V = 1 does not reach (R129). -/
def hypervisorLevel (id : CsrId) : Bool := id = .vsstrcctl || id = .hcontext

/-- The CSRs of the check, `mstrcctl` apart: the supervisor's STRC CSRs, `vsstrcctl`, and the two context CSRs. -/
theorem strc_or_context_cases {id : CsrId} (h : id.isStrc = true ∨ id.isContext = true) (hne : id ≠ .mstrcctl) :
    (id.isStrcS = true ∧ id.isContext = false ∧ id ≠ .vsstrcctl ∧ id ≠ .scontext ∧ id ≠ .hcontext) ∨
    id = .vsstrcctl ∨ id = .scontext ∨ id = .hcontext := by
  cases id with
  | mstrcctl => exact absurd rfl hne
  | sstrcctl | sstrcambcs | sstrcambaddr | vsstrcctl | scontext | hcontext => decide
  | _ => simp [CsrId.isStrc, CsrId.isStrcS, CsrId.isContext] at h

/-- Step 3 of the check, for either group (R131, R134). -/
theorem machineEnables_step {s : State} {id : CsrId} (hgroup : id.isStrc = true ∨ id.isContext = true)
    (hne : id ≠ .mstrcctl) (rest : Option Exc) :
    (if (id.isStrcS || id = .vsstrcctl) && !s.mSTRC then some .illegalInstruction
     else if id.isContext && !s.mSTRC && !s.m57 then some .illegalInstruction else rest) =
      if machineEnables s id then rest else some .illegalInstruction := by
  rcases strc_or_context_cases hgroup hne with ⟨hs, hcontext, _⟩ | rfl | rfl | rfl
  · cases h : s.mSTRC <;> simp [machineEnables, hs, hcontext, h]
  all_goals
    cases h : s.mSTRC <;> cases h' : s.m57 <;>
      simp [machineEnables, CsrId.isStrcS, CsrId.isContext, h, h']

/-- Steps 4 and 5 of the check in VS-mode (R129, R133, R135). -/
theorem hypervisorEnables_step {s : State} {id : CsrId} (hgroup : id.isStrc = true ∨ id.isContext = true)
    (hne : id ≠ .mstrcctl) :
    (if id = .vsstrcctl || id = .hcontext then some Exc.virtualInstruction
     else if id.isStrcS && !s.hSTRC then some .virtualInstruction
     else if id = .scontext && !s.hSTRC && !s.h57 then some .virtualInstruction else none) =
      if !hypervisorLevel id && hypervisorEnables s id then none else some .virtualInstruction := by
  rcases strc_or_context_cases hgroup hne with ⟨hs, hcontext, hvs, hsc, hhc⟩ | rfl | rfl | rfl
  · cases h : s.hSTRC <;> simp [hypervisorLevel, hypervisorEnables, hs, hcontext, hvs, hsc, hhc, h]
  · rfl
  · cases h : s.hSTRC <;> cases h' : s.h57 <;>
      simp [hypervisorLevel, hypervisorEnables, CsrId.isStrcS, CsrId.isContext, h, h']
  · rfl

/-- What the check answers for every STRC and context CSR that exists, `mstrcctl` apart. -/
theorem checkStrcAccess_eq {s : State} {id : CsrId} (hgroup : id.isStrc = true ∨ id.isContext = true)
    (hne : id ≠ .mstrcctl) (hdis : id.isStrc = true → s.dis = false) (hH : id = .vsstrcctl → s.cfg.hasH = true) :
    checkStrcAccess s id =
      modeAnswer s (machineEnables s id) (!hypervisorLevel id && hypervisorEnables s id) := by
  have hexists : (id.isStrc && s.dis) = false := by
    cases h : id.isStrc
    · rfl
    · exact hdis h
  have hhyp : (decide (id = .vsstrcctl) && !s.cfg.hasH) = false := by
    by_cases h : id = .vsstrcctl
    · simp [hH h]
    · simp [h]
  rw [checkStrcAccess, hexists, hhyp, modeAnswer]
  simp only [Bool.false_eq_true, if_false, hne, machineEnables_step hgroup hne]
  cases hpriv : s.priv with
  | machine => simp
  | supervisor =>
    cases hvirt : s.virt with
    | false => simp
    | true => simpa using congrArg (ite _ · _) (hypervisorEnables_step hgroup hne)
  | user => cases hvirt : s.virt <;> simp

/-! ## The STRC CSRs -/

theorem checkStrcAccess_mstrcctl {s : State} (hdis : s.dis = false) :
    checkStrcAccess s .mstrcctl = if s.priv = .machine then none else some .illegalInstruction := by
  simp [checkStrcAccess, hdis]

theorem isStrc_of_isStrcS {id : CsrId} (h : id.isStrcS = true) : id.isStrc = true := by
  cases id with
  | sstrcctl | sstrcambcs | sstrcambaddr => rfl
  | _ => cases h

theorem checkStrcAccess_supervisor {s : State} {id : CsrId} (h : id.isStrcS = true) (hdis : s.dis = false) :
    checkStrcAccess s id = modeAnswer s s.mSTRC s.hSTRC := by
  have hgroup : id.isStrc = true ∨ id.isContext = true := .inl (isStrc_of_isStrcS h)
  have hne : id ≠ .mstrcctl := by rintro rfl; cases h
  have hvs : id ≠ .vsstrcctl := by rintro rfl; cases h
  rw [checkStrcAccess_eq hgroup hne (fun _ => hdis) (absurd · hvs)]
  rcases strc_or_context_cases hgroup hne with ⟨_, hcontext, _, _, hhc⟩ | rfl | rfl | rfl
  · simp [machineEnables, hypervisorEnables, hypervisorLevel, hcontext, hvs, hhc]
  all_goals cases h

theorem checkStrcAccess_vsstrcctl {s : State} (hdis : s.dis = false) (hH : s.cfg.hasH = true) :
    checkStrcAccess s .vsstrcctl = modeAnswer s s.mSTRC false := by
  rw [checkStrcAccess_eq (.inl rfl) (by decide) (fun _ => hdis) (fun _ => hH)]
  simp [machineEnables, hypervisorLevel, CsrId.isContext]

/-- Settles O25: each row is the check's answer mode by mode. -/
theorem accessTable : Obligations.AccessTable := by
  intro s isWrite hlegal hdis hH
  obtain ⟨hm, hs, hvs, hcs, haddr⟩ := csrOf_strc hlegal
  have supervisor {n : Nat} {id : CsrId} (hid : csrOf s.cfg n = some id) (h : id.isStrcS = true) :
      checkAccess s n isWrite = modeAnswer s s.mSTRC s.hSTRC := by
    rw [checkAccess_strc hid (isStrc_of_isStrcS h), checkStrcAccess_supervisor h hdis]
  refine ⟨?_, ?_, ?_⟩
  · rw [checkAccess_strc hm rfl, checkStrcAccess_mstrcctl hdis]
  · simp only [List.mem_cons, List.not_mem_nil, or_false]
    rintro n (rfl | rfl | rfl)
    · exact supervisor hs rfl
    · exact supervisor hcs rfl
    · exact supervisor haddr rfl
  · rw [checkAccess_strc hvs rfl, checkStrcAccess_vsstrcctl hdis hH, modeAnswer]
    cases s.priv <;> cases s.virt <;> rfl

/-! ## The context CSRs -/

/-- `scontext`: either bit of a level enables it (R134, R135). -/
theorem instrRaises_scontext {i : Instr} {s : State} (hlegal : CsrNumbersLegal s.cfg) (h : i.csrNumber = 0x5A8) :
    instrRaises i s = modeAnswer s (s.mSTRC || s.m57) (s.hSTRC || s.h57) := by
  rw [instrRaises, h, checkAccess_context (id := .scontext) (csrOf_host hlegal rfl) rfl,
    checkStrcAccess_eq (id := .scontext) (.inr rfl) (by decide) nofun nofun]
  rfl

/-- `hcontext`: its number is of the hypervisor level, so V = 1 does not reach it (D16, D24). -/
theorem instrRaises_hcontext {i : Instr} {s : State} (hlegal : CsrNumbersLegal s.cfg) (h : i.csrNumber = 0x6A8) :
    instrRaises i s = modeAnswer s (s.mSTRC || s.m57) false := by
  rw [instrRaises, h, checkAccess_context (id := .hcontext) (csrOf_host hlegal rfl) rfl,
    checkStrcAccess_eq (id := .hcontext) (.inr rfl) (by decide) nofun nofun]
  rfl

/-- Settles O26: the machine-level bits decide, whatever the hypervisor level says. -/
theorem contextCsrsUnderMstateen0 : Obligations.ContextCsrsUnderMstateen0 := by
  intro i s hlegal hn hpriv
  obtain ⟨guest, hraises⟩ : ∃ guest, instrRaises i s = modeAnswer s (s.mSTRC || s.m57) guest :=
    hn.elim (fun h => ⟨_, instrRaises_scontext hlegal h⟩) (fun h => ⟨_, instrRaises_hcontext hlegal h⟩)
  rw [hraises, ← Bool.or_eq_true]
  refine ⟨fun hstrc h57 => ?_, fun hmode henabled => ?_⟩
  · rw [hstrc, h57]
    exact modeAnswer_disabled hpriv guest
  · rw [henabled]
    exact modeAnswer_hs hmode guest

/-- Settles O27: with the machine level passed, the mode and the hypervisor-level bits decide. -/
theorem contextCsrsWithVirtualization : Obligations.ContextCsrsWithVirtualization := by
  intro i s hlegal hpriv hvirt henabled
  rw [← Bool.or_eq_true] at henabled
  refine ⟨fun hn hS => ?_, fun hn hU => ?_, fun hn => ?_⟩
  · rw [instrRaises_scontext hlegal hn, henabled, modeAnswer_vs ⟨hS, hvirt⟩, ← Bool.or_eq_true]
    exact ⟨fun h => by rw [h]; rfl, fun h h' => by rw [h, h']; rfl⟩
  · rw [instrRaises_scontext hlegal hn, henabled, modeAnswer_vu ⟨hU, hvirt⟩]
  · rw [instrRaises_hcontext hlegal hn, henabled]
    cases hp : s.priv with
    | machine => exact absurd hp hpriv
    | supervisor => exact modeAnswer_vs ⟨hp, hvirt⟩ false
    | user => exact modeAnswer_vu ⟨hp, hvirt⟩ false

end Sys2Proof.Machine
end

section
/-! SUPPORT. Writing back what a view of `mstrcctl` shows, the substitution of R137, the four enable bits (R146), and
the settlement of O30, O34, O35 and O37. -/

namespace Sys2Proof.Machine

/-! ## The views of `mstrcctl` -/

/-- Settles O35: the word handed to `mstrcctl` keeps M. -/
theorem sstrcctlWriteKeepsM : Obligations.SstrcctlWriteKeepsM := fun s w => ⟨rfl, writeSstrcctl_keepM s w⟩

/-- `sstrcctl` shows every bit of `mstrcctl` but the top one. -/
theorem readSstrcctl_low (s : State) : s.readSstrcctl.extractLsb' 0 63 = s.readMstrcctl.extractLsb' 0 63 := by
  have hmask : (0x7FFF_FFFF_FFFF_FFFF#64).extractLsb' 0 63 = BitVec.allOnes 63 := by decide
  rw [State.readSstrcctl, BitVec.extractLsb'_and, hmask, BitVec.and_allOnes]

/-- `vsstrcctl` shows every bit of `mstrcctl` but the three top ones. -/
theorem readVsstrcctl_low (s : State) : s.readVsstrcctl.extractLsb' 0 61 = s.readMstrcctl.extractLsb' 0 61 := by
  rw [State.readVsstrcctl, BitVec.extractLsb'_append_eq_right]

theorem readVsstrcctl_s (s : State) : s.readVsstrcctl.getLsbD 62 = s.vsctl.s := by
  simp only [State.readVsstrcctl, BitVec.getLsbD_append]; simp

theorem readVsstrcctl_u (s : State) : s.readVsstrcctl.getLsbD 61 = s.vsctl.u := by
  simp only [State.readVsstrcctl, BitVec.getLsbD_append]; simp

/-- Legal fields are what a write of the word that `mstrcctl` shows stores. -/
theorem mstrcctlFields_readMstrcctl {s : State} (h : CtlLegal s.cfg s.ctl) :
    mstrcctlFields s.cfg s.readMstrcctl = s.ctl := mstrcctlFields_mstrcctlWord s.cfg s.ctl s.empty h

/-- Settles O34: each view hands `mstrcctl` a word that stores the fields it holds. -/
theorem writeBackChangesNothing : Obligations.WriteBackChangesNothing := by
  intro s h
  have hfields := mstrcctlFields_readMstrcctl h
  refine ⟨?_, ?_, ?_⟩
  · show s.writeMstrcctl s.readMstrcctl = s
    rw [writeMstrcctl_eq, hfields]
  · show s.writeSstrcctl s.readSstrcctl = s
    rw [writeSstrcctl_eq, readSstrcctl_low, mstrcctlFields_keepM, hfields]
  · show s.writeVsstrcctl s.readVsstrcctl = s
    rw [writeVsstrcctl_eq, readVsstrcctl_low, mstrcctlFields_keepMSU, hfields, readVsstrcctl_s, readVsstrcctl_u]

/-! ## The substitution (R137) -/

/-- Settles O30: what O11 says of `csrrw`, for the number that V = 1 substitutes. -/
theorem vsstrcctlSubstitutes : Obligations.VsstrcctlSubstitutes := by
  intro s hlegal
  obtain ⟨hm, hs, hvs, hcs, haddr⟩ := csrOf_strc hlegal
  refine ⟨?_, ?_, ?_, ?_, ?_, fun rd rs1 hvirt hok => ?_⟩
  · rw [hs]; cases s.virt <;> rfl
  · rw [hm]; cases s.virt <;> rfl
  · rw [hvs]; cases s.virt <;> rfl
  · rw [hcs]; cases s.virt <;> rfl
  · rw [haddr]; cases s.virt <;> rfl
  · obtain ⟨id, t, hid, hexec, hpc, hrd, _, ht⟩ := (csrrwSwaps rd s.cfg.csrSstrcctl rs1 s).2 hok
    obtain rfl : CsrId.sstrcctl = id := Option.some.inj (hs.symm.trans hid)
    rw [hvirt] at hrd ht
    rw [hpc] at ht
    exact ⟨t, hexec, hrd, ht⟩

/-! ## The four enable bits (R146) -/

theorem csrRead_menvcfg_strcs (s : State) : (csrRead s .menvcfg).getLsbD 58 = s.strcs := by
  rw [csrRead, getLsbD_putBit _ _ _ _ (by decide), if_pos rfl]

theorem csrRead_henvcfg_strcv (s : State) : (csrRead s .henvcfg).getLsbD 58 = s.strcv := by
  rw [csrRead, getLsbD_putBit _ _ _ _ (by decide), if_pos rfl]

theorem csrRead_mstateen0_strc {s : State} (h : s.cfg.strcSeBit < 64) :
    (csrRead s .mstateen0).getLsbD s.cfg.strcSeBit = s.mSTRC := by
  rw [csrRead, getLsbD_putBit _ _ _ _ h, if_pos rfl]

theorem csrRead_hstateen0_strc {s : State} (h : s.cfg.strcSeBit < 64) :
    (csrRead s .hstateen0).getLsbD s.cfg.strcSeBit = s.hSTRC := by
  rw [csrRead, getLsbD_putBit _ _ _ _ h, if_pos rfl]

theorem mSTRC_of_dis {s : State} (h : s.dis = true) : s.mSTRC = false := by simp [State.mSTRC, h]

theorem csrWrite_menvcfg_strcs (s : State) (w : Word) :
    (csrWrite s .menvcfg w).strcs = (!s.dis && w.getLsbD 58) := by
  show (!s.dis && if s.dis then s.env.strcs else w.getLsbD 58) = _
  cases s.dis <;> rfl

/-- STRCV is stored while `mstateen0`.STRC reads 1, and reads 0 otherwise. -/
theorem csrWrite_henvcfg_strcv {s : State} (h : s.cfg.hasH = true) (w : Word) :
    (csrWrite s .henvcfg w).strcv = (s.mSTRC && w.getLsbD 58) := by
  show (s.cfg.hasH && s.mSTRC && if s.mSTRC then w.getLsbD 58 else s.env.strcv) = _
  rw [h]
  cases s.mSTRC <;> rfl

theorem csrWrite_mstateen0_mSTRC {s : State} (h : s.cfg.hasSmstateen = true) (w : Word) :
    (csrWrite s .mstateen0 w).mSTRC = (!s.dis && w.getLsbD s.cfg.strcSeBit) := by
  show (!s.dis && (!s.cfg.hasSmstateen || if s.dis then s.env.mstrc else w.getLsbD s.cfg.strcSeBit)) = _
  rw [h]
  cases s.dis <;> rfl

/-- `hstateen0`.STRC is stored while `mstateen0`.STRC reads 1, and reads 0 otherwise. -/
theorem csrWrite_hstateen0_hSTRC {s : State} (h : s.cfg.hasSmstateen = true) (w : Word) :
    (csrWrite s .hstateen0 w).hSTRC = (s.mSTRC && w.getLsbD s.cfg.strcSeBit) := by
  show (s.mSTRC && (!s.cfg.hasSmstateen || if s.mSTRC then w.getLsbD s.cfg.strcSeBit else s.env.hstrc)) = _
  rw [h]
  cases s.mSTRC <;> rfl

theorem csrWrite_henvcfg_ignored {s : State} (h : s.mSTRC = false) (w : Word) :
    (csrWrite s .henvcfg w).env.strcv = s.env.strcv := by
  show (if s.mSTRC then w.getLsbD 58 else s.env.strcv) = _
  simp [h]

theorem csrWrite_hstateen0_ignored {s : State} (h : s.mSTRC = false) (w : Word) :
    (csrWrite s .hstateen0 w).env.hstrc = s.env.hstrc := by
  show (if s.mSTRC then w.getLsbD s.cfg.strcSeBit else s.env.hstrc) = _
  simp [h]

/-- Settles O37: what is stored of each bit, read at its place. -/
theorem enableBitWrites : Obligations.EnableBitWrites := by
  intro s w hbit
  refine ⟨?_, fun hH => ?_, fun h => csrWrite_henvcfg_ignored h w, fun hstateen => ⟨?_, ?_⟩,
    fun h => csrWrite_hstateen0_ignored h w, fun hdis => ?_⟩
  · rw [csrRead_menvcfg_strcs, csrWrite_menvcfg_strcs]
  · rw [csrRead_henvcfg_strcv, csrWrite_henvcfg_strcv hH]
  · exact (csrRead_mstateen0_strc (s := csrWrite s .mstateen0 w) hbit).trans (csrWrite_mstateen0_mSTRC hstateen w)
  · exact (csrRead_hstateen0_strc (s := csrWrite s .hstateen0 w) hbit).trans (csrWrite_hstateen0_hSTRC hstateen w)
  · have hm := mSTRC_of_dis hdis
    rw [csrRead_menvcfg_strcs, csrRead_henvcfg_strcv, csrRead_mstateen0_strc hbit, csrRead_hstateen0_strc hbit]
    simp [State.strcs, State.strcv, State.hSTRC, hdis, hm]

end Sys2Proof.Machine
end

section
/-! SUPPORT. What the encoder appends, or makes wait, when an instruction starts or ends a trace session, and the
settlement of O47. -/

namespace Sys2Proof.Machine

/-! ## Which items an encoder has added -/

/-- From `e` to `e'` only such items, and the encapsulation's sequence, are appended to the trace, and only such items
begin to wait. -/
structure Adds (such : Item → Prop) (e e' : Encoder) : Prop where
  trace : ∃ l, e'.trace = e.trace ++ l ∧ ∀ x ∈ l, such x.item ∨ x.item = .encapSync
  owed : ∃ ws, e'.owed = e.owed ++ ws ∧ ∀ w ∈ ws, such w.record.item

section adds
variable {such such' : Item → Prop} {e e' e'' : Encoder}

theorem Adds.of_same (htrace : e'.trace = e.trace) (howed : e'.owed = e.owed) : Adds such e e' :=
  ⟨⟨[], by simp [htrace], by simp⟩, [], by simp [howed], by simp⟩

theorem Adds.imp (h : Adds such e e') (himp : ∀ item, such item → such' item) : Adds such' e e' := by
  obtain ⟨⟨l, htrace, hl⟩, ws, howed, hws⟩ := h
  exact ⟨⟨l, htrace, fun x hx => (hl x hx).imp_left (himp _)⟩, ws, howed, fun w hw => himp _ (hws w hw)⟩

theorem Adds.trans (h : Adds such e e') (k : Adds such e' e'') : Adds such e e'' := by
  obtain ⟨⟨l, htrace, hl⟩, ws, howed, hws⟩ := h
  obtain ⟨⟨l', ktrace, kl⟩, ws', kowed, kws⟩ := k
  refine ⟨⟨l ++ l', by rw [ktrace, htrace, List.append_assoc], fun x hx => ?_⟩,
    ws ++ ws', by rw [kowed, howed, List.append_assoc], fun w hw => ?_⟩
  · exact (List.mem_append.mp hx).elim (hl x) (kl x)
  · exact (List.mem_append.mp hw).elim (hws w) (kws w)

end adds

/-- An item that is not an instruction's own adds itself, or nothing. -/
theorem emit_adds (s : State) (stall : Bool) (p : Encoder × Bool) (item : Item) :
    Adds (· = item) p.1 (emit s stall p item).1 := by
  rcases emit_cases s stall p item with ⟨_, h⟩ | ⟨_, h⟩
  · have howed := deliver_owed h
    rcases deliver_trace h with ⟨_, l, htrace, hl⟩ | ⟨_, _, _, htrace, _⟩
    · refine ⟨⟨l ++ [_], htrace.trans (List.append_assoc ..), fun x hx => ?_⟩, [], by simp [howed], by simp⟩
      rcases List.mem_append.mp hx with hx | hx
      · exact Or.inr (hl x hx)
      · rw [List.mem_singleton.mp hx, stamp_item]
        exact Or.inl rfl
    · exact .of_same htrace howed
  · rw [h]
    refine ⟨⟨[], by simp [waitFor], by simp⟩, [_], rfl, fun w hw => ?_⟩
    rw [List.mem_singleton.mp hw]
    exact stamp_item ..

theorem settleSync_adds (s : State) : Adds (· = .sync) s.enc (settleSync s).enc := by
  show Adds _ s.enc (syncAfter s s.ctl.sten (s.enc, false)).1
  unfold syncAfter
  split
  · exact emit_adds s s.ctl.sten (s.enc, false) .sync
  · exact .of_same rfl rfl

theorem reacted_adds (such : Item → Prop) (s s' : State) (q : Encoder × Bool) :
    Adds such q.1 (reacted s s' q).enc := by
  obtain ⟨htrace, howed, _⟩ := reacted_enc s s' q
  exact .of_same htrace howed

/-! ## Support records -/

/-- A Support record with the mode and the context of a state; its timestamp may be that of an earlier control transfer
(R178). -/
def IsSupport (v : State) (atEnd : Bool) (r : Record) : Prop := r = { mkRecord v (.support atEnd) with time := r.time }

theorem isSupport_stamp (v : State) (atEnd : Bool) (c : Config) (f : StrcCtl) (e : Encoder) :
    IsSupport v atEnd (stamp c f e (mkRecord v (.support atEnd))) := stamp_eq ..

/-! ## The start of a session -/

/-- While EN = 0 nothing is counted. -/
theorem countHalfwords_disabled {s : State} (h : s.ctl.en = false) (e : Encoder) (n : Nat) :
    countHalfwords s e n = e := by
  simp [countHalfwords, countEvents, State.generating, State.counting, h]

/-- What the start of a session gives the buffers: for E-trace `Support(start)`, under STEN as it is written. -/
def sessionStart (s s' : State) : Encoder × Bool :=
  if s.cfg.kind = .etrace then emit s' s'.ctl.sten (s.enc, false) (.support false) else (s.enc, false)

theorem encoderReacts_start {s s' : State} (hen : s.ctl.en = false) (hen' : s'.ctl.en = true) (n : Nat) :
    encoderReacts s s' none n = some (settleSync (reacted s s' (sessionStart s s'))) := by
  simp [encoderReacts, deliverOwn, countHalfwords_disabled hen, syncAfter_of_not_due (syncDue_disabled hen _),
    sessionItems, sessionStart, stallEnabled, hen, hen']

theorem sessionStart_adds (s s' : State) :
    Adds (fun item => item = .support false ∨ item = .sync) s.enc
      (settleSync (reacted s s' (sessionStart s s'))).enc := by
  have hstart : Adds (· = .support false) s.enc (sessionStart s s').1 := by
    unfold sessionStart
    split
    · exact emit_adds s' s'.ctl.sten (s.enc, false) _
    · exact .of_same rfl rfl
  exact ((hstart.imp fun _ => Or.inl).trans (reacted_adds _ s s' _)).trans
    ((settleSync_adds _).imp fun _ => Or.inr)

/-- For E-trace a session starts with `Support(start)`, behind nothing but the encapsulation's sequence; or that record
waits; or it is lost. -/
theorem sessionStart_support {s s' : State} (hkind : s.cfg.kind = .etrace) :
    let u := settleSync (reacted s s' (sessionStart s s'))
    (∃ pre r post, u.enc.trace = s.enc.trace ++ pre ++ r :: post ∧ IsSupport s' false r ∧
      (∀ x ∈ pre, x.item = .encapSync) ∧ ∀ x ∈ post, x.item = .sync ∨ x.item = .encapSync) ∨
    Waits u (IsSupport s' false) ∨ Lost s'.cfg s'.ctl s.enc (mkRecord s' (.support false)) u := by
  have houtcome := emit_outcome s' s'.ctl.sten (s.enc, false) (.support false)
  have hstart : sessionStart s s' = emit s' s'.ctl.sten (s.enc, false) (.support false) := by
    rw [sessionStart, if_pos hkind]
  rw [← hstart] at houtcome
  obtain ⟨htraceR, howedR, _⟩ := reacted_enc s s' (sessionStart s s')
  rcases houtcome with ⟨_, l, htrace, hl⟩ | ⟨hflag, _, b, howed⟩ | ⟨_, hsten, hflag, _, _, hlost⟩
  · obtain ⟨post, hpost, hsync⟩ := (settleSync_adds (reacted s s' (sessionStart s s'))).trace
    refine Or.inl ⟨l, stamp s'.cfg s'.ctl s.enc (mkRecord s' (.support false)), post, ?_, isSupport_stamp .., hl, hsync⟩
    rw [hpost, htraceR, htrace, List.append_assoc _ [_] post]
    rfl
  · have hsupport := isSupport_stamp s' false s'.cfg s'.ctl s.enc
    refine Or.inr (Or.inl (Waits.settle ⟨reacted_stof s s' hflag, ⟨_, b⟩, ?_, hsupport⟩))
    rw [howedR, howed]
    exact List.mem_concat_self
  · exact Or.inr (Or.inr (Lost.settle ⟨hsten, reacted_stof s s' hflag, hlost⟩))

/-! ## The end of a session -/

/-- An item that closes a session is an item like others, behind the `Sync` it would make due. -/
theorem emitClosing_eq (s : State) (stall : Bool) (p : Encoder × Bool) (item : Item) :
    ∃ q, Progress s.cfg p q ∧ emitClosing s stall p item = emit s stall q item := by
  refine ⟨_, ?_, rfl⟩
  split
  · exact emit_progress ..
  · exact .refl ..

/-- For E-trace the items that end a session are some of the encoder's choice, and then `Support(end)`. -/
theorem sessionItems_end {s s' : State} (hkind : s.cfg.kind = .etrace) (hen : s.ctl.en = true)
    (hen' : s'.ctl.en = false) (stall : Bool) (p : Encoder × Bool) :
    ∃ q, Progress s.cfg p q ∧ sessionItems s s' stall p = emit s stall q (.support true) := by
  have hdraw : Progress s.cfg p ({ p.1 with drawn := p.1.drawn + 1 }, p.2) :=
    ⟨List.prefix_rfl, List.prefix_rfl, id, rfl, id⟩
  have hclosing := closing_progress s stall ({ p.1 with drawn := p.1.drawn + 1 }, p.2)
    ((Config.freeClosing p.1.drawn).filterMap (extraItem s))
  obtain ⟨q, hq, hlast⟩ := emitClosing_eq s stall _ (.support true)
  refine ⟨q, (hdraw.trans hclosing).trans hq, ?_⟩
  rw [← hlast]
  simp [sessionItems, hen, hen', hkind]

/-- For E-trace a session ends with `Support(end)` as the last record of the trace, or of those that wait; or that
record is lost. -/
theorem encoderReacts_end {s s' u : State} {own : Option Item} {n : Nat} (hkind : s.cfg.kind = .etrace)
    (hen : s.ctl.en = true) (hen' : s'.ctl.en = false) (h : encoderReacts s s' own n = some u) :
    (∃ l r, u.enc.trace = s.enc.trace ++ l ∧ l.getLast? = some r ∧ IsSupport s true r) ∨
    (u.ctl.stof = true ∧ ∃ w, u.enc.owed.getLast? = some w ∧ IsSupport s true w.record) ∨
    (s.ctl.sten = false ∧ u.ctl.stof = true ∧ u.enc.dropping = true) := by
  obtain ⟨p, hp, rfl⟩ := encoderReacts_some h
  rw [stallEnabled_of_en hen] at hp ⊢
  obtain ⟨q, hq, hitems⟩ := sessionItems_end hkind hen hen' s.ctl.sten (syncAfter s s.ctl.sten p)
  obtain ⟨before, hbefore⟩ := ((deliverOwn_progress hp).trans ((syncAfter_progress s s.ctl.sten p).trans hq)).trace
  obtain ⟨htraceR, howedR, hdroppingR⟩ := reacted_enc s s' (emit s s.ctl.sten q (.support true))
  have hclosed : (reacted s s' (emit s s.ctl.sten q (.support true))).ctl.en = false := hen'
  rw [hitems, settleSync_of_not_due _ (syncDue_disabled hclosed _), htraceR, howedR, hdroppingR]
  rw [countHalfwords_trace] at hbefore
  rcases emit_outcome s s.ctl.sten q (.support true) with
    ⟨_, l, htrace, _⟩ | ⟨hflag, _, b, howed⟩ | ⟨_, hsten, hflag, hdropping, _, _⟩
  · refine Or.inl ⟨before ++ l ++ [_], _, ?_, List.getLast?_concat, isSupport_stamp s true s.cfg s.ctl q.1⟩
    rw [htrace, ← hbefore, List.append_assoc, List.append_assoc, List.append_assoc]
  · refine Or.inr (Or.inl ⟨reacted_stof s s' hflag, ⟨_, b⟩, ?_, isSupport_stamp s true s.cfg s.ctl q.1⟩)
    rw [howed]
    exact List.getLast?_concat
  · exact Or.inr (Or.inr ⟨hsten, reacted_stof s s' hflag, hdropping⟩)

/-! ## The instruction that switches EN -/

theorem afterRead_en (i : Instr) (s t : State) : (afterRead i s t).ctl.en = t.ctl.en := by rw [afterRead_ctl]

/-- An instruction that raises writes no trace control, so one that switches EN retires. -/
theorem instrRaises_of_en_ne {i : Instr} {s t : State} (hexec : exec i s = .next t) (h : t.ctl.en ≠ s.ctl.en) :
    instrRaises i s = none := by
  rcases exec_cases i s with ⟨e, _, heq⟩ | ⟨_, _, _, hretire, _⟩
  · rw [heq] at hexec
    cases hexec
    exact absurd (congrArg StrcCtl.en (takeTrap_ctl ..)) h
  · exact hretire

theorem observeInstr_of_none {i : Instr} {s : State} (h : instrRaises i s = none) (t : State) :
    observeInstr i s t =
      observe s (afterRead i s t) (whenGenerating s (.flow ⟨s.pc, 2, .sequential, t.pc⟩)) 2 := by
  simp only [observeInstr, h]

/-- Only an instruction that is traced itself stalls, and only with STEN = 1. -/
theorem generating_of_encoderReacts_none {s s' : State} (hen : s.ctl.en = true) {item : Item} {n : Nat}
    (h : encoderReacts s s' (whenGenerating s item) n = none) : s.generating = true ∧ s.ctl.sten = true := by
  cases hg : s.generating with
  | true =>
    rw [whenGenerating_on hg, encoderReacts_own_eq_none hen] at h
    exact ⟨rfl, h.1⟩
  | false =>
    rw [whenGenerating_off hg, encoderReacts_eq_none] at h
    cases h

/-- The instruction that sets EN is not traced: its effect is observed with no item of its own. -/
theorem observeInstr_start {i : Instr} {s t : State} (hexec : exec i s = .next t) (hen : s.ctl.en = false)
    (hen' : t.ctl.en = true) :
    encoderReacts s (afterRead i s t) none 2 = some (observeInstr i s t) ∧
    observeInstr i s t = settleSync (reacted s (afterRead i s t) (sessionStart s (afterRead i s t))) := by
  have hoff : s.generating = false := by simp [State.generating, hen]
  have hretire := instrRaises_of_en_ne hexec (by rw [hen, hen']; decide)
  have hreacts := encoderReacts_start hen ((afterRead_en i s t).trans hen') 2
  have hobserve : observeInstr i s t =
      settleSync (reacted s (afterRead i s t) (sessionStart s (afterRead i s t))) := by
    rw [observeInstr_of_none hretire, whenGenerating_off hoff, observe, hreacts, Option.getD_some]
  rw [hobserve]
  exact ⟨hreacts, rfl⟩

/-- Settles O47: what the start of a session adds, and what comes last at its end. -/
theorem sessionStartsAndEndsWithSupport : Obligations.SessionStartsAndEndsWithSupport := by
  intro i s t hexec u support
  refine ⟨fun hen hen' => ?_, fun hkind hen hen' => ?_⟩
  · obtain ⟨hreacts, hu⟩ := observeInstr_start hexec hen hen'
    obtain ⟨_, hactive, _⟩ := encoderReacts_eq hreacts
    have hadds := sessionStart_adds s (afterRead i s t)
    rw [← hu] at hadds
    obtain ⟨⟨l, htrace, hl⟩, howed⟩ := hadds
    refine ⟨hactive.trans ((afterRead_en i s t).trans hen'),
      ⟨l, htrace, fun x hx => or_assoc.mp (hl x hx)⟩, howed, fun hkind => ?_⟩
    have hsupport := sessionStart_support (s' := afterRead i s t) hkind
    rw [← hu, afterRead_eq i s t] at hsupport
    exact hsupport
  · have hretire := instrRaises_of_en_ne hexec (by rw [hen, hen']; decide)
    have hen'' : (afterRead i s t).ctl.en = false := (afterRead_en i s t).trans hen'
    have hu : u = _ := observeInstr_of_none hretire t
    rcases observe_cases s (afterRead i s t) (whenGenerating s (.flow ⟨s.pc, 2, .sequential, t.pc⟩)) 2 with
      ⟨hnone, hstall⟩ | hsome
    · obtain ⟨hg, hsten⟩ := generating_of_encoderReacts_none hen hnone
      refine Or.inl ⟨?_, hg, hsten⟩
      rw [hu, hstall]
      rfl
    · rw [← hu] at hsome
      obtain ⟨_, hactive, _⟩ := encoderReacts_eq hsome
      exact Or.inr ⟨hactive.trans hen'', encoderReacts_end hkind hen hen'' hsome⟩

end Sys2Proof.Machine
end

section
/-! SUPPORT. Mode by mode which enable bit traces the hart, what a record reports in the guest configuration, how an item
moves the sync event counter, and the settlement of O42, O43, O51 and O55. -/

namespace Sys2Proof.Machine

/-! ## The mode filter (R161) -/

theorem mode_cases (s : State) : InM s ∨ InHS s ∨ InU s ∨ InVS s ∨ InVU s := by
  cases hpriv : s.priv with
  | machine => exact Or.inl hpriv
  | supervisor | user => cases hvirt : s.virt <;> simp [InM, InHS, InU, InVS, InVU, hpriv, hvirt]

section mode
variable {s : State}

theorem modeEnabled_m (h : InM s) : s.modeEnabled = s.ctl.m := by simp only [State.modeEnabled, h]
theorem modeEnabled_hs (h : InHS s) : s.modeEnabled = s.ctl.s := by simp only [State.modeEnabled, h.1, h.2]
theorem modeEnabled_u (h : InU s) : s.modeEnabled = s.ctl.u := by simp only [State.modeEnabled, h.1, h.2]
theorem modeEnabled_vs (h : InVS s) : s.modeEnabled = s.vsctl.s := by simp only [State.modeEnabled, h.1, h.2]
theorem modeEnabled_vu (h : InVU s) : s.modeEnabled = s.vsctl.u := by simp only [State.modeEnabled, h.1, h.2]

end mode

theorem modeEnabled_iff (s : State) : s.modeEnabled = true ↔
    s.priv = .machine ∧ s.ctl.m = true ∨ InHS s ∧ s.ctl.s = true ∨ InU s ∧ s.ctl.u = true ∨
      InVS s ∧ s.vsctl.s = true ∨ InVU s ∧ s.vsctl.u = true := by
  rcases mode_cases s with h | h | h | h | h
  · simp [modeEnabled_m h, show s.priv = .machine from h]
  · simp [InHS, InU, InVS, InVU, modeEnabled_hs h, h.1, h.2]
  · simp [InHS, InU, InVS, InVU, modeEnabled_u h, h.1, h.2]
  · simp [InHS, InU, InVS, InVU, modeEnabled_vs h, h.1, h.2]
  · simp [InHS, InU, InVS, InVU, modeEnabled_vu h, h.1, h.2]

theorem generating_iff (s : State) : s.generating = true ↔
    s.dis = false ∧ s.ctl.en = true ∧ s.ctl.it = true ∧ s.modeEnabled = true ∧ s.debugMode = false := by
  simp only [State.generating, Bool.and_eq_true, Bool.not_eq_true', and_assoc]

/-- Settles O42: the mode filter, bit by bit, beside the other conditions. -/
theorem generatingCondition : Obligations.GeneratingCondition := by
  intro s
  rw [generating_iff, modeEnabled_iff]
  tauto

/-! ## The privilege choice vector (R231) -/

/-- The bits of the vector that some privilege input selects. -/
theorem privilegeChoice_bits (s : State) :
    s.privilegeChoice.getLsbD 0 = s.ctl.u ∧ s.privilegeChoice.getLsbD 1 = s.ctl.s ∧
    s.privilegeChoice.getLsbD 3 = s.ctl.m ∧ s.privilegeChoice.getLsbD 4 = (s.cfg.hasH && s.vsctl.u) ∧
    s.privilegeChoice.getLsbD 5 = (s.cfg.hasH && s.vsctl.s) := by
  simp only [State.privilegeChoice, BitVec.getLsbD_append, BitVec.getLsbD_ofBool]
  simp

/-- Settles O43: the privilege input of each legal mode, and the bit it selects. -/
theorem privilegeVectorIsFilter : Obligations.PrivilegeVectorIsFilter := by
  intro s hlegal
  obtain ⟨hu, hs, hm, hvu, hvs⟩ := privilegeChoice_bits s
  rcases mode_cases s with h | h | h | h | h
  · have hvirt : s.virt = false := by
      rw [← Bool.not_eq_true]
      exact fun hv => (hlegal hv).2 h
    rw [modeEnabled_m h, State.privilegeInput, hvirt, show s.priv = .machine from h]
    exact hm
  · rw [modeEnabled_hs h, State.privilegeInput, h.1, h.2]
    exact hs
  · rw [modeEnabled_u h, State.privilegeInput, h.1, h.2]
    exact hu
  · rw [modeEnabled_vs h, State.privilegeInput, h.1, h.2]
    exact hvs.trans (by rw [(hlegal h.2).1, Bool.true_and])
  · rw [modeEnabled_vu h, State.privilegeInput, h.1, h.2]
    exact hvu.trans (by rw [(hlegal h.2).1, Bool.true_and])

/-! ## The counter after an item (R167, R169) -/

theorem countAfterItem_mkRecord (f : StrcCtl) (count : Nat) (s : State) (item : Item) (body : List Byte) :
    countAfterItem f count (mkRecord s item) body =
      if item = .sync then 0
      else if f.smod = 1 ∧ body ≠ [] then min (count + 1) (2 ^ (f.smax.toNat + 4))
      else count := by
  simp [countAfterItem, advanceCount, syncThreshold, mkRecord]

/-- Settles O51: an item counts when it is generated, whatever becomes of it. -/
theorem syncResetsCounter : Obligations.SyncResetsCounter :=
  ⟨fun s stall p item => (emit_count s stall p item).trans (countAfterItem_mkRecord ..),
    fun _ _ _ _ _ _ _ h => (deliver_count h).trans (countAfterItem_mkRecord ..)⟩

/-! ## The guest configuration (R165) -/

theorem guestCfg_iff (s : State) : s.guestCfg = true ↔ s.strcs = true ∧ s.strcv = true := Bool.and_eq_true_iff

theorem mkRecord_virt_guest {s : State} (h : s.guestCfg = true) (item : Item) : (mkRecord s item).virt = false := by
  simp [mkRecord, State.reportedVirt, h]

theorem mkRecord_virt_host {s : State} (h : s.guestCfg = false) (item : Item) : (mkRecord s item).virt = s.virt := by
  simp [mkRecord, State.reportedVirt, h]

theorem mkRecord_vmid {s : State} {item : Item} {r : ContextReport} (h : r ∈ (mkRecord s item).context) :
    r.vmid = if s.guestCfg then 0 else s.vmid := by
  simp only [mkRecord, State.contextReport, Option.mem_def] at h
  split at h
  · rw [← Option.some.inj h]
    rfl
  · cases h

/-- Settles O55, by whether the guest configuration holds. -/
theorem guestSeesItselfAsHost : Obligations.GuestSeesItselfAsHost := by
  intro s item
  rw [← guestCfg_iff]
  refine ⟨rfl, fun h => ⟨mkRecord_virt_guest h item, fun r hr => ?_⟩, fun h => ?_⟩
  · rw [mkRecord_vmid hr, if_pos h]
  · exact ⟨mkRecord_virt_host (by simpa using h) item, fun r hr => by rw [mkRecord_vmid hr, if_neg h]⟩

end Sys2Proof.Machine
end

section
/-! SUPPORT. Where the synchronization sequence stands in the stream, and the settlement of O56. -/

namespace Sys2Proof.Machine

/-! ## The bytes laid out for a packet -/

@[simp] theorem encapSyncBytes_length : encapSyncBytes.length = 33 := by simp [encapSyncBytes, encapSyncLength]

/-- A packet that opens a block stands behind the fill of the old block and the sequence. -/
theorem layOut_opens {pos : Nat} {body : List Byte} (h : opensBlock pos body.length = true) :
    layOut .etrace pos body =
      List.replicate ((4096 - pos % 4096) % 4096) Config.encapFillByte ++ (encapSyncBytes ++ body) := by
  simp only [layOut, h, if_true, List.append_assoc, encapBlock]

theorem opensBlock_iff (pos n : Nat) : opensBlock pos n = true ↔ pos % 4096 = 0 ∨ 4096 < pos % 4096 + n := by
  rw [opensBlock, Bool.or_eq_true, decide_eq_true_eq, decide_eq_true_eq]
  rfl

/-- A block boundary that the bytes of a packet reach is the one it opens, right behind the fill: the sequence and the
packet take no more than one block. -/
theorem boundary_of_layOut {pos k : Nat} {body : List Byte} (hbody : body.length ≤ 4096 - 33) (hlow : pos ≤ 4096 * k)
    (hhigh : 4096 * k < pos + (layOut .etrace pos body).length) :
    opensBlock pos body.length = true ∧ 4096 * k - pos = (4096 - pos % 4096) % 4096 := by
  rw [opensBlock_iff]
  rw [layOut_etrace_length] at hhigh
  split at hhigh <;> omega

/-- The sequence stands at every block boundary that the bytes of a packet reach (R187). -/
theorem layOut_sync_at_boundary {pos k : Nat} {body : List Byte} (hbody : body.length ≤ 4096 - 33)
    (hlow : pos ≤ 4096 * k) (hhigh : 4096 * k < pos + (layOut .etrace pos body).length) :
    ((layOut .etrace pos body).drop (4096 * k - pos)).take 33 = encapSyncBytes := by
  obtain ⟨hopens, hfill⟩ := boundary_of_layOut hbody hlow hhigh
  rw [layOut_opens hopens, hfill, List.drop_left' List.length_replicate, List.take_left' encapSyncBytes_length]

/-! ## The encoder's stream -/

theorem streamsBlocks_of_same {e e' : Encoder} (hbuffer : e'.buffer = e.buffer) (hproduced : e'.produced = e.produced) :
    StreamsBlocks e e' :=
  ⟨[], by simp [hbuffer], by simp [hproduced], fun k hlow hhigh => absurd hhigh (by simpa using hlow)⟩

/-- What is appended to the stream are the bytes laid out at its position. -/
theorem streamsBlocks_of_layOut {e e' : Encoder} {body : List Byte} (hbody : body.length ≤ 4096 - 33)
    (hbuffer : e'.buffer = e.buffer ++ layOut .etrace e.produced body)
    (hproduced : e'.produced = e.produced + (layOut .etrace e.produced body).length) : StreamsBlocks e e' :=
  ⟨_, hbuffer, hproduced, fun _ hlow hhigh => layOut_sync_at_boundary hbody hlow hhigh⟩

section etrace
variable {c : Config} (hkind : c.kind = .etrace)
include hkind

/-- A packet fits in a block behind the sequence. -/
theorem itemBytes_length_le (f : StrcCtl) (e : Encoder) (r : Record) : (itemBytes c f e r).length ≤ 4096 - 33 := by
  simp only [itemBytes, packetBytes, hkind]
  exact List.length_take_le ..

theorem deliver_streamsBlocks {f : StrcCtl} {stall : Bool} {p q : Encoder × Bool} {r : Record}
    (h : deliver c f stall p r = some q) : StreamsBlocks p.1 q.1 := by
  rcases deliver_cases h with ⟨_, rfl⟩ | ⟨_, _, n, rfl⟩ | ⟨_, _, _, n, rfl⟩
  · exact streamsBlocks_of_same rfl rfl
  · refine streamsBlocks_of_layOut (itemBytes_length_le hkind f p.1 r) ?_ ?_ <;> simp [appendItem, hkind]
  · exact streamsBlocks_of_same rfl rfl

theorem appendWaiting_streamsBlocks (e : Encoder) {w : Waiting} (hw : w.body.length ≤ 4096 - 33) :
    StreamsBlocks e (appendWaiting c e w) := by
  unfold appendWaiting
  split
  · exact streamsBlocks_of_same rfl rfl
  · refine streamsBlocks_of_layOut hw ?_ ?_ <;> simp [appendItem, hkind]

end etrace

/-- Settles O56: the bytes laid out for one packet, and what becomes of an item's bytes. -/
theorem blocksBeginWithSyncSequence : Obligations.BlocksBeginWithSyncSequence :=
  ⟨fun _ _ _ hbody hlow hhigh => ⟨layOut_sync_at_boundary hbody hlow hhigh, encapSyncBytes_length⟩,
    fun _ f p _ r _ hkind => ⟨deliver_streamsBlocks hkind, fun _ hw => appendWaiting_streamsBlocks hkind p.1 hw,
      _, rfl, itemBytes_length_le hkind f p.1 r, rfl, rfl⟩⟩

end Sys2Proof.Machine
end

section
/-! SUPPORT. What an instruction that is not traced leaves in the encoder, that EMPTY stays 1 while EN = 0, and the
settlement of O44 and O48. -/

namespace Sys2Proof.Machine

/-! ## An untraced instruction adds at most a `Sync` -/

theorem countHalfwords_adds (such : Item → Prop) (s : State) (n : Nat) : Adds such s.enc (countHalfwords s s.enc n) := by
  obtain ⟨_, _, h, _⟩ := countHalfwords_fields s s.enc n
  rw [h]
  exact .of_same rfl rfl

theorem syncAfter_adds (s : State) (stall : Bool) (p : Encoder × Bool) :
    Adds (· = .sync) p.1 (syncAfter s stall p).1 := by
  unfold syncAfter
  split
  · exact emit_adds s stall p .sync
  · exact .of_same rfl rfl

/-- With no item of its own an instruction does not stall, and while EN stays at most a `Sync` is added. -/
theorem observe_untraced {s s' : State} (hen : s'.ctl.en = s.ctl.en) (n : Nat) :
    Completes s' (observe s s' none n) ∧ Adds (· = .sync) s.enc (observe s s' none n).enc := by
  have hreacts := encoderReacts_quiet hen n
  obtain ⟨heq, _, hstof, _⟩ := encoderReacts_eq hreacts
  rw [observe, hreacts, Option.getD_some]
  exact ⟨⟨heq, hstof⟩, (countHalfwords_adds _ s n).trans <| (syncAfter_adds s (stallEnabled s s') (_, false)).trans <|
    (reacted_adds _ s s' _).trans (settleSync_adds _)⟩

/-! ## No `Sync` comes where none was due -/

/-- Outside generation only the `Sync` of SMOD = 1 can be due. -/
theorem syncDue_untraced {s : State} (hg : s.generating = false) (e : Encoder) : syncDue s e = true ↔
    s.ctl.smod = 1 ∧ s.sessionOpen = true ∧ syncThreshold s.ctl.smax ≤ e.syncCount := by
  simp only [syncDue, hg, Bool.false_or, Bool.and_eq_true, decide_eq_true_eq]
  constructor
  · rintro ⟨⟨_, hcount⟩, hmod, hopen⟩
    exact ⟨hmod, hopen, hcount⟩
  · rintro ⟨hmod, hopen, hcount⟩
    exact ⟨⟨by rw [hmod]; decide, hcount⟩, hmod, hopen⟩

/-- Between two states that generate no trace, a counter that stays with SMOD = 1 makes no `Sync` due. -/
theorem syncDue_untraced_congr {s v : State} {e e' : Encoder} (hg : s.generating = false) (hv : v.generating = false)
    (hmod : v.ctl.smod = s.ctl.smod) (hmax : v.ctl.smax = s.ctl.smax) (hopen : v.sessionOpen = s.sessionOpen)
    (hcount : s.ctl.smod = 1 → e'.syncCount = e.syncCount) (h : syncDue s e = false) : syncDue v e' = false := by
  rw [← Bool.not_eq_true, syncDue_untraced hg] at h
  rw [← Bool.not_eq_true, syncDue_untraced hv, hmod, hmax, hopen]
  rintro ⟨h1, hsession, hle⟩
  exact h ⟨h1, hsession, hcount h1 ▸ hle⟩

/-- Half-words count with SMOD = 3 alone (R167). -/
theorem countHalfwords_of_ne {s : State} (h : s.ctl.smod ≠ 3) (e : Encoder) (n : Nat) : countHalfwords s e n = e := by
  rw [countHalfwords, if_neg h]

/-- What an instruction with nothing to record leaves, where no `Sync` is due on its way. -/
theorem observe_of_no_sync {s s' : State} (hen : s'.ctl.en = s.ctl.en) {n : Nat}
    (hbefore : syncDue s (countHalfwords s s.enc n) = false)
    (hafter : syncDue s' (retune s.ctl s'.ctl (countHalfwords s s.enc n)) = false) :
    observe s s' none n = reacted s s' (countHalfwords s s.enc n, false) := by
  rw [observe, encoderReacts_quiet hen, Option.getD_some,
    syncAfter_of_not_due (p := (countHalfwords s s.enc n, false)) hbefore]
  exact settleSync_of_not_due _ hafter

/-- An instruction outside generation that keeps SMOD, SMAX and the session, with no `Sync` overdue before it, leaves the
trace, the internal buffers and trace control alone. -/
theorem observe_untraced_settled {s s' : State} (hg : s.generating = false) (hg' : s'.generating = false)
    (hen : s'.ctl.en = s.ctl.en) (hmod : s'.ctl.smod = s.ctl.smod) (hmax : s'.ctl.smax = s.ctl.smax)
    (hopen : s'.sessionOpen = s.sessionOpen) (hsettled : SyncSettled s) (n : Nat) :
    let u := observe s s' none n
    u.enc.trace = s.enc.trace ∧ u.enc.buffer = s.enc.buffer ∧ u.ctl = s'.ctl := by
  intro u
  have hcount (h1 : s.ctl.smod = 1) : countHalfwords s s.enc n = s.enc :=
    countHalfwords_of_ne (by rw [h1]; decide) s.enc n
  obtain ⟨k, d, hretune, hsame, _⟩ := retune_fields s.ctl s'.ctl (countHalfwords s s.enc n)
  have hu : u = reacted s s' (countHalfwords s s.enc n, false) := by
    refine observe_of_no_sync hen (syncDue_untraced_congr hg hg rfl rfl rfl ?_ hsettled)
      (syncDue_untraced_congr hg hg' hmod hmax hopen ?_ hsettled)
    · exact fun h1 => by rw [hcount h1]
    · exact fun h1 => by rw [hretune, hsame hmod.symm hmax.symm, hcount h1]
  obtain ⟨_, _, hfields, _⟩ := countHalfwords_fields s s.enc n
  rw [hu]
  simp only [reacted, hretune, Bool.or_false, and_true]
  rw [hfields]
  exact ⟨rfl, rfl⟩

/-! ## An instruction of the table outside generation -/

theorem exec_dis_debugMode {i : Instr} {s t : State} (h : exec i s = .next t) :
    t.dis = s.dis ∧ t.debugMode = s.debugMode := by
  rcases exec_cases i s with ⟨e, _, heq⟩ | ⟨id, f, rd, _, _, heq⟩ <;> rw [heq] at h <;> cases h
  · exact ⟨takeTrap_dis .., takeTrap_debugMode ..⟩
  · exact ⟨csrPerform_dis .., csrPerform_debugMode ..⟩

/-- Whether a session is open changes with EN alone among what an instruction writes. -/
theorem exec_sessionOpen {i : Instr} {s t : State} (h : exec i s = .next t) (hen : t.ctl.en = s.ctl.en) :
    t.sessionOpen = s.sessionOpen := by
  obtain ⟨hdis, hdebug⟩ := exec_dis_debugMode h
  rw [State.sessionOpen, hdis, hdebug, hen]
  rfl

theorem afterRead_generating (i : Instr) (s t : State) : (afterRead i s t).generating = t.generating := by
  rw [afterRead_eq]; rfl

theorem afterRead_sessionOpen (i : Instr) (s t : State) : (afterRead i s t).sessionOpen = t.sessionOpen := by
  rw [afterRead_eq]; rfl

/-- Settles O44: an untraced instruction is observed with no item of its own. -/
theorem untracedInstructionAddsNothing : Obligations.UntracedInstructionAddsNothing := by
  intro i s t hexec hg hen
  obtain ⟨item, n, hobserve⟩ := observeInstr_eq i s t
  rw [hobserve, whenGenerating_off hg]
  have hen' : (afterRead i s t).ctl.en = s.ctl.en := (afterRead_en i s t).trans hen
  obtain ⟨hcompletes, hadds⟩ := observe_untraced hen' n
  refine ⟨hcompletes, hadds.trace, fun hsettled hg' hmod hmax => ?_⟩
  have hopen := (afterRead_sessionOpen i s t).trans (exec_sessionOpen hexec hen)
  have hquiet := observe_untraced_settled hg ((afterRead_generating i s t).trans hg') hen' (by rwa [afterRead_ctl])
    (by rwa [afterRead_ctl]) hopen hsettled n
  rwa [afterRead_ctl] at hquiet

/-! ## EMPTY while EN = 0 -/

theorem empty_iff (s : State) : s.empty = true ↔ s.enc.buffer = [] ∧ s.enc.owed = [] := by
  simp [State.empty]

theorem empty_of_enc {s t : State} (h : t.enc = s.enc) : t.empty = s.empty := by
  rw [State.empty, h]; rfl

/-- With EN = 0 on both sides what the hart does leaves EMPTY at 1 (R164): nothing is traced, and no session starts. -/
theorem hartActs_empty {s t : State} (hen : s.ctl.en = false) (hempty : s.empty = true) (h : hartActs s = .next t)
    (hen' : t.ctl.en = false) : t.empty = true := by
  have hoff (item : Item) : whenGenerating s item = none := whenGenerating_off (by simp [State.generating, hen]) item
  obtain ⟨s', n, rfl⟩ : ∃ s' n, t = observe s s' none n := by
    rcases hartActs_cases h with ⟨_, i, s', _, rfl⟩ | ⟨b, op, rfl⟩ | ⟨i, c, v, rfl⟩
    · obtain ⟨item, n, heq⟩ := observeInstr_eq i s s'
      exact ⟨_, n, by rw [heq, hoff]⟩
    · obtain ⟨item, n, heq⟩ := hostRetire_eq s b op
      exact ⟨_, n, by rw [heq, hoff]⟩
    · obtain ⟨item, heq⟩ := hostTrap_eq s i c v
      exact ⟨_, 0, by rw [heq, hoff]⟩
  have hs' : s'.ctl.en = false := by
    rcases observe_cases s s' none n with ⟨hnone, _⟩ | hsome
    · cases hnone
    · rw [(encoderReacts_eq hsome).1] at hen'
      exact hen'
  obtain ⟨hbuffer, howed⟩ := observe_disabled hen hs' n
  rw [empty_iff] at hempty ⊢
  exact ⟨hbuffer.trans hempty.1, howed.trans hempty.2⟩

theorem fireTrigger_enc {s : State} (hg : s.generating = false) (a : TriggerAction) : (fireTrigger s a).enc = s.enc := by
  unfold fireTrigger
  split
  · rfl
  · cases a with
    | traceOn | traceOff => rfl
    | notify => simp [hg]

/-- The encoder is free to emit items only while a session is open. -/
theorem emitExtra_of_closed {s : State} (h : s.sessionOpen = false) (x : ExtraItem) : emitExtra s x = s := by
  unfold emitExtra
  split
  · rw [if_neg (by simp [h])]
  · rfl

theorem handOverByte_of_empty {s : State} (h : s.empty = true) : handOverByte s = s := by
  obtain ⟨hbuffer, howed⟩ := (empty_iff s).mp h
  rcases handOverByte_cases s with heq | ⟨_, heq⟩ | ⟨b, bs, hcons, _⟩
  · exact heq
  · rw [heq, howed, settleOwed_nil _ _ howed]
  · rw [hbuffer] at hcons
    cases hcons

/-- No entry of the agenda puts trace data into the encoder while EN = 0. -/
theorem actItself_empty {s : State} (hdis : s.dis = false) (hen : s.ctl.en = false) (hempty : s.empty = true)
    (a : Action) : (actItself s a).empty = true := by
  cases a with
  | trigger action =>
    exact (empty_of_enc (fireTrigger_enc (by simp [State.generating, hen]) action)).trans hempty
  | encoderItem x =>
    show (emitExtra s x).empty = true
    rwa [emitExtra_of_closed (by simp [State.sessionOpen, hen])]
  | handOver =>
    show (handOverByte s).empty = true
    rwa [handOverByte_of_empty hempty]
  | debuggerSetDis v =>
    show (setDis s v).empty = true
    cases v with
    | false => rwa [setDis, if_pos hdis.symm]
    | true => rw [setDis, if_neg (by simp [hdis])]; rfl
  | hartClock waiting =>
    obtain ⟨_, _, hcount, _⟩ := countCycle_fields s s.enc waiting
    show State.empty { s with cycle := s.cycle + 1, enc := countCycle s s.enc waiting } = true
    rw [hcount]
    exact hempty
  | sinkReady v => exact (empty_of_enc (congrArg State.enc (sinkAccepts_eq s v))).trans hempty
  | drain n => exact (empty_of_enc (congrArg State.enc (drainSink_eq s n))).trans hempty
  | drainFault => exact (empty_of_enc (congrArg State.enc (drainFaults_eq s))).trans hempty
  | hart | debugMode | timeAdvance | vmidChange => exact hempty

/-- With EN = 0 after it no `Sync` follows an entry of the agenda, so EMPTY stays 1. -/
theorem act_empty {s : State} (hdis : s.dis = false) (hen : s.ctl.en = false) (hempty : s.empty = true) (a : Action)
    (hen' : (act s a).ctl.en = false) : (act s a).empty = true := by
  have hnext : (actItself s a).ctl.en = false := hen'
  rw [act, settleSync_of_not_due _ (syncDue_disabled hnext _)]
  exact actItself_empty hdis hen hempty a

theorem hartTurn_empty {s t : State} (hen : s.ctl.en = false) (hempty : s.empty = true) (h : hartTurn s = .next t)
    (hen' : t.ctl.en = false) : t.empty = true := by
  rcases hartTurn_cases h with rfl | ⟨_, hacts⟩
  · exact hempty
  · exact hartActs_empty (by rw [arrive_ctl, hen]) ((empty_of_enc (arrive_enc s)).trans hempty) hacts hen'

/-- Settles O48, turn by turn. -/
theorem emptyStaysUntilEnabled : Obligations.EmptyStaysUntilEnabled := by
  intro s t hstep hdis hen hempty hen'
  rcases turn_cases hstep with ⟨u, hu, hturn⟩ | ⟨a, rest, _, _, rfl⟩
  · rcases hu with ⟨rfl, _⟩ | ⟨rest, _, rfl⟩
    · exact hartTurn_empty hen hempty hturn hen'
    · exact hartTurn_empty (s := { s with agenda := rest }) hen hempty hturn hen'
  · exact act_empty (s := { s with agenda := rest }) hdis hen hempty a hen'

end Sys2Proof.Machine
end

section
/-! SUPPORT. What the machine does while `trTeDisSelfHosted` = 1 (R220), and the settlement of O60. -/

namespace Sys2Proof.Machine

/-! ## The encoder and the sink move nothing -/

theorem handOverByte_of_dis {s : State} (h : s.dis = true) : handOverByte s = s := if_pos h

theorem drainSink_of_dis {s : State} (h : s.dis = true) (n : Nat) : drainSink s n = s := by simp [drainSink, h]

theorem drainFaults_of_dis {s : State} (h : s.dis = true) : drainFaults s = s := if_pos h

theorem sinkAccepts_of_dis {s : State} (h : s.dis = true) (ready : Bool) : sinkAccepts s ready = s := if_pos h

/-- No `Sync` is due, so an entry of the agenda does what it does itself and nothing more. -/
theorem act_of_dis {s : State} {a : Action} (h : (actItself s a).dis = true) : act s a = actItself s a :=
  settleSync_of_not_due _ (syncDue_dis h _)

/-- An entry that itself moves nothing changes nothing. -/
theorem act_idle {s : State} {a : Action} (h : s.dis = true) (hidle : actItself s a = s) : act s a = s := by
  rw [act_of_dis (by rwa [hidle]), hidle]

theorem loadByte_of_dis {s : State} (h : s.dis = true) (k a : Nat) : loadByte s k a = memRead s.mem a :=
  loadByte_of_outside (by simp [State.inFlight, h]) k

/-! ## No step adds trace data -/

/-- From `s` to `t` nothing was added to the abstract trace, nor to the internal buffers, and nothing left them. -/
structure StreamStays (s t : State) : Prop where
  trace : t.enc.trace = s.enc.trace
  buffer : t.enc.buffer = s.enc.buffer

theorem StreamStays.of_enc {s t : State} (h : t.enc = s.enc) : StreamStays s t := ⟨by rw [h], by rw [h]⟩

theorem clockTick_streamStays (s : State) (waiting : Bool) : StreamStays s (clockTick s waiting) := by
  obtain ⟨_, _, hcount, _⟩ := countCycle_fields s s.enc waiting
  have henc : (clockTick s waiting).enc = _ := hcount
  exact ⟨by rw [henc], by rw [henc]⟩

/-- An entry of the agenda, the debugger's that sets the bit back to 0 apart. -/
theorem actItself_streamStays {s : State} (hdis : s.dis = true) {a : Action} (hdis' : (actItself s a).dis = true) :
    StreamStays s (actItself s a) := by
  cases a with
  | trigger action => exact .of_enc (fireTrigger_enc (generating_dis hdis) action)
  | encoderItem x => exact .of_enc (congrArg State.enc (emitExtra_of_closed (by simp [State.sessionOpen, hdis]) x))
  | handOver => exact .of_enc (congrArg State.enc (handOverByte_of_dis hdis))
  | sinkReady v => exact .of_enc (congrArg State.enc (sinkAccepts_of_dis hdis v))
  | drain n => exact .of_enc (congrArg State.enc (drainSink_of_dis hdis n))
  | drainFault => exact .of_enc (congrArg State.enc (drainFaults_of_dis hdis))
  | hartClock waiting => exact clockTick_streamStays s waiting
  | debuggerSetDis v =>
    cases v with
    | true => exact .of_enc (congrArg State.enc (if_pos hdis.symm))
    | false =>
      have hcleared : (setDis s false).dis = false := by simp [setDis, hdis, enableSelfHosted]
      exact absurd (hcleared.symm.trans hdis') nofun
  | hart | debugMode | timeAdvance | vmidChange => exact .of_enc rfl

theorem act_streamStays {s : State} (hdis : s.dis = true) {a : Action} (hdis' : (act s a).dis = true) :
    StreamStays s (act s a) := by
  have hself : (actItself s a).dis = true := hdis'
  rw [act_of_dis hself]
  exact actItself_streamStays hdis hself

/-- The substitution of V = 1 reaches a view of `mstrcctl` only from another view of it (R137). -/
theorem resolveCsr_not_isControl {id : CsrId} (h : id.isControl = false) (virt : Bool) :
    (resolveCsr id virt).isControl = false := by
  cases virt with
  | false => exact h
  | true =>
    cases id with
    | mstrcctl | sstrcctl | vsstrcctl => cases h
    | _ => rfl

/-- No instruction writes `mstrcctl`, since an access to it or to a view of it raises (R128). -/
theorem exec_ctl_of_dis {i : Instr} {s t : State} (hdis : s.dis = true) (h : exec i s = .next t) : t.ctl = s.ctl := by
  rcases exec_cases i s with ⟨e, _, heq⟩ | ⟨id, f, rd, hok, hid, heq⟩ <;> rw [heq] at h <;> cases h
  · exact takeTrap_ctl ..
  · have hcontrol : id.isControl = false := by
      rw [← Bool.not_eq_true]
      intro hc
      have hfree := dis_of_checkAccess_strc hid (isStrc_of_isControl hc) hok
      exact absurd (hfree.symm.trans hdis) nofun
    obtain ⟨hgroup, _⟩ := csrPerform_groups s (resolveCsr id s.virt) (instrWrites i) f rd
    exact (hgroup (resolveCsr_not_isControl hcontrol s.virt)).1

/-- Whatever the hart does is observed with no item of its own, and it leaves trace control and the bit. -/
theorem hartActs_of_dis {s t : State} (hdis : s.dis = true) (h : hartActs s = .next t) :
    ∃ s' n, t = observe s s' none n ∧ s'.ctl = s.ctl ∧ s'.dis = true := by
  have hoff (item : Item) : whenGenerating s item = none := whenGenerating_off (generating_dis hdis) item
  rcases hartActs_cases h with ⟨_, i, s', hexec, rfl⟩ | ⟨compressed, op, rfl⟩ | ⟨interrupt, cause, tval, rfl⟩
  · obtain ⟨item, n, heq⟩ := observeInstr_eq i s s'
    refine ⟨afterRead i s s', n, by rw [heq, hoff],
      (afterRead_ctl ..).trans (exec_ctl_of_dis (s := s.nextInput) hdis hexec), ?_⟩
    rw [afterRead_eq]
    exact (exec_dis_debugMode hexec).1.trans hdis
  · obtain ⟨item, n, heq⟩ := hostRetire_eq s compressed op
    obtain ⟨_, hctl, _, _, hdis', _⟩ := hostEffect_keeps s.nextInput compressed op
    exact ⟨_, n, by rw [heq, hoff], hctl, hdis'.trans hdis⟩
  · obtain ⟨item, heq⟩ := hostTrap_eq s interrupt cause tval
    refine ⟨_, 0, by rw [heq, hoff], ?_, ?_⟩
    · exact takeTrap_ctl s.nextInput interrupt cause tval
    · exact (takeTrap_dis s.nextInput interrupt cause tval).trans hdis

/-- An instruction that is observed while the bit is 1 makes no `Sync` due and no session begin or end. -/
theorem observe_streamStays {s s' : State} (hdis : s.dis = true) (hdis' : s'.dis = true) (hctl : s'.ctl = s.ctl)
    (n : Nat) : StreamStays s (observe s s' none n) := by
  have hopen : s'.sessionOpen = s.sessionOpen := by simp [State.sessionOpen, hdis, hdis']
  obtain ⟨htrace, hbuffer, _⟩ := observe_untraced_settled (generating_dis hdis) (generating_dis hdis') (by rw [hctl])
    (by rw [hctl]) (by rw [hctl]) hopen (syncDue_dis hdis _) n
  exact ⟨htrace, hbuffer⟩

theorem hartTurn_streamStays {s t : State} (hdis : s.dis = true) (h : hartTurn s = .next t) : StreamStays s t := by
  rcases hartTurn_cases h with rfl | ⟨_, hacts⟩
  · exact .of_enc rfl
  · rw [show arrive s = s from drainSink_of_dis hdis _] at hacts
    obtain ⟨s', n, rfl, hctl, hdis'⟩ := hartActs_of_dis hdis hacts
    exact observe_streamStays hdis hdis' hctl n

theorem step_streamStays {s t : State} (h : step s = .next t) (hdis : s.dis = true) (hdis' : t.dis = true) :
    StreamStays s t := by
  rcases turn_cases h with ⟨u, ⟨rfl, _⟩ | ⟨rest, _, rfl⟩, hturn⟩ | ⟨a, rest, _, _, rfl⟩
  · exact hartTurn_streamStays hdis hturn
  · obtain ⟨htrace, hbuffer⟩ := hartTurn_streamStays (s := { s with agenda := rest }) hdis hturn
    exact ⟨htrace, hbuffer⟩
  · obtain ⟨htrace, hbuffer⟩ := act_streamStays (s := { s with agenda := rest }) hdis hdis'
    exact ⟨htrace, hbuffer⟩

/-! ## The moment of the change -/

/-- The debugger's change of the bit to 1 is the emptying of encoder and sink, and no `Sync` follows it. -/
theorem act_setDis_true {s : State} (h : s.dis = false) : act s (.debuggerSetDis true) = disableSelfHosted s := by
  have hself : actItself s (.debuggerSetDis true) = disableSelfHosted s := by simp [actItself, setDis, h]
  rw [act_of_dis (by rw [hself]; rfl), hself]

/-- Settles O60: a step is the hart's turn or an entry of the agenda, and neither adds trace data; each operation on
encoder and sink first looks at the bit. -/
theorem disabledTraceIsIdle : Obligations.DisabledTraceIsIdle := by
  refine ⟨fun s t hstep hdis hdis' => ?_, fun s hdis => ?_⟩
  · obtain ⟨htrace, hbuffer⟩ := step_streamStays hstep hdis hdis'
    exact ⟨htrace, hbuffer, act_idle hdis (handOverByte_of_dis hdis), fun n => act_idle hdis (drainSink_of_dis hdis n),
      act_idle hdis (drainFaults_of_dis hdis), fun v => act_idle hdis (sinkAccepts_of_dis hdis v),
      loadByte_of_dis hdis⟩
  · rw [act_setDis_true hdis]
    exact ⟨rfl, rfl, rfl, rfl⟩

end Sys2Proof.Machine
end

section
/-! SUPPORT. What a trap entry and a return change, where an exception of the table is taken, and the settlement of O19
to O22. -/

namespace Sys2Proof.Machine

/-! ## What traps and returns change (R246) -/

/-- From `s` to `t` nothing changes but the pc, the mode and the trap registers. -/
def OnlyTrapState (s t : State) : Prop := t = { s with pc := t.pc, priv := t.priv, virt := t.virt, trap := t.trap }

theorem takeTrap_onlyTrapState (s : State) (interrupt : Bool) (cause : BitVec 6) (tval : Word) :
    OnlyTrapState s (takeTrap s interrupt cause tval) := by
  unfold takeTrap
  split <;> rfl

theorem returnMachine_onlyTrapState (s : State) : OnlyTrapState s (returnMachine s) := rfl

theorem returnFromTrap_onlyTrapState (s : State) : OnlyTrapState s (returnFromTrap s) := by
  unfold returnFromTrap
  split <;> rfl

/-- The pc, the mode and the trap registers are no part of the trace side, the environment, the general registers, the
memory, or what only the environment changes. -/
theorem OnlyTrapState.keeps {s t : State} (h : OnlyTrapState s t) :
    SameTrace s t ∧ t.env = s.env ∧ SameRegs s t ∧ SameMemory s t ∧ SameOutside s t := by
  rw [h]
  exact ⟨⟨rfl, rfl, rfl, rfl, rfl⟩, rfl, fun _ => rfl, fun _ => rfl, ⟨rfl, rfl, rfl, rfl, rfl, rfl, rfl, rfl⟩⟩

/-- Settles O21: each of the three changes only the pc, the mode and the trap registers. -/
theorem trapsKeepTraceState : Obligations.TrapsKeepTraceState := by
  intro s interrupt cause tval t ht
  apply OnlyTrapState.keeps
  simp only [List.mem_cons, List.not_mem_nil, or_false] at ht
  rcases ht with rfl | rfl | rfl
  · exact takeTrap_onlyTrapState ..
  · exact returnMachine_onlyTrapState s
  · exact returnFromTrap_onlyTrapState s

/-! ## Where an exception is taken (R240, R241, R246) -/

section target
variable {s : State} {cause : BitVec 6}

theorem trapTarget_exception_machine (h : s.priv = .machine ∨ s.trap.medeleg.getLsbD cause.toNat = false) :
    trapTarget s false cause = .machine := by
  rcases h with h | h <;> simp [trapTarget, delegated, h]

theorem trapTarget_exception_supervisor (hpriv : s.priv ≠ .machine)
    (hmedeleg : s.trap.medeleg.getLsbD cause.toNat = true)
    (h : s.virt = false ∨ s.trap.hedeleg.getLsbD cause.toNat = false ∨ cause = causeVirtual) :
    trapTarget s false cause = .supervisor := by
  have hm : (decide (s.priv = .machine) || !delegated s.trap.medeleg cause) = false := by
    simp [delegated, hpriv, hmedeleg]
  have hvs : (s.virt && delegated s.trap.hedeleg cause && (false || decide (cause ≠ causeVirtual))) = false := by
    rcases h with h | h | h <;> simp [delegated, h]
  simp only [trapTarget, Bool.false_eq_true, if_false, hm, hvs]

theorem trapTarget_exception_virtualSupervisor (hpriv : s.priv ≠ .machine)
    (hmedeleg : s.trap.medeleg.getLsbD cause.toNat = true) (hvirt : s.virt = true)
    (hhedeleg : s.trap.hedeleg.getLsbD cause.toNat = true) (hcause : cause ≠ causeVirtual) :
    trapTarget s false cause = .virtualSupervisor := by
  simp [trapTarget, delegated, hpriv, hmedeleg, hvirt, hhedeleg, hcause]

end target

/-! ## What the handler finds -/

/-- The trap value is "the instruction's bits or zero" (R240, R241), whichever the implementation has. -/
theorem excTval_zero_or_word (c : Config) (word : BitVec 32) :
    excTval c word = 0 ∨ excTval c word = word.setWidth 64 := by
  cases h : c.tvalHoldsInstr <;> simp [excTval, h]

theorem causeWord_illegal : causeWord false causeIllegal = 2 := by decide

theorem causeWord_virtual : causeWord false causeVirtual = 22 := by decide

/-- SPP records the mode below M-mode that the trap came from. -/
theorem ne_user_iff_supervisor {p : Priv} (h : p ≠ .machine) : p ≠ .user ↔ p = .supervisor := by
  cases p <;> simp at h ⊢

/-- Settles O19, with one trap entry for each of the three targets. -/
theorem illegalInstructionTrap : Obligations.IllegalInstructionTrap := by
  intro i s hraise
  have htval := excTval_zero_or_word s.cfg (encode i)
  refine ⟨_, exec_of_raise hraise, fun hm => ?_, fun hpriv hmedeleg hs => ?_, fun hpriv hmedeleg hvirt hhedeleg => ?_⟩
  · have htarget : trapTarget s false causeIllegal = .machine := trapTarget_exception_machine hm
    rw [raiseExc, excCause, takeTrap_machine _ _ _ _ htarget]
    exact ⟨rfl, rfl, rfl, rfl, causeWord_illegal, htval, rfl, rfl, rfl, rfl⟩
  · have htarget : trapTarget s false causeIllegal = .supervisor :=
      trapTarget_exception_supervisor hpriv hmedeleg (hs.imp_right .inl)
    rw [raiseExc, excCause, takeTrap_supervisor _ _ _ _ htarget]
    exact ⟨rfl, rfl, rfl, rfl, causeWord_illegal, htval, decide_eq_decide.mpr (ne_user_iff_supervisor hpriv), rfl, rfl,
      rfl⟩
  · have htarget : trapTarget s false causeIllegal = .virtualSupervisor :=
      trapTarget_exception_virtualSupervisor hpriv hmedeleg hvirt hhedeleg (by decide)
    rw [raiseExc, excCause, takeTrap_virtualSupervisor _ _ _ _ htarget]
    exact ⟨rfl, hvirt, rfl, rfl, causeWord_illegal, htval, decide_eq_decide.mpr (ne_user_iff_supervisor hpriv), rfl,
      rfl⟩

/-! ## Where a virtual-instruction exception comes from (R241) -/

/-- Steps 1 and 2 decide in M-mode, and answer an illegal instruction or none. -/
theorem checkStrcAccess_machine {s : State} (h : s.priv = .machine) (id : CsrId) :
    checkStrcAccess s id ≠ some .virtualInstruction := by
  simp only [checkStrcAccess, h, if_true]
  split_ifs <;> simp

/-- Steps 4 and 5 ask for V = 1 before they answer a virtual instruction. -/
theorem checkStrcAccess_not_virt {s : State} (h : s.virt = false) (id : CsrId) :
    checkStrcAccess s id ≠ some .virtualInstruction := by
  simp only [checkStrcAccess, h, Bool.false_and, Bool.false_eq_true, if_false]
  split_ifs <;> simp

theorem checkHostAccess_machine {s : State} (h : s.priv = .machine) (id : CsrId) (n : Nat) (isWrite : Bool) :
    checkHostAccess s id n isWrite ≠ some .virtualInstruction := by
  simp only [checkHostAccess, h, if_true]
  split_ifs <;> simp

theorem checkHostAccess_not_virt {s : State} (h : s.virt = false) (id : CsrId) (n : Nat) (isWrite : Bool) :
    checkHostAccess s id n isWrite ≠ some .virtualInstruction := by
  simp only [checkHostAccess, h, Bool.not_false, if_true]
  split_ifs <;> simp

theorem checkAccess_virtual {s : State} {n : Nat} {isWrite : Bool}
    (h : checkAccess s n isWrite = some .virtualInstruction) : s.virt = true ∧ s.priv ≠ .machine := by
  unfold checkAccess at h
  split at h
  · cases h
  · rename_i id _
    split at h
    · exact ⟨Bool.of_not_eq_false (checkStrcAccess_not_virt · id h), (checkStrcAccess_machine · id h)⟩
    · exact ⟨Bool.of_not_eq_false (checkHostAccess_not_virt · id n isWrite h),
        (checkHostAccess_machine · id n isWrite h)⟩

/-- Settles O20: the exception comes from below M-mode, and its cause is the one that is never delegated to VS-mode. -/
theorem virtualInstructionTrap : Obligations.VirtualInstructionTrap := by
  intro i s hraise
  obtain ⟨hvirt, hpriv⟩ := checkAccess_virtual hraise
  have htval := excTval_zero_or_word s.cfg (encode i)
  refine ⟨hvirt, _, exec_of_raise hraise, ?_⟩
  rw [raiseExc, excCause]
  cases hmedeleg : s.trap.medeleg.getLsbD 22 with
  | false =>
    have htarget : trapTarget s false causeVirtual = .machine := trapTarget_exception_machine (.inr hmedeleg)
    rw [takeTrap_machine _ _ _ _ htarget]
    exact ⟨rfl, fun _ => ⟨rfl, rfl, rfl, causeWord_virtual, htval, rfl, hvirt⟩, nofun⟩
  | true =>
    have htarget : trapTarget s false causeVirtual = .supervisor :=
      trapTarget_exception_supervisor hpriv hmedeleg (.inr (.inr rfl))
    rw [takeTrap_supervisor _ _ _ _ htarget]
    exact ⟨rfl, nofun, fun _ => ⟨rfl, rfl, rfl, causeWord_virtual, htval,
      decide_eq_decide.mpr (ne_user_iff_supervisor hpriv), hvirt⟩⟩

/-! ## A return after an entry (R246) -/

/-- SPP names the mode it was saved from. -/
theorem sppPriv_ne_user {p : Priv} (h : p ≠ .machine) : sppPriv (p ≠ .user) = p := by
  cases p with
  | machine => exact absurd rfl h
  | supervisor | user => rfl

section returns
variable (s : State) (interrupt : Bool) (cause : BitVec 6) (tval : Word)

/-- The entry into HS-mode clears V, so that `sret` there is the one of V = 0. -/
theorem returnFromTrap_enterSupervisor :
    returnFromTrap (enterSupervisor s interrupt cause tval) =
      returnSupervisor (enterSupervisor s interrupt cause tval) := if_neg Bool.false_ne_true

/-- The entry into VS-mode keeps V, so that `sret` there is the one of V = 1. -/
theorem returnFromTrap_enterVirtualSupervisor (h : s.virt = true) :
    returnFromTrap (enterVirtualSupervisor s interrupt cause tval) =
      returnVirtualSupervisor (enterVirtualSupervisor s interrupt cause tval) := if_pos h

end returns

/-- Settles O22: the entry saves what the return of its level reads, and in a legal mode what V is masked with on a
return holds wherever V = 1. -/
theorem trapReturnReversesEntry : Obligations.TrapReturnReversesEntry := by
  intro s interrupt cause tval hmode
  have hmask : (s.cfg.hasH && s.virt) = s.virt := Bool.and_eq_right_iff_imp.mpr fun hvirt => (hmode hvirt).1
  refine ⟨⟨rfl, rfl, ?_, rfl⟩, fun hpriv => ?_, fun hvirt => ?_⟩
  · show (s.cfg.hasH && s.virt && decide (s.priv ≠ .machine)) = s.virt
    rw [hmask, Bool.and_eq_left_iff_imp]
    exact fun hvirt => decide_eq_true (hmode hvirt).2
  · rw [returnFromTrap_enterSupervisor]
    exact ⟨rfl, sppPriv_ne_user hpriv, hmask, rfl⟩
  · rw [returnFromTrap_enterVirtualSupervisor _ _ _ _ hvirt]
    exact ⟨rfl, sppPriv_ne_user (hmode hvirt).2, rfl, rfl⟩

end Sys2Proof.Machine
end

section
/-! SUPPORT. What holds in every reset state, and the settlement of O10. -/

namespace Sys2Proof.Machine

/-! ## The interrupt enable and MPRV in `mstatus` -/

theorem mstatusWord_mie (m : MStatus) : (mstatusWord m).getLsbD 3 = m.mie := by
  simp only [mstatusWord, getLsbD_putBit _ _ 3 _ (by decide), Nat.reduceEqDiff, if_true, if_false]

theorem mstatusWord_mprv (m : MStatus) : (mstatusWord m).getLsbD 17 = m.mprv := by
  simp only [mstatusWord, getLsbD_putBit _ _ 17 _ (by decide), Nat.reduceEqDiff, if_true, if_false]

/-! ## M-mode and the STRC CSRs (R136) -/

/-- Past existence the check lets M-mode through, and it looks at no state-enable bit. -/
theorem checkStrcAccess_machine_none {s : State} (hpriv : s.priv = .machine) (hdis : s.dis = false)
    (hH : s.cfg.hasH = true) (id : CsrId) : checkStrcAccess s id = none := by
  simp [checkStrcAccess, hpriv, hdis, hH]

theorem checkAccess_strcNumbers_machine {s : State} (hlegal : CsrNumbersLegal s.cfg) (hpriv : s.priv = .machine)
    (hdis : s.dis = false) (hH : s.cfg.hasH = true) {n : Nat} (hn : n ∈ strcNumbers s.cfg) (isWrite : Bool) :
    checkAccess s n isWrite = none := by
  obtain ⟨id, hid, hstrc⟩ := csrOf_strcNumbers hlegal hn
  rw [checkAccess_strc hid hstrc, checkStrcAccess_machine_none hpriv hdis hH]

/-- Settles O10: the reset state is a state in M-mode, whose `mstatus` holds MIE = MPRV = 0. -/
theorem resetReachesEveryStrcCsr : Obligations.ResetReachesEveryStrcCsr := by
  intro c r hlegal s
  have hmie : (csrRead s .mstatus).getLsbD 3 = false := mstatusWord_mie TrapRegs.reset.mstatus
  have hmprv : (csrRead s .mstatus).getLsbD 17 = false := mstatusWord_mprv TrapRegs.reset.mstatus
  exact ⟨rfl, rfl, rfl, hmie, hmprv, fun hdis hH _ hn =>
    checkAccess_strcNumbers_machine (s := s) hlegal rfl hdis hH hn⟩

end Sys2Proof.Machine
end
